-- ==== Sys2Proof/Word.lean ====
section
/-! DEFINITION. The word types of the machine: the packed instruction word (R91), the packed register record
(R100), the two IEEE 754 formats of R8 as bit patterns, and the index field of an instruction (R91). -/

namespace Sys2Proof

/-- A binary32 datum as its bit pattern (`00_scope.md` R8; a NaN that is only moved is moved bit for bit, R159). -/
abbrev F32 := BitVec 32

/-- A binary64 datum as its bit pattern (R8). -/
abbrev F64 := BitVec 64

/-- One 64-bit instruction word (`30_encoding.md` R91). -/
abbrev InstrWord := BitVec 64

/-- One 64-bit register record as it is transferred to the hardware (R100). -/
abbrev RecordWord := BitVec 64

/-- A 12-bit operand index into the register file (R91). -/
abbrev RegIdx := BitVec 12

/-- A name or a source text of the loader, as its characters (R104, R105). -/
abbrev Text := List Char

end Sys2Proof
end

