-- ==== Sys2Proof/Syntax.lean ====
section
/-! DEFINITION. The instruction set (one constructor for each row of the opcode table, `30_encoding.md` R90 to R99),
the register kinds and records (`10_state.md` R21, R22) and the program image (R102). -/

namespace Sys2Proof

/-- The eleven register kinds (`10_state.md` R22), in the order of their codes (`30_encoding.md` R101). -/
inductive Kind where
  | static | temp | control | input | output | const | noise
  /-- pseudo-kind: as operand R of a delay instruction it selects a delay read (R236) -/
  | read
  /-- pseudo-kind: as operand R of a delay instruction it selects a delay write (R236) -/
  | write
  /-- pseudo-kind At, the ignored offset marker (R236, R239) -/
  | atMark
  /-- pseudo-kind CCR; its value does not mirror the condition code (R28) -/
  | ccr
deriving DecidableEq, Repr, Inhabited

/-- A register record (R21). Names belong to the symbol table (R104). -/
structure RegRecord where
  kind : Kind
  value : F32
  io : Nat
deriving DecidableEq, Repr, Inhabited

/-- The three flags of an instruction, `has_input`, `has_output`, `has_noise` (R90, R93). -/
structure IoFlags where
  hi : Bool
  ho : Bool
  hn : Bool
deriving DecidableEq, Repr

/-- The four operand indices R, A, X, Y (R90). -/
structure Opnds where
  r : RegIdx
  a : RegIdx
  x : RegIdx
  y : RegIdx
deriving DecidableEq, Repr

/-- The instruction record (R90), one constructor for each of the 19 opcodes of R92, in their order. Every
instruction carries its flags and operands, but END, whose fields are all 0 (R95). -/
inductive Instr where
  | mac (f : IoFlags) (o : Opnds)
  | macn (f : IoFlags) (o : Opnds)
  | macint (f : IoFlags) (o : Opnds)
  | macintw (f : IoFlags) (o : Opnds)
  | acc3 (f : IoFlags) (o : Opnds)
  | macmv (f : IoFlags) (o : Opnds)
  | macw (f : IoFlags) (o : Opnds)
  | macwn (f : IoFlags) (o : Opnds)
  | skip (f : IoFlags) (o : Opnds)
  | andxor (f : IoFlags) (o : Opnds)
  | tstneg (f : IoFlags) (o : Opnds)
  | limit (f : IoFlags) (o : Opnds)
  | limitn (f : IoFlags) (o : Opnds)
  | log (f : IoFlags) (o : Opnds)
  | exp (f : IoFlags) (o : Opnds)
  | interp (f : IoFlags) (o : Opnds)
  | endPass
  | idelay (f : IoFlags) (o : Opnds)
  | xdelay (f : IoFlags) (o : Opnds)
deriving DecidableEq, Repr

/-- What a load delivers (R102), with the register records already unpacked: the register file, the instruction
words, the declared delay sizes, the control list and the symbol table. -/
structure ProgramImage where
  gpr : List RegRecord
  imem : List InstrWord
  itramSize : Nat
  xtramSize : Nat
  ctrlList : List Nat
  symbols : List (Text × Nat)
deriving DecidableEq, Repr, Inhabited

/-- A program image in its transfer form: each register record is one 64-bit word (R100, R102). -/
structure RawImage where
  records : List RecordWord
  imem : List InstrWord
  itramSize : Nat
  xtramSize : Nat
  ctrlList : List Nat
  symbols : List (Text × Nat)
deriving DecidableEq, Repr

end Sys2Proof
end

