-- ==== Sys2Proof/Config.lean ====
section
/-! DEFINITION. Configuration (`10_state.md` R45): the parameters the source fixes (`00_scope.md` R5), the nominal values of
those it leaves open (R6), and the free values, which have no body. -/

namespace Sys2Proof

/-- The operations that may generate a NaN from two binary64 operands (`40_execution_cycle.md` R159 (b), (c)). -/
inductive NanOp where
  | add | sub | mul
deriving DecidableEq, Repr

namespace Config

/-- Capacity of the short delay line (R5, `ITRAM_CAP`). -/
def itramCap : Nat := 4800
/-- Capacity of the long delay line (R5, `XTRAM_CAP`). -/
def xtramCap : Nat := 48000
/-- Raw samples of a table before mirroring (R5, `LUT_RAW_ENTRIES`). -/
def lutRawEntries : Nat := 32
/-- Entries of a table after mirroring (R5, `LUT_ENTRIES`; R182: the raw samples twice). -/
def lutEntries : Nat := 2 * lutRawEntries
/-- The clipping threshold of `sat` (R5, `SAT_THRESHOLD`): 1.0. The condition code's tests against 1.0 take it too (R153). -/
def satThreshold : F32 := 0x3F800000#32
/-- Capacity of the register file (R6, `REG_CAP`, nominal; log 23). -/
def regCap : Nat := 4096
/-- Capacity of the instruction memory (R6, `IMEM_CAP`, nominal; log 23). -/
def imemCap : Nat := 4096
/-- Channel numbers a register record can carry: its `io` field has 16 bits (`30_encoding.md` R100; log 14). -/
def ioCap : Nat := 65536
/-- Lowest table exponent (R6, R184). -/
def lutExpMin : Nat := 1
/-- Highest table exponent (R6, R184). -/
def lutExpMax : Nat := 31
/-- `NUM_CHANNELS` of `State.reset` (DESIGN CHOICE, unsafe; log 1). The host's reset transaction takes any. -/
def numChannels : Nat := 1

/-- Numeric condition codes (R6): `CC_ZERO` 0 is the source's. -/
def ccZero : Int := 0
/-- `CC_NONZERO`, nominal (R6; log 7). -/
def ccNonzero : Int := 0x01
/-- `CC_POS`, nominal (R6; log 7). -/
def ccPos : Int := 0x02
/-- `CC_NEG`, nominal (R6; log 7). -/
def ccNeg : Int := 0x04
/-- `CC_SAT`, nominal (R6; log 7). -/
def ccSat : Int := 0x10

/-- What an element of a delay buffer that nothing has written reads as: +0.0 (`10_state.md` R34, R43; log 18). -/
def delayFill : F32 := 0#32

/-- FREE VALUE: sign (bit 52) and fraction (bits 51 to 0) of the NaN a binary64 operation generates (U15, D40; log 5). -/
opaque nanChoice : NanOp → F64 → F64 → BitVec 53
/-- FREE VALUE: sign and fraction of the NaN that widening a NaN gives (U15; log 5). -/
opaque nanWiden : F32 → BitVec 53
/-- FREE VALUE: sign (bit 23) and fraction (bits 22 to 0) of the NaN that narrowing a NaN gives (U15; log 5). -/
opaque nanNarrow : F64 → BitVec 24
/-- FREE VALUE: the raw noise samples, before the bound of R38 is put on them (U9, D18; log 6). -/
opaque noiseRaw : Nat → F32
/-- FREE VALUE: whether the loader keeps the number of a `noise` declaration (R106) or leaves 0.0 there (R266); the two rules
disagree and no ruling sets either aside (log 31). -/
opaque noiseNumberKept : Bool
/-- FREE VALUE: what a failed load leaves in the program-owned state (U12, R256; log 11). -/
opaque failedImage : Nat → ProgramImage

end Config
end Sys2Proof
end

