-- ==== Sys2Proof/WellFormed.lean ====
section
/-! DEFINITION. When an instruction is well-formed against the kinds of a register file: checks W4, W5 and W6 of
`30_encoding.md` R112, with the flag function of R93. (W3 is decoding; the checks of a whole image are in
`Machine/Image.lean`.) -/

namespace Sys2Proof

/-- The flags of an instruction; END carries none (R95). -/
def Instr.flags : Instr → IoFlags
  | .mac f _ | .macn f _ | .macint f _ | .macintw f _ | .acc3 f _ | .macmv f _ | .macw f _ | .macwn f _
  | .skip f _ | .andxor f _ | .tstneg f _ | .limit f _ | .limitn f _ | .log f _ | .exp f _ | .interp f _
  | .idelay f _ | .xdelay f _ => f
  | .endPass => ⟨false, false, false⟩

/-- The operand indices of an instruction; those of END are all 0 (R95). -/
def Instr.opnds : Instr → Opnds
  | .mac _ o | .macn _ o | .macint _ o | .macintw _ o | .acc3 _ o | .macmv _ o | .macw _ o | .macwn _ o
  | .skip _ o | .andxor _ o | .tstneg _ o | .limit _ o | .limitn _ o | .log _ o | .exp _ o | .interp _ o
  | .idelay _ o | .xdelay _ o => o
  | .endPass => ⟨0, 0, 0, 0⟩

/-- The kind at an index of the register file. -/
def kindAt (kinds : List Kind) (i : RegIdx) : Option Kind := kinds[i.toNat]?

/-- W4: every operand index is below `REG_COUNT`. -/
def Opnds.inRange (kinds : List Kind) (o : Opnds) : Bool :=
  decide (o.r.toNat < kinds.length) && decide (o.a.toNat < kinds.length)
    && decide (o.x.toNat < kinds.length) && decide (o.y.toNat < kinds.length)

/-- W5: the destination is not of kind Input. -/
def Opnds.destOk (kinds : List Kind) (o : Opnds) : Bool :=
  kindAt kinds o.r != some .input

/-- The flags of R93 as a function of the kinds of the operands. -/
def flagsOf (kinds : List Kind) (o : Opnds) : IoFlags where
  hi := kindAt kinds o.a == some .input || kindAt kinds o.x == some .input || kindAt kinds o.y == some .input
  ho := kindAt kinds o.r == some .output
  hn := kindAt kinds o.a == some .noise || kindAt kinds o.x == some .noise || kindAt kinds o.y == some .noise

/-- W4, W5 and W6 for one instruction; END passes them by its form (R95). -/
def Instr.wf (kinds : List Kind) (i : Instr) : Bool :=
  decide (i = .endPass)
    || (i.opnds.inRange kinds && i.opnds.destOk kinds && decide (i.flags = flagsOf kinds i.opnds))

end Sys2Proof
end

