-- ==== Sys2Proof/Decode.lean ====
section
/-! DEFINITION. The decoder of `30_encoding.md` R98, total on 64-bit words, and the encoder, its inverse. -/

namespace Sys2Proof

/-- Why a word is no instruction (R94, R95, R96). -/
inductive DecodeError where
  /-- `op` is 19 to 31 (R96) -/
  | illegalOpcode
  /-- bits 55:48 are not 0 (R94) -/
  | reservedBits
  /-- an END word with another field not 0 (R95) -/
  | endFields
deriving DecidableEq, Repr

/-- The `op` field, bits 63:59 (R91). -/
def fieldOp (w : InstrWord) : BitVec 5 := w.extractLsb' 59 5
/-- The reserved field, bits 55:48 (R91, R94). -/
def fieldRsv (w : InstrWord) : BitVec 8 := w.extractLsb' 48 8
/-- The three flag bits 58, 57, 56 (R91). -/
def fieldFlags (w : InstrWord) : IoFlags := ⟨w.getLsbD 58, w.getLsbD 57, w.getLsbD 56⟩
/-- The four index fields (R91). -/
def fieldOpnds (w : InstrWord) : Opnds :=
  ⟨w.extractLsb' 36 12, w.extractLsb' 24 12, w.extractLsb' 12 12, w.extractLsb' 0 12⟩

/-- The one encoding of END (R95). -/
def endWord : InstrWord := 0x8000000000000000#64

/-- The instruction of opcode number `op` with the given fields (R92); none for 19 to 31. END takes no field. -/
def instrOf (op : Nat) (f : IoFlags) (o : Opnds) : Option Instr :=
  match op with
  | 0 => some (.mac f o)
  | 1 => some (.macn f o)
  | 2 => some (.macint f o)
  | 3 => some (.macintw f o)
  | 4 => some (.acc3 f o)
  | 5 => some (.macmv f o)
  | 6 => some (.macw f o)
  | 7 => some (.macwn f o)
  | 8 => some (.skip f o)
  | 9 => some (.andxor f o)
  | 10 => some (.tstneg f o)
  | 11 => some (.limit f o)
  | 12 => some (.limitn f o)
  | 13 => some (.log f o)
  | 14 => some (.exp f o)
  | 15 => some (.interp f o)
  | 16 => some .endPass
  | 17 => some (.idelay f o)
  | 18 => some (.xdelay f o)
  | _ => none

/-- Decoding (R98): the record, or why the word is invalid. -/
def decode (w : InstrWord) : Except DecodeError Instr :=
  if fieldRsv w ≠ 0 then .error .reservedBits
  else match instrOf (fieldOp w).toNat (fieldFlags w) (fieldOpnds w) with
    | none => .error .illegalOpcode
    | some .endPass => if w = endWord then .ok .endPass else .error .endFields
    | some i => .ok i

/-- The opcode number of an instruction (R92). -/
def Instr.opcode : Instr → BitVec 5
  | .mac _ _ => 0
  | .macn _ _ => 1
  | .macint _ _ => 2
  | .macintw _ _ => 3
  | .acc3 _ _ => 4
  | .macmv _ _ => 5
  | .macw _ _ => 6
  | .macwn _ _ => 7
  | .skip _ _ => 8
  | .andxor _ _ => 9
  | .tstneg _ _ => 10
  | .limit _ _ => 11
  | .limitn _ _ => 12
  | .log _ _ => 13
  | .exp _ _ => 14
  | .interp _ _ => 15
  | .endPass => 16
  | .idelay _ _ => 17
  | .xdelay _ _ => 18

/-- The word of given fields, most significant field first (R91). -/
def packWord (op : BitVec 5) (f : IoFlags) (o : Opnds) : InstrWord :=
  op ++ BitVec.ofBool f.hi ++ BitVec.ofBool f.ho ++ BitVec.ofBool f.hn ++ 0#8 ++ o.r ++ o.a ++ o.x ++ o.y

/-- Encoding, the inverse of decoding (R98). -/
def encode (i : Instr) : InstrWord := packWord i.opcode i.flags i.opnds

/-- The instruction the decoder reads from an instruction whose `nbits` bits are `w`, every bit above them 0. The
hardware's word is one 64-bit element without a byte order (R62), so the word itself is what the decoder is given. -/
def decodeTableWord (nbits w : Nat) : Option Instr :=
  match decode (BitVec.ofNat 64 (w % 2 ^ nbits)) with
  | .ok i => some i
  | .error _ => none

/-- The kind of a kind code (R101); 11 to 15 are illegal. -/
def kindOfCode (c : Nat) : Option Kind :=
  match c with
  | 0 => some .static
  | 1 => some .temp
  | 2 => some .control
  | 3 => some .input
  | 4 => some .output
  | 5 => some .const
  | 6 => some .noise
  | 7 => some .read
  | 8 => some .write
  | 9 => some .atMark
  | 10 => some .ccr
  | _ => none

/-- The code of a kind (R101). -/
def Kind.code : Kind → BitVec 4
  | .static => 0
  | .temp => 1
  | .control => 2
  | .input => 3
  | .output => 4
  | .const => 5
  | .noise => 6
  | .read => 7
  | .write => 8
  | .atMark => 9
  | .ccr => 10

/-- The record a record word carries (R100): none for an illegal kind code or reserved bits that are not 0 (W10). -/
def decodeRecord (w : RecordWord) : Option RegRecord :=
  if w.extractLsb' 48 12 ≠ 0 then none
  else match kindOfCode (w.extractLsb' 60 4).toNat with
    | none => none
    | some k => some ⟨k, w.extractLsb' 0 32, (w.extractLsb' 32 16).toNat⟩

/-- The word of a record (R100). -/
def encodeRecord (r : RegRecord) : RecordWord :=
  r.kind.code ++ 0#12 ++ BitVec.ofNat 16 r.io ++ r.value

end Sys2Proof
end

