-- ==== Sys2Proof/Machine/State.lean ====
section
/-! DEFINITION. The state of the machine (`10_state.md` R20 to R43), the host's transactions and their answers (`20_memory.md`
R74 to R78, `70_reset_and_hazards.md` R280 to R287), the reasons of a stop, and the state after reset (R43, R281). -/

namespace Sys2Proof.Machine

/-- The elements of a delay buffer: (element address, binary32), addresses strictly rising, none equal to what an
unlisted element reads as (`Config.delayFill`); there are no bytes (`20_memory.md` R61, R62; log 18). -/
abbrev Memory := List (Nat × F32)

/-- The canonical form of a delay buffer's elements. -/
abbrev Memory.wf (m : Memory) : Prop :=
  m.Pairwise (fun p q => p.1 < q.1) ∧ ∀ c ∈ m, c.2 ≠ Config.delayFill

/-- A delay line: buffer, write cursor, read cursor, declared size (R34, R35). -/
structure DelayLine where
  buf : Memory
  wcur : Nat
  rcur : Nat
  size : Nat
deriving DecidableEq, Repr

/-- The five condition codes (R27); their numbers are `CondCode.code` in `Machine/Flags.lean`. -/
inductive CondCode where
  | zero | nonzero | pos | neg | sat
deriving DecidableEq, Repr

/-- The kinds of load-time diagnostics (`60_exceptions.md` R254), the sentinel first. -/
inductive Diagnostic where
  | noError
  | multipleVarDeclare
  | varNotDeclared
  | inputForRNotAllowed
  | ioIndexOutOfRange
  | itramSizeTooLarge
  | xtramSizeTooLarge
  | noEndFound
  | syntaxNotValid
deriving DecidableEq, Repr

/-- One entry of `ERRORS` (R42, R253): the kind and the source row; the sentinel has no row (R254). -/
structure ErrorRecord where
  kind : Diagnostic
  row : Option Nat
deriving DecidableEq, Repr

/-- The host's transactions (R14, R74 to R78, R280, R283, R287). -/
inductive HostCmd where
  /-- construction with a number of channels (R280) -/
  | reset (numChannels : Nat)
  /-- `load_file` on a source text (R283) -/
  | loadText (text : Text)
  /-- a program image delivered by other means (R112) -/
  | loadImage (img : RawImage)
  /-- `process` with one sample per channel (R140, R141) -/
  | tick (samples : List F32)
  /-- `HostWrite(i, v)` (R75) -/
  | write (i : Nat) (v : F32)
  /-- `HostRead(i)` (R76) -/
  | read (i : Nat)
  /-- `set_register_value` (R77) -/
  | setByName (name : Text) (v : F32)
  /-- `get_register_value` (R77) -/
  | getByName (name : Text)
  /-- `get_instruction_counter` (R78) -/
  | getCounter
  /-- `get_control_registers` (R78) -/
  | getControls
  /-- `get_error_list` (R78) -/
  | getErrors
deriving DecidableEq, Repr

/-- What a transaction answers. -/
inductive HostReply where
  | constructed
  | loaded
  /-- a failed load, with the whole diagnostic list (R116, R256) -/
  | loadFailed (errors : List ErrorRecord)
  /-- the output buffer at the end of a tick (R151) -/
  | output (samples : List F32)
  | written
  | value (v : F32)
  /-- an unknown name (R77): no value -/
  | notFound
  | counter (n : BitVec 64)
  /-- the names of the control registers; none where the image carries no name for an index -/
  | controls (names : List (Option Text))
  | errorList (errors : List ErrorRecord)
deriving DecidableEq, Repr

/-- The hardware records no fault and raises nothing (`60_exceptions.md` R250, R260; `93_implementation_defined.md`: no
behaviour has the treatment `fault`): there is no reason of this type. -/
inductive Fault : Type
deriving DecidableEq, Repr

/-- The situations to which the rules give no meaning (R262, U1, U2, U14, U18). Each is SAFE: the emulator does
something there and nothing can be proved about it. -/
inductive Refusal where
  /-- raised by exec's arm of an instruction that has no meaning yet (no arm is left so); safe -/
  | notModelled (mnemonic : String)
  /-- raised by a tick while `loaded_ok` is false (R262 (b), U1); safe -/
  | tickNotLoaded
  /-- raised by a tick, or by the delivery of an image, when a check of R112 fails (R262 (a), R96, U2); safe -/
  | illFormedImage
  /-- raised by a tick whose samples are not one per channel (R262 (d), U14); safe -/
  | wrongSampleCount
  /-- raised by a host port access at or above `REG_COUNT` (R262 (e), U14); safe -/
  | hostIndexOutOfRange
  /-- raised by construction with no channel (R6: "1 or more"; log 22); safe -/
  | noChannels
  /-- raised by a load whose program exceeds `REG_CAP`, `IMEM_CAP` or the 16-bit channel field (U18, log 14); safe -/
  | imageOverCapacity
  /-- raised by a fetch at or above `N`, which no well-formed image reaches (R145; log 12); safe -/
  | pcOutOfRange
  /-- raised by the execution of a word that decodes to nothing, which no well-formed image holds (R96; log 12); safe -/
  | illFormedWord
  /-- raised by an instruction whose operand index is at or above `REG_COUNT`, W4 (R67, R262 (a); log 12); safe -/
  | operandIndexOutOfRange
  /-- raised by an injection or a publication whose channel does not exist, W7 (R67, R262 (a); log 12); safe -/
  | channelOutOfRange
deriving DecidableEq, Repr

end Sys2Proof.Machine

namespace Sys2Proof.Machine

/-- Everything the spec gives the machine (R43), the symbol table of the image (R102 (e)), and four fields of the
model's own: `inTick`, `hostQueue`, `replies`, `freeCount` (log 3). `REG_COUNT` and `N` are the lengths of `gpr`
and `imem`. -/
structure State where
  /-- `NUM_CHANNELS`, fixed at construction (R280) -/
  numChannels : Nat
  /-- the register file (R20) -/
  gpr : List RegRecord
  /-- the instruction memory (R33) -/
  imem : List InstrWord
  /-- the accumulator (R26) -/
  acc : F64
  /-- the condition code (R27) -/
  cc : CondCode
  /-- the pass position (R29) -/
  pc : Nat
  /-- the pass-ended flag (R30) -/
  ended : Bool
  /-- the skip counter (R31; log 19) -/
  skipcnt : Int
  /-- the instruction counter (R32) -/
  icount : BitVec 64
  /-- the short delay line (R34) -/
  itram : DelayLine
  /-- the long delay line (R35) -/
  xtram : DelayLine
  /-- the position of the noise source (R38) -/
  noisePos : Nat
  /-- the input buffer `IN` (R39) -/
  inBuf : List F32
  /-- the output buffer `OUT` (R40) -/
  outBuf : List F32
  /-- the control list (R41) -/
  ctrlList : List Nat
  /-- the load status (R42) -/
  loadedOk : Bool
  /-- the error list (R42, R253) -/
  errors : List ErrorRecord
  /-- the symbol table for the name-based calls (R77, R102 (e), R104) -/
  symbols : List (Text × Nat)
  /-- model's own: a tick is in progress (R74) -/
  inTick : Bool
  /-- model's own: the host's transactions not yet performed, the next one first -/
  hostQueue : List HostCmd
  /-- model's own: the answers given, the oldest first -/
  replies : List HostReply
  /-- model's own: free images drawn by failed loads so far (log 11) -/
  freeCount : Nat
deriving DecidableEq, Repr

/-- The four pseudo-registers that every load and reset creates (R23). -/
def pseudoRegisters : List RegRecord :=
  [⟨.ccr, 0#32, 0⟩, ⟨.read, 0#32, 0⟩, ⟨.write, 0#32, 0⟩, ⟨.atMark, 0#32, 0⟩]

/-- The names of the pseudo-registers (R23). -/
def pseudoSymbols : List (Text × Nat) :=
  [("ccr".toList, 0), ("read".toList, 1), ("write".toList, 2), ("at".toList, 3)]

/-- The error list of no error: the sentinel only (R253). -/
def sentinelOnly : List ErrorRecord := [⟨.noError, none⟩]

/-- The machine right after construction with `n` channels (R280, R281, R43). -/
def State.construct (n : Nat) : State where
  numChannels := n
  gpr := pseudoRegisters
  imem := []
  acc := 0#64
  cc := .zero
  pc := 0
  ended := false
  skipcnt := 0
  icount := 0#64
  itram := ⟨[], 0, 0, Config.itramCap⟩
  xtram := ⟨[], 0, 0, Config.xtramCap⟩
  noisePos := 0
  inBuf := List.replicate n 0#32
  outBuf := List.replicate n 0#32
  ctrlList := []
  loadedOk := false
  errors := sentinelOnly
  symbols := pseudoSymbols
  inTick := false
  hostQueue := []
  replies := []
  freeCount := 0

/-- The machine right after reset (R281), with the number of channels of `Config.numChannels` (log 1). -/
def State.reset : State := State.construct Config.numChannels

end Sys2Proof.Machine
end

