-- ==== Sys2Proof/Machine/Float.lean ====
section
/-! DEFINITION. IEEE 754 binary32 and binary64 arithmetic on bit patterns (`00_scope.md` R8 to R11, `40_execution_cycle.md`
R155, R159): every operation is computed exactly on integers and then rounded once, to nearest, ties to even. -/

namespace Sys2Proof.Machine

/-- A binary interchange format: fraction bits and exponent bits. -/
structure Format where
  fracBits : Nat
  expBits : Nat
deriving DecidableEq, Repr

/-- binary32 (R8). -/
def b32 : Format := ⟨23, 8⟩
/-- binary64 (R8). -/
def b64 : Format := ⟨52, 11⟩

/-- The exponent of the last place of the subnormal numbers of a format. -/
def Format.minExp (F : Format) : Int := 2 - 2 ^ (F.expBits - 1) - F.fracBits

/-- The pattern of +infinity. -/
def Format.infBits (F : Format) : Nat := (2 ^ F.expBits - 1) * 2 ^ F.fracBits

/-- The pattern's bit of the sign, as a number. -/
def Format.signBit (F : Format) : Nat := 2 ^ (F.fracBits + F.expBits)

/-- What a pattern stands for: a NaN, an infinity, or the exact number (-1)^neg * m * 2^e. -/
inductive Num where
  | nan
  | inf (neg : Bool)
  | fin (neg : Bool) (m : Nat) (e : Int)
deriving DecidableEq, Repr

/-- Reading a pattern; subnormal numbers are ordinary values (R159 (a)). -/
def unpack (F : Format) (w : Nat) : Num :=
  let frac := w % 2 ^ F.fracBits
  let ex := w / 2 ^ F.fracBits % 2 ^ F.expBits
  let neg := decide (w / F.signBit % 2 = 1)
  if ex = 2 ^ F.expBits - 1 then (if frac = 0 then .inf neg else .nan)
  else if ex = 0 then .fin neg frac F.minExp
  else .fin neg (2 ^ F.fracBits + frac) (F.minExp + ex - 1)

/-- m / 2^d rounded to the nearest integer, ties to even (R8). -/
def roundShift (m d : Nat) : Nat :=
  let q := m / 2 ^ d
  let r := m % 2 ^ d
  if 2 * r > 2 ^ d ∨ (2 * r = 2 ^ d ∧ q % 2 = 1) then q + 1 else q

/-- The pattern, without its sign, of m * 2^e rounded to a format; out of range gives infinity (R8). The exponent field
is added to the rounded significand, so that a carry out of it moves to the next exponent. -/
def roundMag (F : Format) (m : Nat) (e : Int) : Nat :=
  if m = 0 then 0
  else
    let q : Int := max (e + (Nat.log2 m : Int) - F.fracBits) F.minExp
    let sig := if q ≤ e then m * 2 ^ (e - q).toNat else roundShift m (q - e).toNat
    min ((q - F.minExp).toNat * 2 ^ F.fracBits + sig) F.infBits

/-- A pattern from its sign and its other bits. -/
def withSign (F : Format) (neg : Bool) (mag : Nat) : Nat := (if neg then F.signBit else 0) + mag

/-- The NaN pattern whose sign and fraction a free value gives; a fraction of 0 would be an infinity, so it is 1 (log 5). -/
def nanPattern (F : Format) (choice : Nat) : Nat :=
  withSign F (decide (choice / 2 ^ F.fracBits % 2 = 1))
    (F.infBits + (if choice % 2 ^ F.fracBits = 0 then 1 else choice % 2 ^ F.fracBits))

/-- What a binary32 datum stands for. -/
def num32 (v : F32) : Num := unpack b32 v.toNat
/-- What a binary64 datum stands for. -/
def num64 (v : F64) : Num := unpack b64 v.toNat

/-- The binary64 of an exact number, rounded once. -/
def round64 (neg : Bool) (m : Nat) (e : Int) : F64 := BitVec.ofNat 64 (withSign b64 neg (roundMag b64 m e))
/-- The binary32 of an exact number, rounded once. -/
def round32 (neg : Bool) (m : Nat) (e : Int) : F32 := BitVec.ofNat 32 (withSign b32 neg (roundMag b32 m e))
/-- The binary64 infinities. -/
def inf64 (neg : Bool) : F64 := BitVec.ofNat 64 (withSign b64 neg b64.infBits)
/-- The binary32 infinities. -/
def inf32 (neg : Bool) : F32 := BitVec.ofNat 32 (withSign b32 neg b32.infBits)
/-- A binary64 NaN with the sign and fraction of a free value (U15; log 5). -/
def nan64 (choice : BitVec 53) : F64 := BitVec.ofNat 64 (nanPattern b64 choice.toNat)
/-- A binary32 NaN with the sign and fraction of a free value (U15; log 5). -/
def nan32 (choice : BitVec 24) : F32 := BitVec.ofNat 32 (nanPattern b32 choice.toNat)

/-- Whether a datum is a NaN. -/
def isNan32 (v : F32) : Bool := num32 v = .nan
/-- Whether a datum is a NaN. -/
def isNan64 (v : F64) : Bool := num64 v = .nan

/-- The signed integer that a finite number is, counted in units of 2^e0 (e0 at most e). -/
def scaled (neg : Bool) (m : Nat) (e e0 : Int) : Int :=
  (if neg then -1 else 1) * (m * 2 ^ (e - e0).toNat : Nat)

/-- The rounded sum of two numbers; an exact zero sum is -0 only if both terms are negative (R8: to nearest). `nanBits` is
what an invalid sum or a NaN operand gives (R159 (b), (c)). -/
def sum64 (nanBits : F64) : Num → Num → F64
  | .nan, _ => nanBits
  | _, .nan => nanBits
  | .inf s, .inf t => if s = t then inf64 s else nanBits
  | .inf s, .fin _ _ _ => inf64 s
  | .fin _ _ _, .inf t => inf64 t
  | .fin s m e, .fin t n k =>
    let e0 := min e k
    let z := scaled s m e e0 + scaled t n k e0
    if z = 0 then round64 (s && t) 0 0 else round64 (decide (z < 0)) z.natAbs e0

/-- The rounded product of two numbers; 0 * infinity is invalid (R159 (b)). -/
def prod64 (nanBits : F64) : Num → Num → F64
  | .nan, _ => nanBits
  | _, .nan => nanBits
  | .inf s, .inf t => inf64 (s != t)
  | .inf s, .fin t n _ => if n = 0 then nanBits else inf64 (s != t)
  | .fin s m _, .inf t => if m = 0 then nanBits else inf64 (s != t)
  | .fin s m e, .fin t n k => round64 (s != t) (m * n) (e + k)

/-- Negation of a number. -/
def Num.negate : Num → Num
  | .nan => .nan
  | .inf s => .inf (!s)
  | .fin s m e => .fin (!s) m e

/-- binary64 addition (R9). -/
def add64 (a b : F64) : F64 := sum64 (nan64 (Config.nanChoice .add a b)) (num64 a) (num64 b)
/-- binary64 subtraction (R9). -/
def sub64 (a b : F64) : F64 := sum64 (nan64 (Config.nanChoice .sub a b)) (num64 a) (num64 b).negate
/-- binary64 multiplication (R9). -/
def mul64 (a b : F64) : F64 := prod64 (nan64 (Config.nanChoice .mul a b)) (num64 a) (num64 b)

/-- Negation of a binary64 datum: the sign bit flipped (R182). -/
def neg64 (v : F64) : F64 := v ^^^ 0x8000000000000000#64
/-- Negation of a binary32 datum: the sign bit flipped, exact (`44_logic_and_select.md` R211; log 28). -/
def neg32 (v : F32) : F32 := v ^^^ 0x80000000#32

/-- `f64(v)`: exact widening (R8). -/
def widen (v : F32) : F64 :=
  match num32 v with
  | .nan => nan64 (Config.nanWiden v)
  | .inf s => inf64 s
  | .fin s m e => round64 s m e

/-- `f32(v)`: narrowing with one rounding (R8, R155). -/
def narrow (v : F64) : F32 :=
  match num64 v with
  | .nan => nan32 (Config.nanNarrow v)
  | .inf s => inf32 s
  | .fin s m e => round32 s m e

/-- `<` (R9): false with a NaN; the zeros are equal. -/
def Num.lt : Num → Num → Bool
  | .nan, _ => false
  | _, .nan => false
  | .inf s, .inf t => s && !t
  | .inf s, .fin _ _ _ => s
  | .fin _ _ _, .inf t => !t
  | .fin s m e, .fin t n k => decide (scaled s m e (min e k) < scaled t n k (min e k))

/-- `==` (R9): false with a NaN; -0.0 == +0.0. -/
def Num.eqv : Num → Num → Bool
  | .nan, _ => false
  | _, .nan => false
  | .inf s, .inf t => s == t
  | .inf _, .fin _ _ _ => false
  | .fin _ _ _, .inf _ => false
  | .fin s m e, .fin t n k => decide (scaled s m e (min e k) = scaled t n k (min e k))

/-- `<=` (R9). -/
def Num.le (a b : Num) : Bool := a.lt b || a.eqv b

/-- Comparisons of binary32 data (R9). -/
def lt32 (a b : F32) : Bool := (num32 a).lt (num32 b)
def le32 (a b : F32) : Bool := (num32 a).le (num32 b)
def eq32 (a b : F32) : Bool := (num32 a).eqv (num32 b)
/-- Comparisons of binary64 data (R9). -/
def lt64 (a b : F64) : Bool := (num64 a).lt (num64 b)
def le64 (a b : F64) : Bool := (num64 a).le (num64 b)

/-- `clamp(v, lo, hi)` (R11). -/
def clamp (v lo hi : Int) : Int := if v < lo then lo else if v > hi then hi else v

/-- The largest signed 32-bit integer. -/
def int32Max : Int := 2147483647
/-- The smallest signed 32-bit integer. -/
def int32Min : Int := -2147483648

/-- `int(v)` (R10): truncation toward zero, saturating at 32 bits; 0 for a NaN (log 9). -/
def Num.toInt : Num → Int
  | .nan => 0
  | .inf s => if s then int32Min else int32Max
  | .fin s m e =>
    let t : Nat := if 0 ≤ e then m * 2 ^ e.toNat else m / 2 ^ (-e).toNat
    clamp ((if s then -1 else 1) * (t : Int)) int32Min int32Max

/-- `int` of a binary32 datum (R10). -/
def int32 (v : F32) : Int := (num32 v).toInt
/-- `int` of a binary64 datum (R10). -/
def int64 (v : F64) : Int := (num64 v).toInt

/-- `float(n)` (R11): the binary32 nearest to an integer, ties to even. -/
def floatOf (n : Int) : F32 := round32 (decide (n < 0)) n.natAbs 0
/-- The binary64 of an integer (R9: a mixed operation widens the integer, exact below 2^53). -/
def float64Of (n : Int) : F64 := round64 (decide (n < 0)) n.natAbs 0

/-- `bits32(n)` (R11): the 32-bit two's-complement pattern. -/
def bits32 (n : Int) : BitVec 32 := BitVec.ofInt 32 n

/-- The binary64 constants of the rules: 1.0, -1.0 and 2.0. -/
def one64 : F64 := 0x3FF0000000000000#64
def negOne64 : F64 := 0xBFF0000000000000#64
def two64 : F64 := 0x4000000000000000#64
/-- The binary32 constants of the rules: +0.0, 1.0 and -1.0. -/
def zero32 : F32 := 0x00000000#32
def one32 : F32 := 0x3F800000#32
def negOne32 : F32 := 0xBF800000#32

/-- A positive rational num/den as m * 2^e with at least 60 significant bits, its last bit 1 when the quotient is not
exact, so that a later rounding to nearest sees on which side of a tie it lies. -/
def ratioScaled (num den : Nat) : Nat × Int :=
  let t := 70 + Nat.log2 den
  (2 * (num * 2 ^ t / den) + (if num * 2 ^ t % den = 0 then 0 else 1), -((t : Int) + 1))

end Sys2Proof.Machine
end

