-- ==== Sys2Proof/Machine/Flags.lean ====
section
/-! DEFINITION. The primitives of the saturating ALU: `sat`, `cc_of`, `wrap` (`40_execution_cycle.md` R152 to R154), and the
numbers of the condition codes (`00_scope.md` R6). -/

namespace Sys2Proof.Machine

/-- `threshold` of R152, in binary64. -/
def satThreshold64 : F64 := widen Config.satThreshold

/-- `sat` (R152): clipping at the threshold; a NaN fails both tests and is returned unchanged. -/
def sat (v : F64) : F64 :=
  if lt64 satThreshold64 v then satThreshold64 else if lt64 v (neg64 satThreshold64) then neg64 satThreshold64 else v

/-- `wrap` (R154): one fold by 2 of a value outside [-1, 1); a NaN is returned unchanged. -/
def wrap (v : F64) : F64 :=
  if le64 one64 v then sub64 v two64 else if lt64 v negOne64 then add64 v two64 else v

/-- `cc_of` (R153), the tests in the rule's order; the last case is reached only by a NaN. -/
def ccOf (r : F32) : CondCode :=
  if eq32 r zero32 then .zero
  else if lt32 (neg32 Config.satThreshold) r && lt32 r zero32 then .neg
  else if lt32 zero32 r && lt32 r Config.satThreshold then .pos
  else if le32 r (neg32 Config.satThreshold) || le32 Config.satThreshold r then .sat
  else .nonzero

/-- The number of a condition code (R6, nominal values; log 7). -/
def CondCode.code : CondCode → Int
  | .zero => Config.ccZero
  | .nonzero => Config.ccNonzero
  | .pos => Config.ccPos
  | .neg => Config.ccNeg
  | .sat => Config.ccSat

end Sys2Proof.Machine
end

