-- ==== Sys2Proof/Machine/Ops.lean ====
section
/-! DEFINITION. The named operations over registers, delay memory and the other state (`10_state.md`, `46_delay.md` R230 to
R232, `40_execution_cycle.md` R146 to R150). The spec has no exception to take and none to return from (`60_exceptions.md`
R250 to R252), so there is no such operation. -/

namespace Sys2Proof.Machine

/-! ### Registers -/

/-- What a read outside the register file would give; no well-formed image reads there (W4). -/
def absentRecord : RegRecord := ⟨.static, 0#32, 0⟩

/-- `GPR[i]` (R12). -/
def State.reg (s : State) (i : RegIdx) : RegRecord := s.gpr.getD i.toNat absentRecord

/-- `GPR[i].value` (R12). -/
def State.value (s : State) (i : RegIdx) : F32 := (s.reg i).value

/-- The kinds of the register file, fixed at load (R21). -/
def State.kinds (s : State) : List Kind := s.gpr.map RegRecord.kind

/-- `GPR[i].value <- v` on a register file; kind and io stay (R21). -/
def writeValue (gpr : List RegRecord) (i : Nat) (v : F32) : List RegRecord :=
  gpr.modify i (fun r => { r with value := v })

/-- `GPR[i].value <- v` (R12). -/
def State.setValue (s : State) (i : RegIdx) (v : F32) : State := { s with gpr := writeValue s.gpr i.toNat v }

/-! ### The other registers -/

/-- `acc <- v` (R26). -/
def State.setAcc (s : State) (v : F64) : State := { s with acc := v }
/-- `cc <- c` (R27). -/
def State.setCc (s : State) (c : CondCode) : State := { s with cc := c }
/-- `skipcnt <- n` (R31). -/
def State.setSkip (s : State) (n : Int) : State := { s with skipcnt := n }
/-- `ended <- true` (R30). -/
def State.setEnded (s : State) : State := { s with ended := true }
/-- `pc <- t` (R29). -/
def State.setPc (s : State) (t : Nat) : State := { s with pc := t }
/-- `icount <- icount + 1`, modulo 2^64 (R32, R149). -/
def State.count (s : State) : State := { s with icount := s.icount + 1 }
/-- The short delay line replaced (R34). -/
def State.setItram (s : State) (l : DelayLine) : State := { s with itram := l }
/-- The long delay line replaced (R35). -/
def State.setXtram (s : State) (l : DelayLine) : State := { s with xtram := l }
/-- `noise_pos <- noise_pos + 1` (R38, R147). -/
def State.drawNoise (s : State) : State := { s with noisePos := s.noisePos + 1 }
/-- `OUT[c] <- v` (R40). -/
def State.setOut (s : State) (c : Nat) (v : F32) : State := { s with outBuf := s.outBuf.set c v }

/-! ### Delay memory -/

/-- One element of a delay buffer (R61); an unlisted one reads as +0.0 (log 18). -/
def Memory.read : Memory → Nat → F32
  | [], _ => Config.delayFill
  | c :: m, k => if c.1 = k then c.2 else Memory.read m k

/-- Storing one element (R61), keeping the canonical form: the fill value is not listed. -/
def Memory.write : Memory → Nat → F32 → Memory
  | [], k, v => if v = Config.delayFill then [] else [(k, v)]
  | c :: m, k, v =>
    if k < c.1 then (if v = Config.delayFill then c :: m else (k, v) :: c :: m)
    else if k = c.1 then (if v = Config.delayFill then m else (k, v) :: m)
    else c :: Memory.write m k v

/-- `clamp(int(y), 0, size - 1)` (R230). -/
def delayOffset (size : Nat) (y : F32) : Nat := (clamp (int32 y) 0 (size - 1 : Int)).toNat

/-- The element a delay write stores to: `(wcur + off) mod capacity` (R231). -/
def writeAddress (cap : Nat) (l : DelayLine) (off : Nat) : Nat := (l.wcur + off) % cap

/-- The element a delay read reads: `(rcur - off) mod capacity`, the non-negative remainder (R232, R11). -/
def readAddress (cap : Nat) (l : DelayLine) (off : Nat) : Nat := (((l.rcur : Int) - off) % (cap : Int)).toNat

/-- `DelayWrite` (R231). -/
def delayWrite (cap : Nat) (l : DelayLine) (v : F32) (off : Nat) : DelayLine :=
  { l with buf := l.buf.write (writeAddress cap l off) v, wcur := (l.wcur + 1) % l.size }

/-- The sample `DelayRead` returns (R232). -/
def delaySample (cap : Nat) (l : DelayLine) (off : Nat) : F32 := l.buf.read (readAddress cap l off)

/-- The line after `DelayRead` (R232): only the read cursor moves. -/
def delayReadAdvance (l : DelayLine) : DelayLine := { l with rcur := (l.rcur + 1) % l.size }

/-! ### Injection and publication -/

/-- `noise_stream` (R6, R38): the free raw samples, kept where they lie in [-1, 1), else 0.0 (log 6). -/
def noiseStream (n : Nat) : F32 :=
  if le32 negOne32 (Config.noiseRaw n) && lt32 (Config.noiseRaw n) one32 then Config.noiseRaw n else zero32

/-- Input injection at one operand position (R146). -/
def State.injectInputAt (s : State) (p : RegIdx) : State :=
  if (s.reg p).kind = .input then s.setValue p (s.inBuf.getD (s.reg p).io zero32) else s

/-- Input injection (R146), for the positions A, X, Y. -/
def State.injectInput (s : State) (f : IoFlags) (o : Opnds) : State :=
  if f.hi then ((s.injectInputAt o.a).injectInputAt o.x).injectInputAt o.y else s

/-- Overwriting one operand position with a noise sample when its register is of kind Noise (R147). -/
def State.injectNoiseAt (s : State) (v : F32) (p : RegIdx) : State :=
  if (s.reg p).kind = .noise then s.setValue p v else s

/-- Noise injection (R147): one sample for the instruction, whatever the number of Noise operands. -/
def State.injectNoise (s : State) (f : IoFlags) (o : Opnds) : State :=
  if f.hn then
    (((s.drawNoise.injectNoiseAt (noiseStream s.noisePos) o.a).injectNoiseAt (noiseStream s.noisePos) o.x).injectNoiseAt
      (noiseStream s.noisePos) o.y)
  else s

/-- Both injections, input first (R70, R147). -/
def State.inject (s : State) (f : IoFlags) (o : Opnds) : State := (s.injectInput f o).injectNoise f o

/-- Output publication (R150): the value of R after the operation, from the R position only. -/
def State.publish (s : State) (f : IoFlags) (o : Opnds) : State :=
  if f.ho then s.setOut (s.reg o.r).io (s.value o.r) else s

end Sys2Proof.Machine
end

