-- ==== Sys2Proof/Machine/Operands.lean ====
section
/-! DEFINITION. The steps common to every executed instruction (`40_execution_cycle.md` R142, R146 to R150): the operand
checks of the image (W4, W7), the injections, the source values, the operation, the count and the publication. -/

namespace Sys2Proof.Machine

/-- The local copies of the source values (R148). -/
structure Sources where
  a : F32
  x : F32
  y : F32
deriving DecidableEq, Repr

/-- The operand reads of R148, taken after the injections. -/
def State.sources (s : State) (o : Opnds) : Sources := ⟨s.value o.a, s.value o.x, s.value o.y⟩

/-- An index names a register: it is below `REG_COUNT` (R20). -/
def State.hasReg (s : State) (i : RegIdx) : Bool := (s.gpr[i.toNat]?).isSome

/-- Every operand index names a register (W4). -/
def State.operandsExist (s : State) (o : Opnds) : Bool :=
  s.hasReg o.r && s.hasReg o.a && s.hasReg o.x && s.hasReg o.y

/-- The channel that an injection at a position needs exists (W7). -/
def State.inChannelExists (s : State) (p : RegIdx) : Bool :=
  decide ((s.reg p).kind ≠ .input) || decide ((s.reg p).io < s.inBuf.length)

/-- Every channel that the injections and the publication need exists (W7). -/
def State.channelsExist (s : State) (f : IoFlags) (o : Opnds) : Bool :=
  (!f.hi || (s.inChannelExists o.a && s.inChannelExists o.x && s.inChannelExists o.y))
    && (!f.ho || decide ((s.reg o.r).io < s.outBuf.length))

/-- An executed instruction (R142, R70): injections, source reads, the operation, the count, the publication. The two
refusals are for words no well-formed image holds (log 12). -/
def executed (f : IoFlags) (o : Opnds) (operation : Sources → State → State) (s : State) :
    Host.Outcome State Fault Refusal :=
  if !s.operandsExist o then .refused .operandIndexOutOfRange
  else if !s.channelsExist f o then .refused .channelOutOfRange
  else .next ((operation ((s.inject f o).sources o) (s.inject f o)).count.publish f o)

/-! ### The shapes of an operation's writes (R156) -/

/-- The writes of a saturating instruction whose sum is `t` (R170 to R173): R clipped and narrowed, `acc` the
unsaturated sum, `cc` from the stored value. -/
def saturating (r : RegIdx) (t : F64) (s : State) : State :=
  ((s.setValue r (narrow (sat t))).setAcc t).setCc (ccOf (narrow (sat t)))

/-- R and the accumulator receive the same binary32 value (R155: "= R"). -/
def storing (r : RegIdx) (v : F32) (s : State) : State := (s.setValue r v).setAcc (widen v)

/-- a + x*y (R170, R200): the product, then the sum. -/
def sumProduct (l : Sources) : F64 := add64 (widen l.a) (mul64 (widen l.x) (widen l.y))

/-- a - x*y (R171, R202). -/
def diffProduct (l : Sources) : F64 := sub64 (widen l.a) (mul64 (widen l.x) (widen l.y))

/-- (a + x) + y (R173), left to right. -/
def sumThree (l : Sources) : F64 := add64 (add64 (widen l.a) (widen l.x)) (widen l.y)

end Sys2Proof.Machine
end

