-- ==== Sys2Proof/Machine/Control.lean ====
section
/-! DEFINITION. Control flow, `45_skip_and_end.md`: SKIP and END. -/

namespace Sys2Proof.Machine

/-- SKIP (R220): the whole integer is compared with the whole condition code; the count is taken as it is, negative too
(R222). R and A take part in the common steps only. -/
def execSkip (f : IoFlags) (o : Opnds) (s : State) : Host.Outcome State Fault Refusal :=
  executed f o (fun l t => if int32 l.x = t.cc.code then t.setSkip (int32 l.y) else t) s

/-- END (R223): counted, and the pass ended; no field of the word is read (R95). -/
def execEnd (s : State) : Host.Outcome State Fault Refusal :=
  .next s.count.setEnded

end Sys2Proof.Machine
end

