-- ==== Sys2Proof/Machine/Delay.lean ====
section
/-! DEFINITION. Delay memory access, `46_delay.md`: IDELAY and XDELAY. -/

namespace Sys2Proof.Machine

/-- One delay instruction on a line (R236 to R238): the kind of R chooses a read into A and `acc`, a write from A, or
nothing. `line` reads the line from the state, `put` stores it. -/
def delayAccess (cap : Nat) (line : State → DelayLine) (put : State → DelayLine → State) (o : Opnds) (l : Sources)
    (s : State) : State :=
  match (s.reg o.r).kind with
  | .read =>
    let v := delaySample cap (line s) (delayOffset (line s).size l.y)
    ((put s (delayReadAdvance (line s))).setValue o.a v).setAcc (widen v)
  | .write => put s (delayWrite cap (line s) l.a (delayOffset (line s).size l.y))
  | .static | .temp | .control | .input | .output | .const | .noise | .atMark | .ccr => s

/-- IDELAY (R237): the short line. -/
def execIdelay (f : IoFlags) (o : Opnds) (s : State) : Host.Outcome State Fault Refusal :=
  executed f o (fun l => delayAccess Config.itramCap State.itram State.setItram o l) s

/-- XDELAY (R238): the long line. -/
def execXdelay (f : IoFlags) (o : Opnds) (s : State) : Host.Outcome State Fault Refusal :=
  executed f o (fun l => delayAccess Config.xtramCap State.xtram State.setXtram o l) s

end Sys2Proof.Machine
end

