-- ==== Sys2Proof/Machine/Logic.lean ====
section
/-! DEFINITION. Logic, selection and crossfade, `44_logic_and_select.md`: ANDXOR, TSTNEG, LIMIT, LIMITN, INTERP. -/

namespace Sys2Proof.Machine

/-- `(int(a) & int(x)) ^ int(y)` on 32-bit patterns, read back signed, as a binary32 (R210). -/
def andXor (l : Sources) : F32 :=
  floatOf ((bits32 (int32 l.a) &&& bits32 (int32 l.x)) ^^^ bits32 (int32 l.y)).toInt

/-- x when a >= y, else x with its sign bit flipped (R211). -/
def testNegate (l : Sources) : F32 := if le32 l.y l.a then l.x else neg32 l.x

/-- x when a >= y, else y (R212). -/
def limitAbove (l : Sources) : F32 := if le32 l.y l.a then l.x else l.y

/-- x when a < y, else y (R213). -/
def limitBelow (l : Sources) : F32 := if lt32 l.a l.y then l.x else l.y

/-- `((1.0 - x) * a) + (x * y)` in binary64, narrowed (R214). -/
def crossfade (l : Sources) : F32 :=
  narrow (add64 (mul64 (sub64 one64 (widen l.x)) (widen l.a)) (mul64 (widen l.x) (widen l.y)))

/-- ANDXOR (R210): `acc` is not written. -/
def execAndxor (f : IoFlags) (o : Opnds) (s : State) : Host.Outcome State Fault Refusal :=
  executed f o (fun l t => t.setValue o.r (andXor l)) s

/-- TSTNEG (R211). -/
def execTstneg (f : IoFlags) (o : Opnds) (s : State) : Host.Outcome State Fault Refusal :=
  executed f o (fun l => storing o.r (testNegate l)) s

/-- LIMIT (R212). -/
def execLimit (f : IoFlags) (o : Opnds) (s : State) : Host.Outcome State Fault Refusal :=
  executed f o (fun l => storing o.r (limitAbove l)) s

/-- LIMITN (R213). -/
def execLimitn (f : IoFlags) (o : Opnds) (s : State) : Host.Outcome State Fault Refusal :=
  executed f o (fun l => storing o.r (limitBelow l)) s

/-- INTERP (R214). -/
def execInterp (f : IoFlags) (o : Opnds) (s : State) : Host.Outcome State Fault Refusal :=
  executed f o (fun l => storing o.r (crossfade l)) s

end Sys2Proof.Machine
end

