-- ==== Sys2Proof/Machine/SaturatingMac.lean ====
section
/-! DEFINITION. The saturating family, `41_saturating_mac.md`: MAC, MACN, MACINT, ACC3. -/

namespace Sys2Proof.Machine

/-- MAC (R170). -/
def execMac (f : IoFlags) (o : Opnds) (s : State) : Host.Outcome State Fault Refusal :=
  executed f o (fun l => saturating o.r (sumProduct l)) s

/-- MACN (R171). -/
def execMacn (f : IoFlags) (o : Opnds) (s : State) : Host.Outcome State Fault Refusal :=
  executed f o (fun l => saturating o.r (diffProduct l)) s

/-- MACINT (R172): no integer truncation, the same values as MAC. -/
def execMacint (f : IoFlags) (o : Opnds) (s : State) : Host.Outcome State Fault Refusal :=
  executed f o (fun l => saturating o.r (sumProduct l)) s

/-- ACC3 (R173). -/
def execAcc3 (f : IoFlags) (o : Opnds) (s : State) : Host.Outcome State Fault Refusal :=
  executed f o (fun l => saturating o.r (sumThree l)) s

end Sys2Proof.Machine
end

