-- ==== Sys2Proof/Machine/Tables.lean ====
section
/-! DEFINITION. The lookup tables and their interpolation (`42_log_exp.md` R180 to R188): LOG and EXP. The entries are
computed, each the binary64 nearest to the real number of the rule (the nominal contents; log 8). -/

namespace Sys2Proof.Machine

/-- The steps of the sample grid over [0, 1] (R180: the grid k/31): one fewer than the raw samples. -/
def gridSteps : Nat := Config.lutRawEntries - 1

/-- The largest m below 2^n plus the start with m^e * `steps` at most `bound`, found bit by bit from the top. -/
def rootSearch (steps e bound : Nat) : Nat → Nat → Nat
  | 0, m => m
  | n + 1, m =>
    if (m + 2 ^ n) ^ e * steps ≤ bound then rootSearch steps e bound n (m + 2 ^ n) else rootSearch steps e bound n m

/-- `raw_log[e][k]` (R180): (k/31)^(1/e) to the nearest. 64 bits of the root and one bit that says whether it is exact
are more than the rounding needs. -/
def rawLog (e k : Nat) : F64 :=
  let bound := k * 2 ^ (64 * e)
  let m := rootSearch gridSteps e bound 65 0
  round64 false (2 * m + (if m ^ e * gridSteps = bound then 0 else 1)) (-65)

/-- `raw_exp[e][k]` (R181): (k/31)^e to the nearest. -/
def rawExp (e k : Nat) : F64 :=
  let p := ratioScaled (k ^ e) (gridSteps ^ e)
  round64 false p.1 p.2

/-- Mirroring (R182): the left half is the raw table reversed and negated, the right half the raw table. -/
def mirrored (raw : Nat → F64) (j : Nat) : F64 :=
  if j < Config.lutRawEntries then neg64 (raw (Config.lutRawEntries - 1 - j)) else raw (j - Config.lutRawEntries)

/-- `LOG_TABLE[e][j]` (R182). -/
def logTable (e j : Nat) : F64 := mirrored (rawLog e) j
/-- `EXP_TABLE[e][j]` (R182). -/
def expTable (e j : Nat) : F64 := mirrored (rawExp e) j

/-- Table selection (R185): `clamp(int(x), 1, 31)`. -/
def tableExponent (x : F32) : Nat := (clamp (int32 x) Config.lutExpMin Config.lutExpMax).toNat

/-- The operand clamped to [-1, 1]; a NaN passes unchanged (R186). -/
def interpOperand (a : F32) : F64 :=
  let u := if lt64 one64 (widen a) then one64 else widen a
  if lt64 u negOne64 then negOne64 else u

/-- Half the intervals of a table, 31.5 (R186): exact in binary64. -/
def halfSpan64 : F64 := round64 false (Config.lutEntries - 1) (-1)

/-- The position on the table, 0.0 to 63.0 (R186). -/
def interpPosition (a : F32) : F64 := mul64 (add64 (interpOperand a) one64) halfSpan64

/-- The left neighbour, 0 to 62 (R186). -/
def interpIndex (a : F32) : Nat := (clamp (int64 (interpPosition a)) 0 (Config.lutEntries - 2 : Nat)).toNat

/-- `Interp(T, a)` (R186). -/
def interpolate (table : Nat → F64) (a : F32) : F64 :=
  let i := interpIndex a
  let frac := sub64 (interpPosition a) (float64Of i)
  add64 (table i) (mul64 frac (sub64 (table (i + 1)) (table i)))

/-- LOG (R187): Y takes no part in the operation. -/
def execLog (f : IoFlags) (o : Opnds) (s : State) : Host.Outcome State Fault Refusal :=
  executed f o (fun l => storing o.r (narrow (interpolate (logTable (tableExponent l.x)) l.a))) s

/-- EXP (R188): Y takes no part in the operation. -/
def execExp (f : IoFlags) (o : Opnds) (s : State) : Host.Outcome State Fault Refusal :=
  executed f o (fun l => storing o.r (narrow (interpolate (expTable (tableExponent l.x)) l.a))) s

end Sys2Proof.Machine
end

