-- ==== Sys2Proof/Machine/WrappingMac.lean ====
section
/-! DEFINITION. The wrapping family and the accumulating move, `43_wrapping_mac_and_macmv.md`: MACW, MACINTW, MACWN, MACMV. -/

namespace Sys2Proof.Machine

/-- MACW (R200). -/
def execMacw (f : IoFlags) (o : Opnds) (s : State) : Host.Outcome State Fault Refusal :=
  executed f o (fun l => storing o.r (narrow (wrap (sumProduct l)))) s

/-- MACINTW (R201): no integer truncation, the same values as MACW. -/
def execMacintw (f : IoFlags) (o : Opnds) (s : State) : Host.Outcome State Fault Refusal :=
  executed f o (fun l => storing o.r (narrow (wrap (sumProduct l)))) s

/-- MACWN (R202; the spec's own semantics, log 10). -/
def execMacwn (f : IoFlags) (o : Opnds) (s : State) : Host.Outcome State Fault Refusal :=
  executed f o (fun l => storing o.r (narrow (wrap (diffProduct l)))) s

/-- MACMV (R203): `acc` accumulates the product, R receives a bit for bit. -/
def execMacmv (f : IoFlags) (o : Opnds) (s : State) : Host.Outcome State Fault Refusal :=
  executed f o (fun l t => (t.setAcc (add64 t.acc (mul64 (widen l.x) (widen l.y)))).setValue o.r l.a) s

end Sys2Proof.Machine
end

