-- ==== Sys2Proof/Machine/Dispatch.lean ====
section
/-! DEFINITION. The dispatch of an executed instruction on its opcode (`30_encoding.md` R90: on the enum, never on strings). -/

namespace Sys2Proof.Machine

def exec (i : Instr) (s : State) : Host.Outcome State Fault Refusal :=
  match i with
  | .mac f o => Sys2Proof.Machine.execMac f o s
  | .macn f o => Sys2Proof.Machine.execMacn f o s
  | .macint f o => Sys2Proof.Machine.execMacint f o s
  | .macintw f o => Sys2Proof.Machine.execMacintw f o s
  | .acc3 f o => Sys2Proof.Machine.execAcc3 f o s
  | .macmv f o => Sys2Proof.Machine.execMacmv f o s
  | .macw f o => Sys2Proof.Machine.execMacw f o s
  | .macwn f o => Sys2Proof.Machine.execMacwn f o s
  | .skip f o => Sys2Proof.Machine.execSkip f o s
  | .andxor f o => Sys2Proof.Machine.execAndxor f o s
  | .tstneg f o => Sys2Proof.Machine.execTstneg f o s
  | .limit f o => Sys2Proof.Machine.execLimit f o s
  | .limitn f o => Sys2Proof.Machine.execLimitn f o s
  | .log f o => Sys2Proof.Machine.execLog f o s
  | .exp f o => Sys2Proof.Machine.execExp f o s
  | .interp f o => Sys2Proof.Machine.execInterp f o s
  | .endPass => Sys2Proof.Machine.execEnd s
  | .idelay f o => Sys2Proof.Machine.execIdelay f o s
  | .xdelay f o => Sys2Proof.Machine.execXdelay f o s

end Sys2Proof.Machine
end

