-- ==== Sys2Proof/Machine/Image.lean ====
section
/-! DEFINITION. Well-formed program images: the checks W1 to W11 of `30_encoding.md` R112, and the unpacking of an image that
is delivered in its transfer form (R100, R102). -/

namespace Sys2Proof

/-- The kinds of an image's register file. -/
def ProgramImage.kinds (img : ProgramImage) : List Kind := img.gpr.map RegRecord.kind

/-- W3 to W6 for one word: it decodes to an instruction that is well-formed against the kinds. -/
def wordWf (kinds : List Kind) (w : InstrWord) : Bool :=
  match decode w with
  | .ok i => i.wf kinds
  | .error _ => false

/-- W7 for one record: the channel of an Input or Output register exists, any other `io` is 0. -/
def recordWf (numChannels : Nat) (r : RegRecord) : Bool :=
  if r.kind = .input ∨ r.kind = .output then decide (r.io < numChannels) else decide (r.io = 0)

/-- W1: the number of instruction words. -/
def ProgramImage.checkLength (img : ProgramImage) : Bool :=
  decide (1 ≤ img.imem.length) && decide (img.imem.length ≤ Config.imemCap)

/-- W2: the number of registers and the four pseudo-registers, by their kinds; their values are not checked (DESIGN CHOICE,
unsafe, log 29). -/
def ProgramImage.checkRegisters (img : ProgramImage) : Bool :=
  decide (4 ≤ img.gpr.length) && decide (img.gpr.length ≤ Config.regCap)
    && decide (img.kinds.take 4 = [.ccr, .read, .write, .atMark])

/-- W3 to W6. -/
def ProgramImage.checkWords (img : ProgramImage) : Bool := img.imem.all (wordWf img.kinds)

/-- W7. -/
def ProgramImage.checkChannels (numChannels : Nat) (img : ProgramImage) : Bool := img.gpr.all (recordWf numChannels)

/-- W8: the last word is END. -/
def ProgramImage.checkFinalEnd (img : ProgramImage) : Bool := decide (img.imem.getLast? = some endWord)

/-- W9: the declared sizes. -/
def ProgramImage.checkSizes (img : ProgramImage) : Bool :=
  decide (1 ≤ img.itramSize) && decide (img.itramSize ≤ Config.itramCap)
    && decide (1 ≤ img.xtramSize) && decide (img.xtramSize ≤ Config.xtramCap)

/-- W11: the names are pairwise different. -/
def ProgramImage.checkNames (img : ProgramImage) : Bool := decide ((img.symbols.map Prod.fst).Nodup)

/-- A well-formed image (R112); W10 is the unpacking of the records (`RawImage.unpack`). -/
def ProgramImage.wf (numChannels : Nat) (img : ProgramImage) : Bool :=
  img.checkLength && img.checkRegisters && img.checkWords && img.checkChannels numChannels && img.checkFinalEnd
    && img.checkSizes && img.checkNames

/-- The records of record words, none where one is ill-formed (R100, R101, W10). -/
def unpackRecords : List RecordWord → Option (List RegRecord)
  | [] => some []
  | w :: ws =>
    match decodeRecord w, unpackRecords ws with
    | some r, some rs => some (r :: rs)
    | _, _ => none

/-- The image of a transferred image; none where a record fails W10. -/
def RawImage.unpack (raw : RawImage) : Option ProgramImage :=
  match unpackRecords raw.records with
  | some gpr => some ⟨gpr, raw.imem, raw.itramSize, raw.xtramSize, raw.ctrlList, raw.symbols⟩
  | none => none

end Sys2Proof

namespace Sys2Proof.Machine

/-- The image the state holds. -/
def State.image (s : State) : ProgramImage :=
  ⟨s.gpr, s.imem, s.itram.size, s.xtram.size, s.ctrlList, s.symbols⟩

/-- Whether the image in the state is well-formed (R112). -/
def State.imageWf (s : State) : Bool := s.image.wf s.numChannels

/-- The delivery of an image (R102, R284): the program-owned state is replaced, all other state is kept (R285). The cursors
are not moved. -/
def State.deliver (s : State) (img : ProgramImage) : State :=
  { s with
    gpr := img.gpr
    imem := img.imem
    itram := { s.itram with size := img.itramSize }
    xtram := { s.xtram with size := img.xtramSize }
    ctrlList := img.ctrlList
    symbols := img.symbols }

/-- A successful load (R284). -/
def State.loadSucceeded (s : State) (img : ProgramImage) : State :=
  { s.deliver img with loadedOk := true, errors := sentinelOnly }

/-- A failed load (R256): the status and the error list are specified, the program-owned state is a free value (U12;
log 11). -/
def State.loadFailed (s : State) (errors : List ErrorRecord) : State :=
  { s.deliver (Config.failedImage s.freeCount) with
    loadedOk := false, errors := errors, freeCount := s.freeCount + 1 }

end Sys2Proof.Machine
end

