-- ==== Sys2Proof/Machine/Loader.lean ====
section
/-! DEFINITION. The loader (`30_encoding.md` R104 to R116, `60_exceptions.md` R253 to R256): from source text and number of
channels to a program image or the list of diagnostics. -/

namespace Sys2Proof.Machine

/-! ### Characters and pieces of a line (R105, R113) -/

/-- White space inside a line (N15: not in the source; log 15). -/
def isBlankChar (c : Char) : Bool := c = ' ' || c = '\t' || c = '\r'

/-- A digit. -/
def isDigitChar (c : Char) : Bool := '0' ≤ c && c ≤ '9'

/-- The first character of an identifier (R113), after lower-casing. -/
def isIdentStart (c : Char) : Bool := ('a' ≤ c && c ≤ 'z') || c = '_'

/-- A later character of an identifier (R113). -/
def isIdentChar (c : Char) : Bool := isIdentStart c || isDigitChar c

/-- The pieces of a text between occurrences of a character; one piece when it does not occur. -/
def splitOnChar (sep : Char) : Text → List Text
  | [] => [[]]
  | c :: cs =>
    match splitOnChar sep cs with
    | [] => [[]]
    | p :: ps => if c = sep then [] :: p :: ps else (c :: p) :: ps

/-- A text without white space at its ends. -/
def trim (t : Text) : Text := ((t.dropWhile isBlankChar).reverse.dropWhile isBlankChar).reverse

/-- A line without its comment, in lower case, without white space at its ends (R105). -/
def normalLine (t : Text) : Text := trim ((t.takeWhile (· ≠ ';')).map Char.toLower)

/-- The first word of a line and the text after the white space that ends it. -/
def firstWord (t : Text) : Text × Text :=
  (t.takeWhile (fun c => !isBlankChar c), (t.dropWhile (fun c => !isBlankChar c)).dropWhile isBlankChar)

/-- `IDENT` (R113). -/
def isIdent : Text → Bool
  | [] => false
  | c :: cs => isIdentStart c && cs.all isIdentChar

/-- `INTEGER` (R113). -/
def isInteger (t : Text) : Bool := !t.isEmpty && t.all isDigitChar

/-- The number that decimal digits write. -/
def digitsValue (t : Text) : Nat := t.foldl (fun n c => 10 * n + (c.toNat - '0'.toNat)) 0

/-! ### Numbers (R97, R113) -/

/-- A decimal number as it is written: (-1)^neg * mant * 10^exp. -/
structure Decimal where
  neg : Bool
  mant : Nat
  exp : Int
deriving DecidableEq, Repr

/-- The optional sign of a number and what follows. -/
def takeSign : Text → Bool × Text
  | '-' :: t => (true, t)
  | '+' :: t => (false, t)
  | t => (false, t)

/-- The optional exponent at the end of a number; none when the rest is something else. -/
def parseExponent : Text → Option Int
  | [] => some 0
  | 'e' :: t =>
    let (neg, ds) := takeSign t
    if isInteger ds then some (if neg then -(digitsValue ds : Int) else digitsValue ds) else none
  | _ => none

/-- The fraction digits after the point, and the rest; no point gives no digits. -/
def takeFraction : Text → Bool × Text × Text
  | '.' :: t => (true, t.takeWhile isDigitChar, t.dropWhile isDigitChar)
  | t => (false, [], t)

/-- `NUMBER` (R113), the whole text. -/
def parseNumber (t : Text) : Option Decimal :=
  let (neg, body) := takeSign t
  let whole := body.takeWhile isDigitChar
  let (_, frac, rest) := takeFraction (body.dropWhile isDigitChar)
  if whole.isEmpty && frac.isEmpty then none
  else match parseExponent rest with
    | none => none
    | some e => some ⟨neg, digitsValue (whole ++ frac), e - frac.length⟩

/-- The binary32 nearest to a decimal number (R97, R106; a negative zero keeps its sign, log 17). Numbers far out of the
range are settled without computing their power of ten. -/
def Decimal.toF32 (d : Decimal) : F32 :=
  if d.mant = 0 then round32 d.neg 0 0
  else if 60 < d.exp then inf32 d.neg
  else if d.exp + (Nat.log2 d.mant : Int) + 1 < -60 then round32 d.neg 0 0
  else if 0 ≤ d.exp then round32 d.neg (d.mant * 10 ^ d.exp.toNat) 0
  else
    let p := ratioScaled d.mant (10 ^ (-d.exp).toNat)
    round32 d.neg p.1 p.2

/-- The channel number a decimal number writes; none when it is negative or not an integer (R106; log 16). -/
def Decimal.channel (d : Decimal) : Option Nat :=
  if d.mant = 0 then some 0
  else if d.neg then none
  else if 0 ≤ d.exp then some (d.mant * 10 ^ d.exp.toNat)
  else if d.mant % 10 ^ (-d.exp).toNat = 0 then some (d.mant / 10 ^ (-d.exp).toNat)
  else none

/-! ### Lines (R105, R106, R109 to R111) -/

/-- The seven kind keywords (R106, R115). -/
def kindKeywords : List (Text × Kind) :=
  [("static".toList, .static), ("temp".toList, .temp), ("control".toList, .control), ("input".toList, .input),
    ("output".toList, .output), ("const".toList, .const), ("noise".toList, .noise)]

/-- The 18 mnemonics of an instruction line (R110) with their opcode numbers (R92). -/
def mnemonics : List (Text × BitVec 5) :=
  [("mac".toList, 0), ("macn".toList, 1), ("macint".toList, 2), ("macintw".toList, 3), ("acc3".toList, 4),
    ("macmv".toList, 5), ("macw".toList, 6), ("macwn".toList, 7), ("skip".toList, 8), ("andxor".toList, 9),
    ("tstneg".toList, 10), ("limit".toList, 11), ("limitn".toList, 12), ("log".toList, 13), ("exp".toList, 14),
    ("interp".toList, 15), ("idelay".toList, 17), ("xdelay".toList, 18)]

/-- What a list of pairs gives for a text. -/
def lookupText {α : Type} : List (Text × α) → Text → Option α
  | [], _ => none
  | p :: ps, t => if p.1 = t then some p.2 else lookupText ps t

/-- The words that may not be declared (R113). -/
def reservedWords : List Text :=
  kindKeywords.map Prod.fst ++ mnemonics.map Prod.fst ++ ["itramsize".toList, "xtramsize".toList, "end".toList]

/-- A classified line (R105). -/
inductive Line where
  | decl (kind : Kind) (name : Text) (number : Option Decimal)
  | blank
  /-- `itramsize` (false) or `xtramsize` (true) -/
  | tramSize (long : Bool) (size : Nat)
  | instruction (op : BitVec 5) (r a x y : Text)
  | terminator
  /-- matches no production -/
  | invalid
deriving DecidableEq, Repr

/-- The optional trailing number of a declaration (R106); the outer none is a mismatch. -/
def parseInitial : Text → Option (Option Decimal)
  | [] => some none
  | c :: t =>
    if c = '=' ∨ c = ',' then
      match parseNumber (trim t) with
      | some d => some (some d)
      | none => none
    else none

/-- Production (a), a register declaration (R106). -/
def parseDecl (t : Text) : Option Line :=
  let (word, rest) := firstWord t
  match lookupText kindKeywords word with
  | none => none
  | some k =>
    let name := rest.takeWhile isIdentChar
    if isIdent name && !reservedWords.contains name then
      match parseInitial ((rest.dropWhile isIdentChar).dropWhile isBlankChar) with
      | some n => some (.decl k name n)
      | none => none
    else none

/-- Production (c), a TRAM-size declaration (R109). -/
def parseTram (t : Text) : Option Line :=
  let (word, rest) := firstWord t
  if isInteger rest then
    if word = "itramsize".toList then some (.tramSize false (digitsValue rest))
    else if word = "xtramsize".toList then some (.tramSize true (digitsValue rest))
    else none
  else none

/-- One operand token: some characters with no white space between them (log 15). Whether it is a name or a number is for
`Loading.resolve` to see (R108). -/
def isOperand (t : Text) : Bool := !t.isEmpty && t.all (fun c => !isBlankChar c)

/-- Production (d), an instruction line (R110). -/
def parseInstruction (t : Text) : Option Line :=
  let (word, rest) := firstWord t
  match lookupText mnemonics word, (splitOnChar ',' rest).map trim with
  | some op, [r, a, x, y] =>
    if isOperand r && isOperand a && isOperand x && isOperand y then some (.instruction op r a x y) else none
  | _, _ => none

/-- The classification of a normalised line: the first production that matches (R105). -/
def classify (t : Text) : Line :=
  match parseDecl t with
  | some l => l
  | none =>
    if t.isEmpty then .blank
    else match parseTram t with
      | some l => l
      | none =>
        match parseInstruction t with
        | some l => l
        | none => if t = "end".toList then .terminator else .invalid

/-! ### Building the image -/

/-- A load in progress: the image so far, the error list, and the last non-blank line (R116). -/
structure Loading where
  img : ProgramImage
  errors : List ErrorRecord
  lastRow : Nat
  lastIsEnd : Bool
deriving DecidableEq, Repr

/-- The start of every load: the pseudo-registers (R23), the default sizes (R103), the sentinel (R253). -/
def Loading.start : Loading where
  img := ⟨pseudoRegisters, [], Config.itramCap, Config.xtramCap, [], pseudoSymbols⟩
  errors := sentinelOnly
  lastRow := 1
  lastIsEnd := false

/-- `raise Diagnostic(kind, row)` (R253). -/
def Loading.raise (l : Loading) (kind : Diagnostic) (row : Nat) : Loading :=
  { l with errors := l.errors ++ [⟨kind, some row⟩] }

/-- A new register under a name, at the next free index (R106, R107). -/
def Loading.addRegister (l : Loading) (name : Text) (r : RegRecord) : Loading :=
  { l with img := { l.img with
      gpr := l.img.gpr ++ [r]
      symbols := l.img.symbols ++ [(name, l.img.gpr.length)] } }

/-- The channel of an Input or Output declaration, none when it is out of range (R106). -/
def declaredChannel (numChannels : Nat) (number : Option Decimal) : Option Nat :=
  match (match number with | none => some 0 | some d => d.channel) with
  | some n => if n < numChannels then some n else none
  | none => none

/-- The initial value of a declared register of a kind other than Input and Output: the trailing number, 0.0 where there is
none (R106, R25). For a `noise` declaration with a number it is a free value of two: R106's number or R266's 0.0 (DESIGN
CHOICE, safe, log 31). -/
def declaredValue (k : Kind) (number : Option Decimal) : F32 :=
  match number with
  | none => zero32
  | some d => if k = .noise ∧ Config.noiseNumberKept = false then zero32 else d.toF32

/-- The effect of a declaration of a name not declared before (R106). -/
def Loading.newRegister (l : Loading) (numChannels row : Nat) (k : Kind) (name : Text) (number : Option Decimal) : Loading :=
  if k = .input ∨ k = .output then
    match declaredChannel numChannels number with
    | some n => l.addRegister name ⟨k, zero32, n⟩
    | none => (l.raise .ioIndexOutOfRange row).addRegister name ⟨k, zero32, 0⟩
  else
    let l' := l.addRegister name ⟨k, declaredValue k number, 0⟩
    if k = .control then { l' with img := { l'.img with ctrlList := l'.img.ctrlList ++ [l.img.gpr.length] } } else l'

/-- The effect of a register declaration (R106): the first declaration of a name wins. -/
def Loading.declare (l : Loading) (numChannels row : Nat) (k : Kind) (name : Text) (number : Option Decimal) : Loading :=
  match lookupText l.img.symbols name with
  | some _ => l.raise .multipleVarDeclare row
  | none => l.newRegister numChannels row k name number

/-- The effect of a TRAM-size declaration (R109). -/
def Loading.tramSize (l : Loading) (row : Nat) (long : Bool) (size : Nat) : Loading :=
  if size = 0 then l.raise .syntaxNotValid row
  else if long then
    if Config.xtramCap < size then l.raise .xtramSizeTooLarge row
    else { l with img := { l.img with xtramSize := size } }
  else
    if Config.itramCap < size then l.raise .itramSizeTooLarge row
    else { l with img := { l.img with itramSize := size } }

/-- `resolve_or_create_numeric` (R108): the index of an operand, VarNotDeclared where there is none. -/
def Loading.resolve (l : Loading) (row : Nat) (token : Text) : Option Nat × Loading :=
  match lookupText l.img.symbols token with
  | some i => (some i, l)
  | none =>
    match parseNumber token with
    | some d => (some l.img.gpr.length, l.addRegister token ⟨.static, d.toF32, 0⟩)
    | none => (none, l.raise .varNotDeclared row)

/-- One more instruction word. -/
def Loading.addWord (l : Loading) (w : InstrWord) : Loading :=
  { l with img := { l.img with imem := l.img.imem ++ [w] } }

/-- The effect of an instruction line (R110): the operands resolved in the order R, A, X, Y, then the check of R, then the
word with the flags of R93. -/
def Loading.instruction (l : Loading) (row : Nat) (op : BitVec 5) (r a x y : Text) : Loading :=
  let (ri, l1) := l.resolve row r
  let (ai, l2) := l1.resolve row a
  let (xi, l3) := l2.resolve row x
  let (yi, l4) := l3.resolve row y
  match ri, ai, xi, yi with
  | some r, some a, some x, some y =>
    if l4.img.kinds[r]? = some .input then l4.raise .inputForRNotAllowed row
    else
      let o : Opnds := ⟨BitVec.ofNat 12 r, BitVec.ofNat 12 a, BitVec.ofNat 12 x, BitVec.ofNat 12 y⟩
      l4.addWord (packWord op (flagsOf l4.img.kinds o) o)
  | _, _, _, _ => l4

/-- The effect of one line at a row (R105). -/
def Loading.line (l : Loading) (numChannels row : Nat) (line : Line) : Loading :=
  match line with
  | .blank => l
  | .decl k name number => { l.declare numChannels row k name number with lastRow := row, lastIsEnd := false }
  | .tramSize long size => { l.tramSize row long size with lastRow := row, lastIsEnd := false }
  | .instruction op r a x y => { l.instruction row op r a x y with lastRow := row, lastIsEnd := false }
  | .terminator => { l.addWord endWord with lastRow := row, lastIsEnd := true }
  | .invalid => { l.raise .syntaxNotValid row with lastRow := row, lastIsEnd := false }

/-- The effect of lines from a row on, in source order (R105, R255). -/
def Loading.lines (numChannels : Nat) : Nat → List Text → Loading → Loading
  | _, [], l => l
  | row, t :: ts, l => Loading.lines numChannels (row + 1) ts (l.line numChannels row (classify (normalLine t)))

/-- NoEndFound (R116, R254). -/
def Loading.finish (l : Loading) : Loading :=
  if l.lastIsEnd then l else l.raise .noEndFound l.lastRow

/-- What a load of a source text comes to. -/
inductive LoadResult where
  | accepted (img : ProgramImage)
  | failed (errors : List ErrorRecord)
  /-- more registers or words than the capacities, or a channel number the record has no room for (U18; log 14) -/
  | overCapacity
deriving DecidableEq, Repr

/-- Whether an image exceeds what the hardware's words can carry (U18, R91, R100; log 14). -/
def ProgramImage.exceeds (img : ProgramImage) : Bool :=
  decide (Config.regCap < img.gpr.length) || decide (Config.imemCap < img.imem.length)
    || img.gpr.any (fun r => decide (Config.ioCap ≤ r.io))

/-- `load_file` on a text (R105, R116, R283): rows count from 1. -/
def assemble (numChannels : Nat) (text : Text) : LoadResult :=
  let l := (Loading.lines numChannels 1 (splitOnChar '\n' text) Loading.start).finish
  if ProgramImage.exceeds l.img then .overCapacity
  else if l.errors = sentinelOnly then .accepted l.img
  else .failed l.errors

/-- The diagnostic numbers (R254). -/
def Diagnostic.code : Diagnostic → Nat
  | .noError => 0
  | .multipleVarDeclare => 1
  | .varNotDeclared => 2
  | .inputForRNotAllowed => 3
  | .ioIndexOutOfRange => 4
  | .itramSizeTooLarge => 5
  | .xtramSizeTooLarge => 6
  | .noEndFound => 7
  | .syntaxNotValid => 8

end Sys2Proof.Machine
end

