-- ==== Sys2Proof/Machine/Tick.lean ====
section
/-! DEFINITION. The tick (`40_execution_cycle.md` R140 to R145, R151): its start, the fetch, the skipped slot, the advance of
the pass position, and its end. -/

namespace Sys2Proof.Machine

/-- An answer to the host. -/
def State.answer (s : State) (r : HostReply) : State := { s with replies := s.replies ++ [r] }

/-- The state at the first slot of a tick (R141): nothing else changes. -/
def State.beginTick (s : State) (samples : List F32) : State :=
  { s with inBuf := samples, pc := 0, skipcnt := 0, ended := false, inTick := true }

/-- The start of a tick (R140, R141), with the refusals of R262 (a), (b), (d). -/
def startTick (samples : List F32) (s : State) : Host.Outcome State Fault Refusal :=
  if !s.loadedOk then .refused .tickNotLoaded
  else if !s.imageWf then .refused .illFormedImage
  else if samples.length ≠ s.numChannels then .refused .wrongSampleCount
  else .next (s.beginTick samples)

/-- The fetch (R145). -/
def State.fetch (s : State) : Option InstrWord := s.imem[s.pc]?

/-- The pass position after a slot (R143): plus one, back to 0 at the end of the list. -/
def nextPc (n pc : Nat) : Nat := if pc + 1 = n then 0 else pc + 1

/-- The advance after a slot that did not end the tick (R143). -/
def State.advance (s : State) : State := s.setPc (nextPc s.imem.length s.pc)

/-- A skipped slot (R144): the counter goes down by one, and nothing else happens but the advance. -/
def State.skipSlot (s : State) : State := (s.setSkip (s.skipcnt - 1)).advance

/-- The end of a tick (R151): `OUT` is the answer. -/
def State.finishTick (s : State) : State := { s.answer (.output s.outBuf) with inTick := false }

/-- What follows an executed instruction (R142): the end of the tick, or the advance. -/
def State.afterExec (s : State) : State := if s.ended then s.finishTick else s.advance

/-- What follows the outcome of an executed instruction. -/
def settle : Host.Outcome State Fault Refusal → Host.Outcome State Fault Refusal
  | .next s => .next s.afterExec
  | .fault r => .fault r
  | .refused r => .refused r

/-- A register file with room for the operands of an instruction: Static records of value +0.0 are added where it is too
short (for `State.withFetchWord` only; log 4). -/
def roomFor (gpr : List RegRecord) (o : Opnds) : List RegRecord :=
  gpr ++ List.replicate (max (max o.r.toNat o.a.toNat) (max o.x.toNat o.y.toNat) + 1 - gpr.length) absentRecord

/-- The state in the first slot of a tick over the program of one word and END (for `State.withFetchWord`; log 4). -/
def State.loadedWith (s : State) (w : InstrWord) : State :=
  { s with
    gpr := roomFor s.gpr (fieldOpnds w), imem := [w, endWord], loadedOk := true
    pc := 0, skipcnt := 0, ended := false, inTick := true }

end Sys2Proof.Machine
end

