-- ==== Sys2Proof/Machine/HostPort.lean ====
section
/-! DEFINITION. The host's transactions (`20_memory.md` R73 to R78, `70_reset_and_hazards.md` R280 to R287), performed one at a
time while no tick is in progress (R74). -/

namespace Sys2Proof.Machine

/-- `GPR[i].value <- v` through the host port (R75): any kind. -/
def State.hostWrite (s : State) (i : Nat) (v : F32) : State := { s with gpr := writeValue s.gpr i v }

/-- The index of a name, the first match (R77); the name is taken in lower case (R104). -/
def State.indexOf (s : State) (name : Text) : Option Nat := lookupText s.symbols (name.map Char.toLower)

/-- The name of an index, if the image carries one (R78). -/
def nameOf : List (Text × Nat) → Nat → Option Text
  | [], _ => none
  | p :: ps, i => if p.2 = i then some p.1 else nameOf ps i

/-- `HostWrite(i, v)` (R75), refused at or above `REG_COUNT` (R262 (e)). -/
def portWrite (i : Nat) (v : F32) (s : State) : Host.Outcome State Fault Refusal :=
  if i < s.gpr.length then .next ((s.hostWrite i v).answer .written) else .refused .hostIndexOutOfRange

/-- `HostRead(i)` (R76), refused at or above `REG_COUNT` (R262 (e)). -/
def portRead (i : Nat) (s : State) : Host.Outcome State Fault Refusal :=
  match s.gpr[i]? with
  | some r => .next (s.answer (.value r.value))
  | none => .refused .hostIndexOutOfRange

/-- Construction (R280): every piece of state takes its reset value; what the host still has to do and has been told is
not the hardware's and stays (log 21). -/
def construct (n : Nat) (s : State) : Host.Outcome State Fault Refusal :=
  if n = 0 then .refused .noChannels
  else .next ({ State.construct n with
    hostQueue := s.hostQueue, replies := s.replies, freeCount := s.freeCount }.answer .constructed)

/-- `load_file` (R283, R284, R256). -/
def loadText (text : Text) (s : State) : Host.Outcome State Fault Refusal :=
  match assemble s.numChannels text with
  | .accepted img => .next ((s.loadSucceeded img).answer .loaded)
  | .failed errors => .next ((s.loadFailed errors).answer (.loadFailed errors))
  | .overCapacity => .refused .imageOverCapacity

/-- The delivery of an image by other means (R112): it must pass every check (R96: refused at load). Its records are taken
as they are, the values of the four pseudo-registers too (R23 gives them 0.0 at every load, W2 asks for their kinds only;
DESIGN CHOICE, unsafe, log 29). -/
def loadImage (raw : RawImage) (s : State) : Host.Outcome State Fault Refusal :=
  match raw.unpack with
  | some img =>
    if img.wf s.numChannels then .next ((s.loadSucceeded img).answer .loaded) else .refused .illFormedImage
  | none => .refused .illFormedImage

/-- One transaction of the host. -/
def perform (c : HostCmd) (s : State) : Host.Outcome State Fault Refusal :=
  match c with
  | .reset n => construct n s
  | .loadText text => loadText text s
  | .loadImage raw => loadImage raw s
  | .tick samples => startTick samples s
  | .write i v => portWrite i v s
  | .read i => portRead i s
  | .setByName name v =>
    match s.indexOf name with
    | some i => portWrite i v s
    | none => .next (s.answer .notFound)
  | .getByName name =>
    match s.indexOf name with
    | some i => portRead i s
    | none => .next (s.answer .notFound)
  | .getCounter => .next (s.answer (.counter s.icount))
  | .getControls => .next (s.answer (.controls (s.ctrlList.map (nameOf s.symbols))))
  | .getErrors => .next (s.answer (.errorList s.errors))

/-- The state with the first pending transaction taken off. -/
def State.dequeue (s : State) : State := { s with hostQueue := s.hostQueue.tail }

/-- A step while no tick is in progress: the next pending transaction, or nothing when none is pending (R268: the block is
idle and keeps all state). -/
def hostStep (s : State) : Host.Outcome State Fault Refusal :=
  match s.hostQueue with
  | [] => .next s
  | c :: _ => perform c s.dequeue

end Sys2Proof.Machine
end

