-- ==== Sys2Proof/Machine/Step.lean ====
section
/-! DEFINITION. The step: one instruction slot of the tick in progress (`40_execution_cycle.md` R142), else one transaction of
the host (`20_memory.md` R74). -/

namespace Sys2Proof.Machine

/-- One step. In a tick: fetch, then the skipped slot or the decoded instruction (R142 to R145). -/
def step (s : State) : Host.Outcome State Fault Refusal :=
  if s.inTick then
    match s.fetch with
    | none => .refused .pcOutOfRange
    | some w =>
      if s.skipcnt ≠ 0 then .next s.skipSlot
      else match decode w with
        | .error _ => .refused .illFormedWord
        | .ok i => settle (exec i s)
  else hostStep s

/-- The state whose next step fetches and runs the instruction with the bits `w` (log 4): a tick in its first slot over the
program of that word and END, with registers enough for its operands. -/
def State.withFetchWord (s : State) (nbits w : Nat) : State := s.loadedWith (BitVec.ofNat 64 (w % 2 ^ nbits))

end Sys2Proof.Machine
end

