-- ==== Sys2Proof/Safety.lean ====
section
/-! DEFINITION. What a state must keep (`10_state.md` R34 to R40, `30_encoding.md` R112, `40_execution_cycle.md` R145) and what a
run without a stop is, in the terms the statements use. -/

namespace Sys2Proof.Machine

/-- A delay line of a capacity: canonical elements inside it, and both cursors inside it (R36). -/
def DelayLine.wf (cap : Nat) (l : DelayLine) : Prop :=
  l.buf.wf ∧ (∀ c ∈ l.buf, c.1 < cap) ∧ l.wcur < cap ∧ l.rcur < cap

/-- The invariant: one buffer element per channel, delay lines in form, an accepted program well-formed, and in a tick an
accepted program with the pass position inside it and the pass not ended. -/
structure State.Inv (s : State) : Prop where
  channels : 1 ≤ s.numChannels
  inBuf : s.inBuf.length = s.numChannels
  outBuf : s.outBuf.length = s.numChannels
  itram : s.itram.wf Config.itramCap
  xtram : s.xtram.wf Config.xtramCap
  image : s.loadedOk = true → s.imageWf = true
  tick : s.inTick = true → s.loadedOk = true ∧ s.pc < s.imem.length ∧ s.ended = false

/-- The operands and channels that an instruction needs exist (W4, W7): it executes. -/
def State.Ready (s : State) (f : IoFlags) (o : Opnds) : Prop :=
  s.operandsExist o = true ∧ s.channelsExist f o = true

/-- The value a source register has after the injections (R146, R147): an Input register's input sample when `has_input`
is set, a Noise register's noise sample when `has_noise` is set, else its own value. -/
def injectedValue (s : State) (f : IoFlags) (r : RegRecord) : F32 :=
  if f.hi ∧ r.kind = .input then s.inBuf.getD r.io zero32
  else if f.hn ∧ r.kind = .noise then noiseStream s.noisePos
  else r.value

/-- The source values of an instruction (R148). -/
def sourcesOf (s : State) (f : IoFlags) (o : Opnds) : Sources :=
  ⟨injectedValue s f (s.reg o.a), injectedValue s f (s.reg o.x), injectedValue s f (s.reg o.y)⟩

/-- The register file after the injections: the registers at the positions A, X and Y, and no other (R146, R147). -/
def injectedRegs (s : State) (f : IoFlags) (o : Opnds) : List RegRecord :=
  s.gpr.mapIdx fun i r =>
    if i = o.a.toNat ∨ i = o.x.toNat ∨ i = o.y.toNat then { r with value := injectedValue s f r } else r

/-- The noise position after an instruction: one sample for it if `has_noise` is set (R147). -/
def noiseAfter (s : State) (f : IoFlags) : Nat := if f.hn then s.noisePos + 1 else s.noisePos

/-- The output buffer after an instruction that leaves `v` in R (R150). -/
def publishedOut (s : State) (f : IoFlags) (o : Opnds) (v : F32) : List F32 :=
  if f.ho then s.outBuf.set (s.reg o.r).io v else s.outBuf

/-- The value of R after the injections of an instruction that does not write R. -/
def keptDest (s : State) (f : IoFlags) (o : Opnds) : F32 :=
  ((injectedRegs s f o).getD o.r.toNat absentRecord).value

/-- The state after an executed instruction that writes no register, accumulator, flag or delay line: injections, count and
publication only (R70, R146, R147, R149, R150). -/
def commonSteps (s : State) (f : IoFlags) (o : Opnds) : State :=
  { s with
    gpr := injectedRegs s f o
    noisePos := noiseAfter s f
    icount := s.icount + 1
    outBuf := publishedOut s f o (keptDest s f o) }

/-- The state after an executed instruction whose only register write is `v` to R: the common steps with that write. -/
def wroteDest (s : State) (f : IoFlags) (o : Opnds) (v : F32) : State :=
  { s with
    gpr := writeValue (injectedRegs s f o) o.r.toNat v
    noisePos := noiseAfter s f
    icount := s.icount + 1
    outBuf := publishedOut s f o v }

/-! ### What a bit pattern stands for, read from IEEE 754 and not from `unpack` (R8) -/

/-- A pattern's bits without its sign. -/
def Format.magnitude (F : Format) (w : Nat) : Nat := w % F.signBit

/-- The magnitude of a finite pattern, in units of the least subnormal number: the fraction alone when the exponent field is
0, else the fraction with its leading bit, doubled for each exponent above 1 (R159 (a): subnormal numbers count). -/
def Format.units (F : Format) (mag : Nat) : Nat :=
  if mag / 2 ^ F.fracBits = 0 then mag
  else (2 ^ F.fracBits + mag % 2 ^ F.fracBits) * 2 ^ (mag / 2 ^ F.fracBits - 1)

/-- How many least subnormal numbers make 1: 2^149 in binary32, 2^1074 in binary64. -/
def Format.perOne (F : Format) : Nat := 2 ^ (2 ^ (F.expBits - 1) - 2 + F.fracBits)

/-- Where rounding to nearest gives infinity, half a last place above the greatest finite number: 2^128 - 2^103 in binary32,
2^1024 - 2^970 in binary64. -/
def Format.overflow (F : Format) : ℚ :=
  2 ^ (2 ^ (F.expBits - 1)) - 2 ^ (2 ^ (F.expBits - 1) - F.fracBits - 2)

/-- A pattern with the sign bit. -/
def Format.isNeg (F : Format) (w : Nat) : Bool := decide (F.signBit ≤ w)

/-- A pattern is a finite number. -/
def Format.finite (F : Format) (w : Nat) : Bool := decide (F.magnitude w < F.infBits)

/-- The number of a finite pattern. -/
def Format.value (F : Format) (w : Nat) : ℚ :=
  (if F.isNeg w then -1 else 1) * ((F.units (F.magnitude w) : ℚ) / F.perOne)

/-- `w` is the pattern of a number rounded once, to nearest, ties to even, with infinity from the overflow bound on, and its
sign is the number's (R8). An even pattern has the last bit 0. -/
def Format.Rounded (F : Format) (x : ℚ) (w : Nat) : Prop :=
  (x < 0 → F.isNeg w = true) ∧ (0 < x → F.isNeg w = false) ∧
  (|x| < F.overflow → F.finite w = true ∧
    ∀ u : Nat, F.finite u = true →
      |F.value w - x| ≤ |F.value u - x| ∧
      (|F.value u - x| = |F.value w - x| → F.value u ≠ F.value w → w % 2 = 0)) ∧
  (F.overflow ≤ |x| → F.magnitude w = F.infBits)

/-- The number of a finite binary32 datum. -/
def value32 (v : F32) : ℚ := b32.value v.toNat
/-- The number of a finite binary64 datum. -/
def value64 (v : F64) : ℚ := b64.value v.toNat
/-- A binary32 datum is a finite number. -/
def finite32 (v : F32) : Bool := b32.finite v.toNat
/-- A binary64 datum is a finite number. -/
def finite64 (v : F64) : Bool := b64.finite v.toNat
/-- A binary64 datum is an infinity. -/
def infinite64 (v : F64) : Bool := decide (b64.magnitude v.toNat = b64.infBits)

/-- The bits of the flags and operand indices in a word: `flags | R<<36 | A<<24 | X<<12 | Y` (R98). -/
def fieldBits (f : IoFlags) (o : Opnds) : InstrWord :=
  (BitVec.ofBool f.hi).setWidth 64 <<< 58 ||| (BitVec.ofBool f.ho).setWidth 64 <<< 57
    ||| (BitVec.ofBool f.hn).setWidth 64 <<< 56 ||| o.r.setWidth 64 <<< 36 ||| o.a.setWidth 64 <<< 24
    ||| o.x.setWidth 64 <<< 12 ||| o.y.setWidth 64

/-- The register an instruction writes, if any (R24): R, or A for a delay read. -/
def destination (i : Instr) (s : State) : Option RegIdx :=
  match i with
  | .mac _ o | .macn _ o | .macint _ o | .macintw _ o | .acc3 _ o | .macmv _ o | .macw _ o | .macwn _ o
  | .andxor _ o | .tstneg _ o | .limit _ o | .limitn _ o | .log _ o | .exp _ o | .interp _ o => some o.r
  | .skip _ _ | .endPass => none
  | .idelay _ o | .xdelay _ o => if (s.reg o.r).kind = .read then some o.a else none

/-- Whether an instruction writes the accumulator (R26). -/
def writesAcc (i : Instr) (s : State) : Bool :=
  match i with
  | .mac _ _ | .macn _ _ | .macint _ _ | .macintw _ _ | .acc3 _ _ | .macmv _ _ | .macw _ _ | .macwn _ _
  | .tstneg _ _ | .limit _ _ | .limitn _ _ | .log _ _ | .exp _ _ | .interp _ _ => true
  | .andxor _ _ | .skip _ _ | .endPass => false
  | .idelay _ o | .xdelay _ o => decide ((s.reg o.r).kind = .read)

/-- The four saturating instructions, which alone write the condition code (R27). -/
def saturates (i : Instr) : Bool :=
  match i with
  | .mac _ _ | .macn _ _ | .macint _ _ | .acc3 _ _ => true
  | .macintw _ _ | .macmv _ _ | .macw _ _ | .macwn _ _ | .skip _ _ | .andxor _ _ | .tstneg _ _ | .limit _ _
  | .limitn _ _ | .log _ _ | .exp _ _ | .interp _ _ | .endPass | .idelay _ _ | .xdelay _ _ => false

/-- What a line returns when every tick writes one sample at offset 0 and then reads at offset `d` (R235). -/
def writeThenRead (cap d : Nat) : List F32 → DelayLine → List F32
  | [], _ => []
  | v :: vs, l =>
    delaySample cap (delayWrite cap l v 0) d :: writeThenRead cap d vs (delayReadAdvance (delayWrite cap l v 0))

/-- The instruction a word carries is a SKIP. -/
def isSkip (w : InstrWord) : Bool :=
  match decode w with
  | .ok (.skip _ _) => true
  | _ => false

end Sys2Proof.Machine
end

