-- ==== Sys2Proof/Certificates/Slice0/Obligations.lean ====
section
/-! DEFINITION. The statements for the provers. Each docstring names the rule of the spec it formalises; where a statement
rests on a choice (a log entry, or a decision of the spec) the docstring says so. -/

section SliceZeroStatements
open Sys2Proof Sys2Proof.Machine

/-! ### Encoding -/

/-- Decoding an encoded instruction gives it back: every instruction, every flag, every index (R98). -/
def Obligations.DecodeOfEncode : Prop :=
  ∀ i : Instr, decode (encode i) = .ok i

/-- R98 (decision D5): the fields the decoder reads, when a word is invalid, and the encoder's formula. -/
def Obligations.DecoderReadsLayout : Prop :=
  ∀ w : InstrWord,
    ((∃ e, decode w = .error e) ↔
      18 < (w.extractLsb' 59 5).toNat ∨ w.extractLsb' 48 8 ≠ 0
        ∨ ((w.extractLsb' 59 5).toNat = 16 ∧ w ≠ 0x8000000000000000#64)) ∧
    ∀ i, decode w = .ok i →
      i.opcode = w.extractLsb' 59 5 ∧
      i.flags = ⟨w.getLsbD 58, w.getLsbD 57, w.getLsbD 56⟩ ∧
      i.opnds = ⟨w.extractLsb' 36 12, w.extractLsb' 24 12, w.extractLsb' 12 12, w.extractLsb' 0 12⟩ ∧
      encode i = w ∧
      w = i.opcode.setWidth 64 <<< 59 ||| fieldBits i.flags i.opnds

/-- Words of the spec's own examples decode to the instructions they stand for (R117, R171, R220, R237, R95, R96). -/
def Obligations.SpecWordsDecode : Prop :=
  decode 0x0000004004005006#64 = .ok (.mac ⟨false, false, false⟩ ⟨4, 4, 5, 6⟩) ∧
  decode 0x0F00005004006007#64 = .ok (.macn ⟨true, true, true⟩ ⟨5, 4, 6, 7⟩) ∧
  decode 0x4000000000007008#64 = .ok (.skip ⟨false, false, false⟩ ⟨0, 0, 7, 8⟩) ∧
  decode 0x8800002004003006#64 = .ok (.idelay ⟨false, false, false⟩ ⟨2, 4, 3, 6⟩) ∧
  decode 0x8000000000000000#64 = .ok .endPass ∧
  decode 0x9800000000000000#64 = .error .illegalOpcode ∧
  decode 0x0001000000000000#64 = .error .reservedBits ∧
  decode 0x8000000000000001#64 = .error .endFields

/-- The register record (R100, R101; decision D6): its layout, its round trip, and which words carry none. -/
def Obligations.RecordEncoding : Prop :=
  (∀ r : RegRecord, r.io < 65536 →
    (encodeRecord r).toNat = r.kind.code.toNat * 2 ^ 60 + r.io * 2 ^ 32 + r.value.toNat ∧
    decodeRecord (encodeRecord r) = some r) ∧
  (∀ w : RecordWord,
    decodeRecord w = none ↔ 10 < (w.extractLsb' 60 4).toNat ∨ w.extractLsb' 48 12 ≠ 0) ∧
  [Kind.static, .temp, .control, .input, .output, .const, .noise, .read, .write, .atMark, .ccr].map
    (fun k => k.code.toNat) = List.range 11

/-! ### What each instruction does -/

/-- R170: MAC, whole next state. (The formats are decision D2 of the spec, the saturated code D10.) -/
def Obligations.MacResult : Prop :=
  ∀ (f : IoFlags) (o : Opnds),
    decode (0x0000000000000000#64 ||| fieldBits f o) = .ok (.mac f o) ∧
    ∀ s : State, s.Ready f o →
      let l := sourcesOf s f o
      let t := add64 (widen l.a) (mul64 (widen l.x) (widen l.y))
      let v := narrow (sat t)
      exec (.mac f o) s = .next { wroteDest s f o v with acc := t, cc := ccOf v }

/-- R171: MACN, whole next state. -/
def Obligations.MacnResult : Prop :=
  ∀ (f : IoFlags) (o : Opnds),
    decode (0x0800000000000000#64 ||| fieldBits f o) = .ok (.macn f o) ∧
    ∀ s : State, s.Ready f o →
      let l := sourcesOf s f o
      let t := sub64 (widen l.a) (mul64 (widen l.x) (widen l.y))
      let v := narrow (sat t)
      exec (.macn f o) s = .next { wroteDest s f o v with acc := t, cc := ccOf v }

/-- R172: MACINT, whole next state: the values of MAC, no truncation. -/
def Obligations.MacintResult : Prop :=
  ∀ (f : IoFlags) (o : Opnds),
    decode (0x1000000000000000#64 ||| fieldBits f o) = .ok (.macint f o) ∧
    ∀ s : State, s.Ready f o →
      let l := sourcesOf s f o
      let t := add64 (widen l.a) (mul64 (widen l.x) (widen l.y))
      let v := narrow (sat t)
      exec (.macint f o) s = .next { wroteDest s f o v with acc := t, cc := ccOf v }

/-- R173: ACC3, whole next state, the sums left to right (decision D35). -/
def Obligations.Acc3Result : Prop :=
  ∀ (f : IoFlags) (o : Opnds),
    decode (0x2000000000000000#64 ||| fieldBits f o) = .ok (.acc3 f o) ∧
    ∀ s : State, s.Ready f o →
      let l := sourcesOf s f o
      let t := add64 (add64 (widen l.a) (widen l.x)) (widen l.y)
      let v := narrow (sat t)
      exec (.acc3 f o) s = .next { wroteDest s f o v with acc := t, cc := ccOf v }

/-- R200: MACW, whole next state; `cc` stays. -/
def Obligations.MacwResult : Prop :=
  ∀ (f : IoFlags) (o : Opnds),
    decode (0x3000000000000000#64 ||| fieldBits f o) = .ok (.macw f o) ∧
    ∀ s : State, s.Ready f o →
      let l := sourcesOf s f o
      let v := narrow (wrap (add64 (widen l.a) (mul64 (widen l.x) (widen l.y))))
      exec (.macw f o) s = .next { wroteDest s f o v with acc := widen v }

/-- R201: MACINTW, whole next state: the values of MACW. -/
def Obligations.MacintwResult : Prop :=
  ∀ (f : IoFlags) (o : Opnds),
    decode (0x1800000000000000#64 ||| fieldBits f o) = .ok (.macintw f o) ∧
    ∀ s : State, s.Ready f o →
      let l := sourcesOf s f o
      let v := narrow (wrap (add64 (widen l.a) (mul64 (widen l.x) (widen l.y))))
      exec (.macintw f o) s = .next { wroteDest s f o v with acc := widen v }

/-- R202: MACWN, whole next state. The source gives MACWN no meaning; this one is the spec's decision D16 (log 10). -/
def Obligations.MacwnResult : Prop :=
  ∀ (f : IoFlags) (o : Opnds),
    decode (0x3800000000000000#64 ||| fieldBits f o) = .ok (.macwn f o) ∧
    ∀ s : State, s.Ready f o →
      let l := sourcesOf s f o
      let v := narrow (wrap (sub64 (widen l.a) (mul64 (widen l.x) (widen l.y))))
      exec (.macwn f o) s = .next { wroteDest s f o v with acc := widen v }

/-- R203: MACMV, whole next state: `acc` accumulates the product, R receives a bit for bit. -/
def Obligations.MacmvResult : Prop :=
  ∀ (f : IoFlags) (o : Opnds),
    decode (0x2800000000000000#64 ||| fieldBits f o) = .ok (.macmv f o) ∧
    ∀ s : State, s.Ready f o →
      let l := sourcesOf s f o
      exec (.macmv f o) s =
        .next { wroteDest s f o l.a with acc := add64 s.acc (mul64 (widen l.x) (widen l.y)) }

/-- R210: ANDXOR, whole next state; `acc` and `cc` stay. The integer conversion outside 32 bits is R10's (decision D4;
log 9). -/
def Obligations.AndxorResult : Prop :=
  ∀ (f : IoFlags) (o : Opnds),
    decode (0x4800000000000000#64 ||| fieldBits f o) = .ok (.andxor f o) ∧
    ∀ s : State, s.Ready f o →
      let l := sourcesOf s f o
      let n : BitVec 32 := (BitVec.ofInt 32 (int32 l.a) &&& BitVec.ofInt 32 (int32 l.x)) ^^^ BitVec.ofInt 32 (int32 l.y)
      exec (.andxor f o) s = .next (wroteDest s f o (floatOf n.toInt))

/-- R211: TSTNEG, whole next state; the negation flips the sign bit, of a NaN too (the rule says so; R159 leaves it open, log 28:
DEDUCED). -/
def Obligations.TstnegResult : Prop :=
  ∀ (f : IoFlags) (o : Opnds),
    decode (0x5000000000000000#64 ||| fieldBits f o) = .ok (.tstneg f o) ∧
    ∀ s : State, s.Ready f o →
      let l := sourcesOf s f o
      let v := if le32 l.y l.a then l.x else l.x ^^^ 0x80000000#32
      exec (.tstneg f o) s = .next { wroteDest s f o v with acc := widen v }

/-- R212: LIMIT, whole next state. -/
def Obligations.LimitResult : Prop :=
  ∀ (f : IoFlags) (o : Opnds),
    decode (0x5800000000000000#64 ||| fieldBits f o) = .ok (.limit f o) ∧
    ∀ s : State, s.Ready f o →
      let l := sourcesOf s f o
      let v := if le32 l.y l.a then l.x else l.y
      exec (.limit f o) s = .next { wroteDest s f o v with acc := widen v }

/-- R213: LIMITN, whole next state. -/
def Obligations.LimitnResult : Prop :=
  ∀ (f : IoFlags) (o : Opnds),
    decode (0x6000000000000000#64 ||| fieldBits f o) = .ok (.limitn f o) ∧
    ∀ s : State, s.Ready f o →
      let l := sourcesOf s f o
      let v := if lt32 l.a l.y then l.x else l.y
      exec (.limitn f o) s = .next { wroteDest s f o v with acc := widen v }

/-- R214: INTERP, whole next state, the operations in the rule's order (decision D36). -/
def Obligations.InterpResult : Prop :=
  ∀ (f : IoFlags) (o : Opnds),
    decode (0x7800000000000000#64 ||| fieldBits f o) = .ok (.interp f o) ∧
    ∀ s : State, s.Ready f o →
      let l := sourcesOf s f o
      let v := narrow (add64 (mul64 (sub64 one64 (widen l.x)) (widen l.a)) (mul64 (widen l.x) (widen l.y)))
      exec (.interp f o) s = .next { wroteDest s f o v with acc := widen v }

/-- R187 with R185 and R186: LOG, whole next state. The table entries are the nominal ones of R180 and R182 (decisions D12
to D14; log 8). -/
def Obligations.LogResult : Prop :=
  ∀ (f : IoFlags) (o : Opnds),
    decode (0x6800000000000000#64 ||| fieldBits f o) = .ok (.log f o) ∧
    ∀ s : State, s.Ready f o →
      let l := sourcesOf s f o
      let e := (clamp (int32 l.x) 1 31).toNat
      let u := if lt64 one64 (widen l.a) then one64 else if lt64 (widen l.a) negOne64 then negOne64 else widen l.a
      let p := mul64 (add64 u one64) 0x403F800000000000#64
      let i := (clamp (int64 p) 0 62).toNat
      let v := narrow (add64 (logTable e i)
        (mul64 (sub64 p (float64Of i)) (sub64 (logTable e (i + 1)) (logTable e i))))
      exec (.log f o) s = .next { wroteDest s f o v with acc := widen v }

/-- R188 with R185 and R186: EXP, whole next state. The table entries are the nominal ones of R181 and R182 (decisions D12
to D14; log 8). -/
def Obligations.ExpResult : Prop :=
  ∀ (f : IoFlags) (o : Opnds),
    decode (0x7000000000000000#64 ||| fieldBits f o) = .ok (.exp f o) ∧
    ∀ s : State, s.Ready f o →
      let l := sourcesOf s f o
      let e := (clamp (int32 l.x) 1 31).toNat
      let u := if lt64 one64 (widen l.a) then one64 else if lt64 (widen l.a) negOne64 then negOne64 else widen l.a
      let p := mul64 (add64 u one64) 0x403F800000000000#64
      let i := (clamp (int64 p) 0 62).toNat
      let v := narrow (add64 (expTable e i)
        (mul64 (sub64 p (float64Of i)) (sub64 (expTable e (i + 1)) (expTable e i))))
      exec (.exp f o) s = .next { wroteDest s f o v with acc := widen v }

/-- R220: SKIP, whole next state: the count is taken when the whole integer equals the whole condition code; no register,
`acc` or `cc` is written by the operation. The numbers of the codes are the nominal ones of R6 (decision D8; log 7). -/
def Obligations.SkipResult : Prop :=
  ∀ (f : IoFlags) (o : Opnds),
    decode (0x4000000000000000#64 ||| fieldBits f o) = .ok (.skip f o) ∧
    ∀ s : State, s.Ready f o →
      let l := sourcesOf s f o
      let code : Int := match s.cc with | .zero => 0 | .nonzero => 1 | .pos => 2 | .neg => 4 | .sat => 16
      exec (.skip f o) s =
        .next { commonSteps s f o with skipcnt := if int32 l.x = code then int32 l.y else s.skipcnt }

/-- R223: END counts and ends the pass, in every state, and has one word (R95). -/
def Obligations.EndResult : Prop :=
  decode 0x8000000000000000#64 = .ok .endPass ∧
  ∀ s : State, exec .endPass s = .next { s with icount := s.icount + 1, ended := true }

/-- R237 with R230 to R232 and R236: IDELAY, whole next state for each of the three uses of R, and the one element a write
stores to. The conversion of the offset outside 32 bits is R10's (decisions D4, D24; log 9). -/
def Obligations.IdelayResult : Prop :=
  ∀ (f : IoFlags) (o : Opnds),
    decode (0x8800000000000000#64 ||| fieldBits f o) = .ok (.idelay f o) ∧
    ∀ s : State, s.Ready f o →
      let l := sourcesOf s f o
      let off := (clamp (int32 l.y) 0 (s.itram.size - 1 : Int)).toNat
      ((s.reg o.r).kind = .read →
        let v := s.itram.buf.read ((((s.itram.rcur : Int) - off) % 4800).toNat)
        let regs := writeValue (injectedRegs s f o) o.a.toNat v
        exec (.idelay f o) s =
          .next { commonSteps s f o with
            gpr := regs
            acc := widen v
            itram := { s.itram with rcur := (s.itram.rcur + 1) % s.itram.size }
            outBuf := publishedOut s f o (regs.getD o.r.toNat absentRecord).value }) ∧
      ((s.reg o.r).kind = .write → ∃ t : State,
        exec (.idelay f o) s = .next t ∧
        t = { commonSteps s f o with itram := { s.itram with buf := t.itram.buf, wcur := t.itram.wcur } } ∧
        t.itram.wcur = (s.itram.wcur + 1) % s.itram.size ∧
        (∀ k, k ≠ (s.itram.wcur + off) % 4800 → t.itram.buf.read k = s.itram.buf.read k) ∧
        (s.itram.buf.wf → t.itram.buf.wf ∧ t.itram.buf.read ((s.itram.wcur + off) % 4800) = l.a)) ∧
      ((s.reg o.r).kind ≠ .read → (s.reg o.r).kind ≠ .write →
        exec (.idelay f o) s = .next (commonSteps s f o))

/-- R238 with R230 to R232 and R236: XDELAY, the same on the long line (decisions D4, D24; log 9). -/
def Obligations.XdelayResult : Prop :=
  ∀ (f : IoFlags) (o : Opnds),
    decode (0x9000000000000000#64 ||| fieldBits f o) = .ok (.xdelay f o) ∧
    ∀ s : State, s.Ready f o →
      let l := sourcesOf s f o
      let off := (clamp (int32 l.y) 0 (s.xtram.size - 1 : Int)).toNat
      ((s.reg o.r).kind = .read →
        let v := s.xtram.buf.read ((((s.xtram.rcur : Int) - off) % 48000).toNat)
        let regs := writeValue (injectedRegs s f o) o.a.toNat v
        exec (.xdelay f o) s =
          .next { commonSteps s f o with
            gpr := regs
            acc := widen v
            xtram := { s.xtram with rcur := (s.xtram.rcur + 1) % s.xtram.size }
            outBuf := publishedOut s f o (regs.getD o.r.toNat absentRecord).value }) ∧
      ((s.reg o.r).kind = .write → ∃ t : State,
        exec (.xdelay f o) s = .next t ∧
        t = { commonSteps s f o with xtram := { s.xtram with buf := t.xtram.buf, wcur := t.xtram.wcur } } ∧
        t.xtram.wcur = (s.xtram.wcur + 1) % s.xtram.size ∧
        (∀ k, k ≠ (s.xtram.wcur + off) % 48000 → t.xtram.buf.read k = s.xtram.buf.read k) ∧
        (s.xtram.buf.wf → t.xtram.buf.wf ∧ t.xtram.buf.read ((s.xtram.wcur + off) % 48000) = l.a)) ∧
      ((s.reg o.r).kind ≠ .read → (s.reg o.r).kind ≠ .write →
        exec (.xdelay f o) s = .next (commonSteps s f o))

/-- When an instruction other than END does not complete: exactly on an operand index that names no register, or a channel
that does not exist (the model's refusals for R67 and R262 (a); log 12). -/
def Obligations.InstructionStops : Prop :=
  ∀ (i : Instr) (s : State), i ≠ .endPass →
    (exec i s = .refused .operandIndexOutOfRange ↔ s.operandsExist i.opnds = false) ∧
    (exec i s = .refused .channelOutOfRange ↔
      s.operandsExist i.opnds = true ∧ s.channelsExist i.flags i.opnds = false) ∧
    ((∃ t, exec i s = .next t) ↔ s.Ready i.flags i.opnds)

/-! ### What instructions leave alone -/

/-- R24, R146, R147: a register that is not the instruction's destination changes only by injection: at positions A, X, Y,
an Input register to its channel's sample, a Noise register to the instruction's noise sample, which lies in [-1, 1) (R38;
the samples are free values, log 6). Kinds and channels never change (R21). -/
def Obligations.RegisterFrame : Prop :=
  ∀ (i : Instr) (s t : State), exec i s = .next t →
    t.gpr.length = s.gpr.length ∧
    (∀ j : Nat, (t.gpr[j]?).map (fun r => (r.kind, r.io)) = (s.gpr[j]?).map (fun r => (r.kind, r.io))) ∧
    (∀ (j : Nat) (r : RegRecord), s.gpr[j]? = some r → (destination i s).map BitVec.toNat ≠ some j →
      t.gpr[j]? = some
        (if (j = i.opnds.a.toNat ∨ j = i.opnds.x.toNat ∨ j = i.opnds.y.toNat) ∧ i.flags.hi ∧ r.kind = .input then
          { r with value := s.inBuf.getD r.io 0#32 }
        else if (j = i.opnds.a.toNat ∨ j = i.opnds.x.toNat ∨ j = i.opnds.y.toNat) ∧ i.flags.hn ∧ r.kind = .noise then
          { r with value := noiseStream s.noisePos }
        else r)) ∧
    t.noisePos = s.noisePos + (if i.flags.hn then 1 else 0) ∧
    le32 0xBF800000#32 (noiseStream s.noisePos) = true ∧ lt32 (noiseStream s.noisePos) 0x3F800000#32 = true

/-- R21, R33, R39, R41, R72: a step inside a tick changes no program-owned state, no input sample, nothing of the host's;
an answer is given only by the step that ends the tick. -/
def Obligations.TickKeepsProgram : Prop :=
  ∀ s t : State, s.inTick = true → step s = .next t →
    t.numChannels = s.numChannels ∧ t.imem = s.imem ∧
    t.gpr.map (fun r => (r.kind, r.io)) = s.gpr.map (fun r => (r.kind, r.io)) ∧
    t.itram.size = s.itram.size ∧ t.xtram.size = s.xtram.size ∧ t.inBuf = s.inBuf ∧
    t.ctrlList = s.ctrlList ∧ t.symbols = s.symbols ∧ t.loadedOk = s.loadedOk ∧ t.errors = s.errors ∧
    t.hostQueue = s.hostQueue ∧ t.freeCount = s.freeCount ∧
    t.replies = (if t.inTick then s.replies else s.replies ++ [.output t.outBuf])

/-- R26: which instructions write `acc`, and that MACMV alone reads it: every other instruction's next state does not depend
on `acc`, but for an `acc` that it keeps. -/
def Obligations.AccumulatorReadByMacmvOnly : Prop :=
  ∀ (i : Instr) (s t : State), exec i s = .next t →
    (writesAcc i s = false → t.acc = s.acc) ∧
    ((∀ f o, i ≠ .macmv f o) → ∀ v : F64,
      exec i { s with acc := v } = .next { t with acc := if writesAcc i s then t.acc else v })

/-- R27, R295: the four saturating instructions alone write `cc`, and SKIP alone reads it. -/
def Obligations.ConditionCodeReadBySkipOnly : Prop :=
  ∀ (i : Instr) (s t : State), exec i s = .next t →
    (saturates i = false → t.cc = s.cc) ∧
    ((∀ f o, i ≠ .skip f o) → ∀ c : CondCode,
      exec i { s with cc := c } = .next { t with cc := if saturates i then t.cc else c })

/-- R149 (decision D26): every executed instruction counts, END included, modulo 2^64; a skipped one does not. -/
def Obligations.ExecutedInstructionsCount : Prop :=
  (∀ (i : Instr) (s t : State), exec i s = .next t → t.icount.toNat = (s.icount.toNat + 1) % 2 ^ 64) ∧
  (∀ s t : State, s.inTick = true → s.skipcnt ≠ 0 → step s = .next t → t.icount = s.icount)

/-- R150: the output buffer changes only by the publication of the value R has after the operation. -/
def Obligations.OnlyDestinationPublishes : Prop :=
  ∀ (i : Instr) (s t : State), exec i s = .next t →
    t.outBuf = if i.flags.ho then s.outBuf.set (s.reg i.opnds.r).io (t.value i.opnds.r) else s.outBuf

/-! ### Numbers -/

/-- R153, on bit patterns: the code of every binary32 (decisions D8 to D10): zeros of both signs, NaNs, magnitudes from 1.0
on, and below. -/
def Obligations.ConditionCodeOfPattern : Prop :=
  ∀ r : F32,
    let m := r.toNat % 2 ^ 31
    ccOf r = if m = 0 then .zero
      else if 0x7F800000 < m then .nonzero
      else if 0x3F800000 ≤ m then .sat
      else if 2 ^ 31 ≤ r.toNat then .neg
      else .pos

/-- R154 (decision D15): the fold of `wrap`, where it lands, and what it does to NaNs and infinities. -/
def Obligations.WrapFolds : Prop :=
  (∀ v : F64,
    (le64 one64 v = true → wrap v = sub64 v two64) ∧
    (lt64 v negOne64 = true → wrap v = add64 v two64) ∧
    (le64 one64 v = false → lt64 v negOne64 = false → wrap v = v) ∧
    ((le64 one64 v = true ∧ lt64 v 0x4008000000000000#64 = true)
        ∨ (le64 0xC008000000000000#64 v = true ∧ lt64 v negOne64 = true) →
      le64 negOne64 (wrap v) = true ∧ lt64 (wrap v) one64 = true) ∧
    (le64 0x4008000000000000#64 v = true → le64 one64 (wrap v) = true) ∧
    (lt64 v 0xC008000000000000#64 = true → lt64 (wrap v) negOne64 = true) ∧
    (isNan64 v = true → wrap v = v)) ∧
  wrap 0x7FF0000000000000#64 = 0x7FF0000000000000#64 ∧ wrap 0xFFF0000000000000#64 = 0xFFF0000000000000#64

/-- R8, R155, R159 (decisions D2, D3): widening is exact; narrowing gives the nearest binary32, ties to even, an infinity from
the overflow bound on, and keeps the sign; NaNs stay NaNs and infinities infinities both ways; narrowing a widened datum gives
it back, bit for bit. Which NaN is a free value (log 5). -/
def Obligations.NarrowOfWiden : Prop :=
  (∀ v : F32, isNan32 v = false → narrow (widen v) = v ∧ isNan64 (widen v) = false) ∧
  (∀ v : F32, isNan32 v = true → isNan64 (widen v) = true) ∧
  (∀ v : F64, isNan64 v = true → isNan32 (narrow v) = true) ∧
  (∀ v : F32, finite32 v = true →
    finite64 (widen v) = true ∧ value64 (widen v) = value32 v ∧ (widen v).msb = v.msb) ∧
  (∀ v : F64, finite64 v = true → b32.Rounded (value64 v) (narrow v).toNat ∧ (narrow v).msb = v.msb) ∧
  widen 0x7F800000#32 = 0x7FF0000000000000#64 ∧ widen 0xFF800000#32 = 0xFFF0000000000000#64 ∧
  narrow 0x7FF0000000000000#64 = 0x7F800000#32 ∧ narrow 0xFFF0000000000000#64 = 0xFF800000#32

/-- R8, R9, R159 (a), (b), (c) (decisions D2, D3): which data are NaNs; addition, subtraction and multiplication of binary64
data are the exact result rounded once, to nearest, ties to even, with the signs of exact zeros; what they do with infinities
and NaNs. R170: the product of two widened data is exact. The comparisons of finite data are those of their numbers, false with
a NaN, with the infinities outside all numbers; those of binary32 data are those of the widened data. Which NaN is a free
value (log 5). -/
def Obligations.ArithmeticRoundsOnce : Prop :=
  (∀ v : F64, isNan64 v = true ↔ b64.infBits < b64.magnitude v.toNat) ∧
  (∀ v : F32, isNan32 v = true ↔ b32.infBits < b32.magnitude v.toNat) ∧
  (∀ a b : F64, finite64 a = true → finite64 b = true →
    b64.Rounded (value64 a + value64 b) (add64 a b).toNat ∧
    b64.Rounded (value64 a - value64 b) (sub64 a b).toNat ∧
    b64.Rounded (value64 a * value64 b) (mul64 a b).toNat ∧
    (value64 a + value64 b = 0 → (add64 a b).msb = (a.msb && b.msb)) ∧
    (value64 a - value64 b = 0 → (sub64 a b).msb = (a.msb && !b.msb)) ∧
    (mul64 a b).msb = (a.msb ^^ b.msb)) ∧
  (∀ x y : F32, finite32 x = true → finite32 y = true →
    finite64 (mul64 (widen x) (widen y)) = true ∧ value64 (mul64 (widen x) (widen y)) = value32 x * value32 y) ∧
  (∀ a b : F64, infinite64 a = true → finite64 b = true →
    add64 a b = a ∧ add64 b a = a ∧ sub64 a b = a ∧ sub64 b a = a ^^^ 0x8000000000000000#64) ∧
  (∀ a b : F64, infinite64 a = true → infinite64 b = true →
    (a = b → add64 a b = a ∧ isNan64 (sub64 a b) = true) ∧
    (a ≠ b → isNan64 (add64 a b) = true ∧ sub64 a b = a)) ∧
  (∀ a b : F64, infinite64 a = true → isNan64 b = false →
    (b64.magnitude b.toNat = 0 → isNan64 (mul64 a b) = true ∧ isNan64 (mul64 b a) = true) ∧
    (b64.magnitude b.toNat ≠ 0 →
      let w := if a.msb ^^ b.msb then 0xFFF0000000000000#64 else 0x7FF0000000000000#64
      mul64 a b = w ∧ mul64 b a = w)) ∧
  (∀ a b : F64, isNan64 a = true ∨ isNan64 b = true →
    isNan64 (add64 a b) = true ∧ isNan64 (sub64 a b) = true ∧ isNan64 (mul64 a b) = true ∧
    lt64 a b = false ∧ le64 a b = false) ∧
  (∀ a b : F64, finite64 a = true → finite64 b = true →
    (lt64 a b = true ↔ value64 a < value64 b) ∧ (le64 a b = true ↔ value64 a ≤ value64 b)) ∧
  (∀ a b : F64, infinite64 a = true → finite64 b = true →
    lt64 a b = a.msb ∧ le64 a b = a.msb ∧ lt64 b a = !a.msb ∧ le64 b a = !a.msb) ∧
  (∀ a b : F64, infinite64 a = true → infinite64 b = true →
    lt64 a b = (a.msb && !b.msb) ∧ le64 a b = (a.msb || !b.msb)) ∧
  (∀ a b : F32, lt32 a b = lt64 (widen a) (widen b) ∧ le32 a b = le64 (widen a) (widen b) ∧
    eq32 a b = (le32 a b && le32 b a))

/-- R152, R155, R157: what a saturating instruction leaves in R, by the unsaturated sum in `acc`: the sum narrowed when it lies
from -1.0 to 1.0 or is a NaN, 1.0 above, -1.0 below; so R holds a NaN exactly when the sum is one, and else a value from -1.0
to 1.0. -/
def Obligations.SaturatedResultInRange : Prop :=
  ∀ (i : Instr) (s t : State), saturates i = true → exec i s = .next t →
    let v := t.value i.opnds.r
    (le64 negOne64 t.acc = true → le64 t.acc one64 = true → v = narrow t.acc) ∧
    (lt64 one64 t.acc = true → v = one32) ∧
    (lt64 t.acc negOne64 = true → v = negOne32) ∧
    (isNan64 t.acc = true → v = narrow t.acc) ∧
    (isNan32 v = true ↔ isNan64 t.acc = true) ∧
    (isNan32 v = false → le32 negOne32 v = true ∧ le32 v one32 = true)

/-- R10, R303, R11: `int` of a finite datum of either format is its number truncated toward zero, kept in the signed 32-bit
range at both ends; 0 for a NaN, the end of their sign for the infinities (the values out of range are decision D4; log 9);
so 0 for every magnitude below 1. `float` of a 32-bit integer is the nearest binary32, ties to even. R9, R186: the binary64 of
an integer below 2^53 in magnitude, such as the table position that is subtracted in an interpolation, is that integer. -/
def Obligations.IntegerConversion : Prop :=
  (∀ v : F32,
    (-2147483648 ≤ int32 v ∧ int32 v ≤ 2147483647) ∧
    (isNan32 v = true → int32 v = 0) ∧
    (lt32 negOne32 v = true → lt32 v one32 = true → int32 v = 0) ∧
    (0x7F800000 ≤ v.toNat % 2 ^ 31 → isNan32 v = false →
      int32 v = if 2 ^ 31 ≤ v.toNat then -2147483648 else 2147483647) ∧
    (finite32 v = true →
      int32 v = if value32 v < 0 then max ⌈value32 v⌉ (-2147483648) else min ⌊value32 v⌋ 2147483647)) ∧
  (∀ v : F64,
    (isNan64 v = true → int64 v = 0) ∧
    (infinite64 v = true → int64 v = if v.msb then -2147483648 else 2147483647) ∧
    (finite64 v = true →
      int64 v = if value64 v < 0 then max ⌈value64 v⌉ (-2147483648) else min ⌊value64 v⌋ 2147483647)) ∧
  (∀ n : BitVec 32, b32.Rounded (n.toInt : ℚ) (floatOf n.toInt).toNat ∧ (floatOf n.toInt).msb = n.msb) ∧
  (∀ n : Int, n.natAbs < 2 ^ 53 → finite64 (float64Of n) = true ∧ value64 (float64Of n) = n)

/-- R67, R185, R186, R230 (decisions D13, D14, D24): every index formed from data is inside its space: the table exponent,
the left neighbour, the delay offset, and the elements a delay line reads and writes. -/
def Obligations.DynamicIndicesInRange : Prop :=
  (∀ x : F32, 1 ≤ tableExponent x ∧ tableExponent x ≤ 31) ∧
  (∀ a : F32, interpIndex a + 1 < 64) ∧
  (∀ (n : Nat) (y : F32), 1 ≤ n →
    delayOffset n y < n ∧ (isNan32 y = true → delayOffset n y = 0) ∧ (int32 y < 0 → delayOffset n y = 0) ∧
    ((n : Int) ≤ int32 y → delayOffset n y = n - 1) ∧
    (0 ≤ int32 y → int32 y < n → (delayOffset n y : Int) = int32 y)) ∧
  (∀ (cap off : Nat) (l : DelayLine), 1 ≤ cap → writeAddress cap l off < cap ∧ readAddress cap l off < cap)

/-- R182, R183 for the nominal tables (log 8): the right half of a table is its raw table, of LOG the roots and of EXP the
powers; end points, the two zeros, odd symmetry (so the left half is the right one mirrored and negated), order, bounds; the
common table of exponent 1, which is k/31 up to half a unit of binary64's last place below 1 (to the nearest, by
`Obligations.RawSamplesAreNearest`); and what LOG's root does with a growing exponent and EXP's power with it. -/
def Obligations.TableProperties : Prop :=
  (∀ e : Nat, 1 ≤ e → e ≤ 31 →
    (∀ k : Nat, k < 32 → logTable e (32 + k) = rawLog e k ∧ expTable e (32 + k) = rawExp e k) ∧
    (∀ T : Nat → F64, T = logTable e ∨ T = expTable e →
      T 0 = 0xBFF0000000000000#64 ∧ T 63 = 0x3FF0000000000000#64 ∧
      T 31 = 0x8000000000000000#64 ∧ T 32 = 0x0000000000000000#64 ∧
      (∀ j : Nat, j < 64 → T (63 - j) = T j ^^^ 0x8000000000000000#64) ∧
      (∀ j : Nat, j < 63 → le64 (T j) (T (j + 1)) = true) ∧
      (∀ j : Nat, j < 64 → le64 negOne64 (T j) = true ∧ le64 (T j) one64 = true)) ∧
    (∀ k : Nat, 0 < k → k < 31 → e < 31 →
      lt64 (rawLog e k) (rawLog (e + 1) k) = true ∧ lt64 (rawExp (e + 1) k) (rawExp e k) = true)) ∧
  (∀ j : Nat, j < 64 → logTable 1 j = expTable 1 j) ∧
  (∀ k : Nat, k < 32 → |value64 (logTable 1 (32 + k)) - (k : ℚ) / 31| ≤ 1 / 2 ^ 54)

/-- R180, R181 (decision D12; log 8): every raw sample is a binary64 m * 2^(-q) within half a unit of its last place of the
real number of the rule: of (k/31)^(1/e) for LOG, of (k/31)^e for EXP. The bounds are raised to whole numbers. -/
def Obligations.RawSamplesAreNearest : Prop :=
  ∀ e k : Nat, 1 ≤ e → e ≤ 31 → 1 ≤ k → k ≤ 31 →
    (∃ m q : Nat, num64 (rawLog e k) = .fin false m (-(q : Int)) ∧ 2 ^ 52 ≤ m ∧
      (2 * m - 1) ^ e * 31 ≤ k * 2 ^ (e * (q + 1)) ∧ k * 2 ^ (e * (q + 1)) ≤ (2 * m + 1) ^ e * 31) ∧
    (∃ m q : Nat, num64 (rawExp e k) = .fin false m (-(q : Int)) ∧ 2 ^ 52 ≤ m ∧
      (2 * m - 1) * 31 ^ e ≤ k ^ e * 2 ^ (q + 1) ∧ k ^ e * 2 ^ (q + 1) ≤ (2 * m + 1) * 31 ^ e)

/-! ### The tick -/

/-- R142, R143, R151: in a tick with `skipcnt` 0, the step at a word that decodes to an instruction is that instruction;
then the tick ends with `OUT` as its answer if the pass is ended, and else the pass position advances, back to 0 after the
last word. -/
def Obligations.StepRunsDecodedInstruction : Prop :=
  ∀ (s : State) (w : InstrWord) (i : Instr),
    s.inTick = true → s.skipcnt = 0 → s.imem[s.pc]? = some w → decode w = .ok i →
      (∀ t, exec i s = .next t →
        step s = .next (if t.ended
          then { t with replies := t.replies ++ [.output t.outBuf], inTick := false }
          else { t with pc := if t.pc + 1 = t.imem.length then 0 else t.pc + 1 })) ∧
      (∀ r, exec i s = .refused r → step s = .refused r)

/-- R144 with R143: a skipped slot lowers `skipcnt` by one and advances, and does nothing else, whatever its word is. -/
def Obligations.SkippedSlotDoesNothingElse : Prop :=
  ∀ (s : State) (w : InstrWord), s.inTick = true → s.skipcnt ≠ 0 → s.imem[s.pc]? = some w →
    step s = .next { s with
      skipcnt := s.skipcnt - 1, pc := if s.pc + 1 = s.imem.length then 0 else s.pc + 1 }

/-- R141: the start of a tick sets `IN`, `pc`, `skipcnt` and `ended`, and nothing else of the hardware's state. (The mark of
a tick in progress and the host's queue are the model's own, log 3.) -/
def Obligations.TickStart : Prop :=
  ∀ (s : State) (samples : List F32) (rest : List HostCmd),
    s.inTick = false → s.hostQueue = .tick samples :: rest →
    s.loadedOk = true → s.imageWf = true → samples.length = s.numChannels →
      step s = .next { s with
        inBuf := samples, pc := 0, skipcnt := 0, ended := false, inTick := true, hostQueue := rest }

/-- R262 (a), (b), (d), (e) with R96: which transactions the model refuses (logs 13, 21); a reset with no channel (R6; log 22),
a text that needs more registers or words than the capacities or a channel number the record has no room for, exactly then
(U18; log 14), and a call by a name whose index is at or above `REG_COUNT` (log 29). -/
def Obligations.RefusedTransactions : Prop :=
  ∀ (s : State) (rest : List HostCmd), s.inTick = false →
    (∀ samples, s.hostQueue = .tick samples :: rest →
      (s.loadedOk = false → step s = .refused .tickNotLoaded) ∧
      (s.loadedOk = true → s.imageWf = false → step s = .refused .illFormedImage) ∧
      (s.loadedOk = true → s.imageWf = true → samples.length ≠ s.numChannels → step s = .refused .wrongSampleCount)) ∧
    (∀ i v, s.hostQueue = .write i v :: rest → s.gpr.length ≤ i → step s = .refused .hostIndexOutOfRange) ∧
    (∀ i, s.hostQueue = .read i :: rest → s.gpr.length ≤ i → step s = .refused .hostIndexOutOfRange) ∧
    (∀ raw, s.hostQueue = .loadImage raw :: rest →
      (∀ img, raw.unpack = some img → img.wf s.numChannels = false) → step s = .refused .illFormedImage) ∧
    (s.hostQueue = .reset 0 :: rest → step s = .refused .noChannels) ∧
    (∀ text, s.hostQueue = .loadText text :: rest →
      let img := (Loading.lines s.numChannels 1 (splitOnChar '\n' text) Loading.start).finish.img
      (step s = .refused .imageOverCapacity ↔
        4096 < img.gpr.length ∨ 4096 < img.imem.length ∨ ∃ r ∈ img.gpr, 65536 ≤ r.io)) ∧
    (∀ (name : Text) (i : Nat), lookupText s.symbols (name.map Char.toLower) = some i → s.gpr.length ≤ i →
      (∀ v, s.hostQueue = .setByName name v :: rest → step s = .refused .hostIndexOutOfRange) ∧
      (s.hostQueue = .getByName name :: rest → step s = .refused .hostIndexOutOfRange))

/-- R142, R158, R305: with an invariant state in a tick, nothing being skipped and no SKIP in the program, the tick ends
within the slots from the pass position to the end of the list, and answers `OUT`. -/
def Obligations.TickWithoutSkipEnds : Prop :=
  ∀ s : State, s.Inv → s.inTick = true → s.skipcnt = 0 → (∀ w ∈ s.imem, isSkip w = false) →
    ∃ (k : Nat) (t : State), 1 ≤ k ∧ k ≤ s.imem.length - s.pc ∧
      Sys2Proof.core.run k s = .next t ∧ t.inTick = false ∧ t.replies = s.replies ++ [.output t.outBuf]

/-- R221, R222, R259, R144, R143 (decision D21): while `skipcnt` is not below the number of slots to come, or is negative, k
slots are passed over, around the end of the list too, and change nothing but the counter and the pass position. With a
negative counter that is every k: the tick never ends and nothing executes. That clause for every k rests on the model's
choice of an unbounded `skipcnt` (R31 allows it; log 19, DESIGN CHOICE, unsafe); a 32-bit counter would wrap around. -/
def Obligations.SkippingPassesOverSlots : Prop :=
  ∀ (k : Nat) (s : State), s.inTick = true → s.pc < s.imem.length → (k : Int) ≤ s.skipcnt ∨ s.skipcnt < 0 →
    Sys2Proof.core.run k s = .next { s with skipcnt := s.skipcnt - k, pc := (s.pc + k) % s.imem.length }

/-! ### The host -/

/-- R75: a host write sets the value of one register of any kind and nothing else. -/
def Obligations.HostWriteSetsValue : Prop :=
  ∀ (s : State) (i : Nat) (v : F32) (r : RegRecord) (rest : List HostCmd),
    s.inTick = false → s.hostQueue = .write i v :: rest → s.gpr[i]? = some r →
      step s = .next { s with
        gpr := s.gpr.set i { r with value := v }, hostQueue := rest, replies := s.replies ++ [.written] }

/-- R76, R78, R65 (e), R268: reads by the host answer and change nothing; with nothing to do the block is idle and keeps all
state. -/
def Obligations.HostReadsChangeNothing : Prop :=
  ∀ (s : State) (rest : List HostCmd), s.inTick = false →
    (∀ i r, s.hostQueue = .read i :: rest → s.gpr[i]? = some r →
      step s = .next { s with hostQueue := rest, replies := s.replies ++ [.value r.value] }) ∧
    (s.hostQueue = .getCounter :: rest →
      step s = .next { s with hostQueue := rest, replies := s.replies ++ [.counter s.icount] }) ∧
    (s.hostQueue = .getControls :: rest →
      step s = .next { s with hostQueue := rest, replies := s.replies ++ [.controls (s.ctrlList.map (nameOf s.symbols))] }) ∧
    (s.hostQueue = .getErrors :: rest →
      step s = .next { s with hostQueue := rest, replies := s.replies ++ [.errorList s.errors] }) ∧
    (s.hostQueue = [] → step s = .next s)

/-- R77 (decision D28): the calls by name are the port's after a lookup of the lower-case name; an unknown name is not found
and changes nothing. -/
def Obligations.NamedHostCalls : Prop :=
  ∀ (s : State) (name : Text) (v : F32) (rest : List HostCmd), s.inTick = false →
    (∀ i r, lookupText s.symbols (name.map Char.toLower) = some i → s.gpr[i]? = some r →
      (s.hostQueue = .setByName name v :: rest →
        step s = .next { s with
          gpr := s.gpr.set i { r with value := v }, hostQueue := rest, replies := s.replies ++ [.written] }) ∧
      (s.hostQueue = .getByName name :: rest →
        step s = .next { s with hostQueue := rest, replies := s.replies ++ [.value r.value] })) ∧
    (lookupText s.symbols (name.map Char.toLower) = none →
      s.hostQueue = .setByName name v :: rest ∨ s.hostQueue = .getByName name :: rest →
        step s = .next { s with hostQueue := rest, replies := s.replies ++ [.notFound] })

/-! ### Loading -/

/-- R284, R285 (decision D27): a successful load of a source text replaces the program-owned state by the loader's image and
keeps everything else; no cursor moves. A load of an image delivered by other means does the same with that image; that its
records are stored as they are, the values of the four pseudo-registers too (R23 gives them 0.0 at every load), and that its
control list and symbol table are taken unchecked is the model's choice, not the rules' (log 29, DESIGN CHOICE, unsafe). -/
def Obligations.LoadKeepsRunState : Prop :=
  ∀ (s : State) (img : ProgramImage) (rest : List HostCmd), s.inTick = false →
    (∃ text, s.hostQueue = .loadText text :: rest ∧ assemble s.numChannels text = .accepted img) ∨
      (∃ raw, s.hostQueue = .loadImage raw :: rest ∧ raw.unpack = some img ∧ img.wf s.numChannels = true) →
    step s = .next { s with
      gpr := img.gpr
      imem := img.imem
      itram := { s.itram with size := img.itramSize }
      xtram := { s.xtram with size := img.xtramSize }
      ctrlList := img.ctrlList
      symbols := img.symbols
      loadedOk := true
      errors := [⟨.noError, none⟩]
      hostQueue := rest
      replies := s.replies ++ [.loaded] }

/-- R256, R47 (decisions D27, D30): a failed load leaves `loaded_ok` false and the whole error list, keeps what every load
keeps, and a tick after it is refused. What it leaves in the program-owned state is a free value (log 11) and not stated. -/
def Obligations.FailedLoadRefusesTick : Prop :=
  ∀ (s : State) (text : Text) (errors : List ErrorRecord) (rest : List HostCmd),
    s.inTick = false → s.hostQueue = .loadText text :: rest → assemble s.numChannels text = .failed errors →
      ∃ t : State, step s = .next t ∧ t.loadedOk = false ∧ t.errors = errors ∧
        t.acc = s.acc ∧ t.cc = s.cc ∧ t.noisePos = s.noisePos ∧ t.icount = s.icount ∧ t.outBuf = s.outBuf ∧
        t.itram.buf = s.itram.buf ∧ t.itram.wcur = s.itram.wcur ∧ t.itram.rcur = s.itram.rcur ∧
        t.xtram.buf = s.xtram.buf ∧ t.xtram.wcur = s.xtram.wcur ∧ t.xtram.rcur = s.xtram.rcur ∧
        t.replies = s.replies ++ [.loadFailed errors] ∧
        ∀ samples more, step { t with hostQueue := .tick samples :: more } = .refused .tickNotLoaded

/-- R112, R100: the loader's diagnostics guarantee the checks W1 to W11 for every image it accepts (W10: every record has a
transfer word; that its channel fits the 16 bits of R100 rests on the model's refusal of greater channel numbers, log 14).
What R112 asks of images delivered by other means is in `Obligations.RefusedTransactions` and
`Obligations.LoadKeepsRunState`. -/
def Obligations.AcceptedImageIsWellFormed : Prop :=
  ∀ (n : Nat) (text : Text) (img : ProgramImage), assemble n text = .accepted img →
    img.wf n = true ∧ ∀ r ∈ img.gpr, decodeRecord (encodeRecord r) = some r

/-- R253, R255 (decision D39): the error list of a failed load is the sentinel and then at least one diagnostic, ordered by
row, rows counted from 1. -/
def Obligations.DiagnosticsInRowOrder : Prop :=
  ∀ (n : Nat) (text : Text) (errors : List ErrorRecord), assemble n text = .failed errors →
    ∃ ds : List ErrorRecord, errors = ⟨.noError, none⟩ :: ds ∧ ds ≠ [] ∧
      (∀ d ∈ ds, d.kind ≠ .noError ∧ ∃ row, d.row = some row ∧ 1 ≤ row) ∧
      ds.Pairwise (fun a b => a.row.getD 0 ≤ b.row.getD 0)

/-! ### Reset -/

/-- R43, R281, R280 (decision D32): the value every piece of state has after reset, for every number of channels; that
`State.reset` is such a state; and that the reset transaction gives it (what the host has queued and been told is not the
hardware's and stays, log 21). The number of channels of `State.reset` is the model's choice (log 1) and not stated; nor is
any value of the model's own fields (log 3). -/
def Obligations.ResetValues : Prop :=
  (∀ n : Nat,
    let s := State.construct n
    s.numChannels = n ∧
    s.gpr = [⟨.ccr, 0#32, 0⟩, ⟨.read, 0#32, 0⟩, ⟨.write, 0#32, 0⟩, ⟨.atMark, 0#32, 0⟩] ∧
    s.imem = [] ∧ s.acc = 0#64 ∧ s.cc = .zero ∧ s.cc.code = 0 ∧ s.icount = 0#64 ∧ s.noisePos = 0 ∧
    (∀ k, s.itram.buf.read k = 0#32 ∧ s.xtram.buf.read k = 0#32) ∧
    s.itram.wcur = 0 ∧ s.itram.rcur = 0 ∧ s.xtram.wcur = 0 ∧ s.xtram.rcur = 0 ∧
    s.itram.size = 4800 ∧ s.xtram.size = 48000 ∧
    s.inBuf = List.replicate n 0#32 ∧ s.outBuf = List.replicate n 0#32 ∧
    s.ctrlList = [] ∧ s.errors = [⟨.noError, none⟩] ∧ s.loadedOk = false) ∧
  (∃ n, 1 ≤ n ∧ State.reset = State.construct n) ∧
  (∀ (s : State) (n : Nat) (rest : List HostCmd), s.inTick = false → s.hostQueue = .reset n :: rest → 1 ≤ n →
    step s = .next { State.construct n with
      hostQueue := rest, replies := s.replies ++ [.constructed], freeCount := s.freeCount })

/-! ### The invariant -/

/-- The state after reset has the invariant, for every number of channels of 1 or more. -/
def Obligations.ResetHasInvariant : Prop :=
  State.reset.Inv ∧ ∀ n : Nat, 1 ≤ n → (State.construct n).Inv

/-- Every step keeps the invariant: one buffer element per channel, canonical delay memories with cursors inside the
capacity (R36), a well-formed image whenever `loaded_ok` (R112, R42), and in a tick `0 <= pc < N` (R145). -/
def Obligations.StepKeepsInvariant : Prop :=
  ∀ s t : State, s.Inv → step s = .next t → t.Inv

/-- R250, R258, R145: from a state with the invariant, in a tick, a step always has a next state: no instruction faults, and
no word, index or channel is refused. -/
def Obligations.TickStepNeverStops : Prop :=
  ∀ s : State, s.Inv → s.inTick = true → ∃ t, step s = .next t

/-! ### Delay lines -/

/-- R231: a delay write stores one element, at (wcur + off) mod capacity, and advances the write cursor modulo the declared
size; the read cursor and every other element stay. -/
def Obligations.DelayWriteStoresOneElement : Prop :=
  ∀ (cap off : Nat) (l : DelayLine) (v : F32), l.buf.wf →
    let l' := delayWrite cap l v off
    l'.buf.wf ∧ l'.buf.read ((l.wcur + off) % cap) = v ∧
    (∀ k, k ≠ (l.wcur + off) % cap → l'.buf.read k = l.buf.read k) ∧
    l'.wcur = (l.wcur + 1) % l.size ∧ l'.rcur = l.rcur ∧ l'.size = l.size

/-- R232: a delay read returns the element at (rcur - off) mod capacity, near the top of the buffer when rcur < off, and
advances the read cursor modulo the declared size; nothing else changes. -/
def Obligations.DelayReadReturnsElement : Prop :=
  ∀ (cap off : Nat) (l : DelayLine), l.rcur < cap → off < cap →
    delaySample cap l off = l.buf.read (if off ≤ l.rcur then l.rcur - off else cap + l.rcur - off) ∧
    (delayReadAdvance l).rcur = (l.rcur + 1) % l.size ∧ (delayReadAdvance l).wcur = l.wcur ∧
    (delayReadAdvance l).buf = l.buf ∧ (delayReadAdvance l).size = l.size

/-- R234 (a): with the declared size equal to the capacity and both cursors equal, a line written once at offset 0 and then
read at offset d in every tick returns, from tick d on, the sample written d ticks earlier. -/
def Obligations.FullLineDelays : Prop :=
  ∀ (cap d : Nat) (l : DelayLine) (vs : List F32),
    l.wf cap → l.size = cap → l.wcur = l.rcur → d < cap →
      ∀ k, d ≤ k → k < vs.length → (writeThenRead cap d vs l)[k]? = vs[k - d]?

/-- R234 (b), (c), R235, R298: with a declared size n and a capacity of at least 2n - 1, from an empty line with both
cursors 0, the read of tick k returns the sample written d ticks earlier when d is at most k mod n, and +0.0 for ever
otherwise. -/
def Obligations.ShortLineDelays : Prop :=
  ∀ (cap n d : Nat) (vs : List F32), d < n → 2 * n - 1 ≤ cap →
    ∀ k, k < vs.length →
      (writeThenRead cap d vs ⟨[], 0, 0, n⟩)[k]? = if d ≤ k % n then vs[k - d]? else some 0#32

end SliceZeroStatements
end

