-- ==== Sys2Proof/Laws/Float.lean ====
section
/-! SUPPORT. Rounding: `roundMag` and `withSign` give the pattern nearest to an exact number, ties to even, with infinity from
the overflow bound on. Every rounded operation is an exact number given to them. -/

namespace Sys2Proof.Machine

/-- A format with room for a fraction and for its overflow bound. -/
structure Format.Sane (F : Format) : Prop where
  frac : 1 ≤ F.fracBits
  exp : 2 ≤ F.expBits
  room : F.fracBits + 2 ≤ 2 ^ (F.expBits - 1)

theorem b32_sane : b32.Sane := ⟨by decide, by decide, by decide⟩
theorem b64_sane : b64.Sane := ⟨by decide, by decide, by decide⟩

/-- `sig` is the integer nearest to `z`, ties to even. -/
def NearestEven (z : ℚ) (sig : Nat) : Prop :=
  |(sig : ℚ) - z| ≤ 1 / 2 ∧ (|(sig : ℚ) - z| = 1 / 2 → sig % 2 = 0)

/-- An integer is the nearest to itself. -/
theorem nearestEven_self (n : Nat) : NearestEven (n : ℚ) n := by
  constructor <;> norm_num

/-- What `roundShift` gives. -/
theorem nearestEven_roundShift (m d : Nat) : NearestEven ((m : ℚ) / 2 ^ d) (roundShift m d) := by
  have hd : (0 : ℚ) < 2 ^ d := by positivity
  have hr : ((m % 2 ^ d : Nat) : ℚ) / 2 ^ d < 1 := by
    rw [div_lt_one hd]
    exact_mod_cast Nat.mod_lt m (by positivity)
  have hr0 : 0 ≤ ((m % 2 ^ d : Nat) : ℚ) / 2 ^ d := by positivity
  have hz : (m : ℚ) / 2 ^ d = (m / 2 ^ d : Nat) + ((m % 2 ^ d : Nat) : ℚ) / 2 ^ d := by
    have h : (m : ℚ) = 2 ^ d * (m / 2 ^ d : Nat) + (m % 2 ^ d : Nat) := by exact_mod_cast (Nat.div_add_mod m (2 ^ d)).symm
    field_simp
    linarith
  have hlt : 2 * (m % 2 ^ d) > 2 ^ d ↔ 1 / 2 < ((m % 2 ^ d : Nat) : ℚ) / 2 ^ d := by
    rw [lt_div_iff₀ hd, gt_iff_lt, ← Nat.cast_lt (α := ℚ)]
    push_cast
    constructor <;> intro h <;> linarith
  have heq : 2 * (m % 2 ^ d) = 2 ^ d ↔ ((m % 2 ^ d : Nat) : ℚ) / 2 ^ d = 1 / 2 := by
    rw [div_eq_iff hd.ne', ← Nat.cast_inj (R := ℚ)]
    push_cast
    constructor <;> intro h <;> linarith
  rw [hz]
  unfold roundShift
  simp only [hlt, heq]
  generalize ((m % 2 ^ d : Nat) : ℚ) / 2 ^ d = r at *
  generalize m / 2 ^ d = q at *
  unfold NearestEven
  split
  · next h =>
    have h2 : 1 / 2 ≤ r := h.elim le_of_lt fun h => h.1.ge
    have e : ((q + 1 : Nat) : ℚ) - (q + r) = 1 - r := by push_cast; ring
    rw [e, abs_of_nonneg (by linarith)]
    refine ⟨by linarith, fun h3 => ?_⟩
    rcases h with h | h
    · linarith
    · omega
  · next h =>
    have h2 : r ≤ 1 / 2 := le_of_not_gt fun h3 => h (Or.inl h3)
    have e : (q : ℚ) - (q + r) = -r := by ring
    rw [e, abs_neg, abs_of_nonneg hr0]
    refine ⟨h2, fun h3 => ?_⟩
    have : ¬ q % 2 = 1 := fun h4 => h (Or.inr ⟨h3, h4⟩)
    omega

/-- Counting a rounded significand `sig` of exponent `k` gives its number of units (the carry into the exponent included). -/
theorem Format.units_rounded (F : Format) (k sig : Nat) (h : k = 0 ∨ 2 ^ F.fracBits ≤ sig) (h2 : sig ≤ 2 * 2 ^ F.fracBits) :
    F.units (k * 2 ^ F.fracBits + sig) = sig * 2 ^ k := by
  unfold Format.units
  have hP : 0 < 2 ^ F.fracBits := by positivity
  generalize 2 ^ F.fracBits = P at *
  rcases Nat.lt_or_ge sig P with hs | hs
  · have hk : k = 0 := h.resolve_right (by omega)
    subst hk
    simp [Nat.div_eq_of_lt hs]
  · rcases Nat.lt_or_ge sig (2 * P) with h3 | h3
    · obtain ⟨j, rfl⟩ := Nat.exists_eq_add_of_le hs
      have e : k * P + (P + j) = j + P * (k + 1) := by ring
      have hj : j < P := by omega
      rw [e, Nat.add_mul_div_left _ _ hP, Nat.add_mul_mod_self_left, Nat.div_eq_of_lt hj, Nat.mod_eq_of_lt hj]
      simp
    · obtain rfl : sig = 2 * P := by omega
      have e : k * P + 2 * P = P * (k + 2) := by ring
      rw [e, Nat.mul_div_cancel_left _ hP, Nat.mul_mod_right]
      simp only [Nat.add_eq_zero_iff, OfNat.ofNat_ne_zero, and_false, if_false]
      rw [show k + 2 - 1 = k + 1 from rfl, pow_succ]
      ring

/-- The units of a pattern are a multiple of 2^k, or below the numbers whose last place is 2^k. -/
theorem Format.units_multiple (F : Format) (k u : Nat) :
    (∃ n, F.units u = n * 2 ^ k) ∨ F.units u < 2 ^ F.fracBits * 2 ^ k := by
  unfold Format.units
  have hP : 0 < 2 ^ F.fracBits := by positivity
  generalize 2 ^ F.fracBits = P at *
  split
  · next h =>
    have hu : u < P := (Nat.div_eq_zero_iff.mp h).resolve_left (by omega)
    exact Or.inr (Nat.lt_of_lt_of_le hu (Nat.le_mul_of_pos_right P (by positivity)))
  · next h =>
    rcases Nat.lt_or_ge (u / P - 1) k with hk | hk
    · right
      have hm : P + u % P < P * 2 := by have := Nat.mod_lt u hP; omega
      have hk2 : 2 ^ (u / P - 1) * 2 ≤ 2 ^ k := by
        rw [← pow_succ]
        exact Nat.pow_le_pow_right (by omega) hk
      calc (P + u % P) * 2 ^ (u / P - 1) < P * 2 * 2 ^ (u / P - 1) := Nat.mul_lt_mul_of_pos_right hm (by positivity)
        _ = P * (2 ^ (u / P - 1) * 2) := by ring
        _ ≤ P * 2 ^ k := Nat.mul_le_mul_left _ hk2
    · left
      refine ⟨(P + u % P) * 2 ^ (u / P - 1 - k), ?_⟩
      rw [mul_assoc, ← pow_add]
      congr 2
      omega

/-- A nearest integer is at least as near as any other, and even on a tie. -/
theorem NearestEven.le {z : ℚ} {sig : Nat} (h : NearestEven z sig) (n : Nat) :
    |(sig : ℚ) - z| ≤ |(n : ℚ) - z| ∧ (|(n : ℚ) - z| = |(sig : ℚ) - z| → n ≠ sig → sig % 2 = 0) := by
  by_cases hn : n = sig
  · subst hn; simp
  · have h1 : (1 : ℚ) ≤ |(n : ℚ) - sig| := by
      have : (1 : ℤ) ≤ |(n : ℤ) - sig| := Int.one_le_abs (by omega)
      exact_mod_cast this
    have h2 : |(n : ℚ) - sig| ≤ |(n : ℚ) - z| + |(sig : ℚ) - z| := by
      have := abs_sub_le (n : ℚ) z sig
      rwa [abs_sub_comm z] at this
    exact ⟨by linarith [h.1], fun e _ => h.2 (le_antisymm h.1 (by linarith))⟩

/-- A magnitude rounded to its last place 2^k is the nearest of all patterns' magnitudes, even on a tie. -/
theorem Format.nearest_units (F : Format) (hF : F.Sane) {z : ℚ} {k sig : Nat} (hs : NearestEven z sig)
    (hk : k = 0 ∨ (2 : ℚ) ^ F.fracBits ≤ z) (h1 : k = 0 ∨ 2 ^ F.fracBits ≤ sig) (h2 : sig ≤ 2 * 2 ^ F.fracBits) (u : Nat) :
    |((sig * 2 ^ k : Nat) : ℚ) - z * 2 ^ k| ≤ |(F.units u : ℚ) - z * 2 ^ k| ∧
      (|(F.units u : ℚ) - z * 2 ^ k| = |((sig * 2 ^ k : Nat) : ℚ) - z * 2 ^ k| → F.units u ≠ sig * 2 ^ k →
        (k * 2 ^ F.fracBits + sig) % 2 = 0) := by
  have hp : (0 : ℚ) < 2 ^ k := by positivity
  have scale : ∀ n : Nat, |((n * 2 ^ k : Nat) : ℚ) - z * 2 ^ k| = |(n : ℚ) - z| * 2 ^ k := by
    intro n
    rw [← abs_of_pos hp, ← abs_mul, abs_of_pos hp]
    push_cast
    congr 1
    ring
  have hP : 2 ^ F.fracBits % 2 = 0 := by
    obtain ⟨p, hp⟩ := Nat.exists_eq_add_of_le hF.frac
    rw [hp, pow_add]
    omega
  have parity : sig % 2 = 0 → (k * 2 ^ F.fracBits + sig) % 2 = 0 := by
    intro h
    rw [Nat.add_mod, Nat.mul_mod, hP, h]
    simp
  rcases F.units_multiple k u with ⟨n, hn⟩ | hlt
  · rw [hn, scale, scale]
    refine ⟨mul_le_mul_of_nonneg_right (hs.le n).1 hp.le, fun e hne => parity ((hs.le n).2 (mul_right_cancel₀ hp.ne' e) ?_)⟩
    rintro rfl
    exact hne rfl
  · rcases hk with rfl | hk
    · have hu : F.units u = F.units u * 2 ^ 0 := by simp
      rw [hu, scale, scale]
      refine ⟨mul_le_mul_of_nonneg_right (hs.le _).1 hp.le, fun e hne => parity ((hs.le _).2 (mul_right_cancel₀ hp.ne' e) ?_)⟩
      rintro h
      exact hne (by rw [h])
    · have hlt' : (F.units u : ℚ) < 2 ^ F.fracBits * 2 ^ k := by exact_mod_cast hlt
      have hy : (2 : ℚ) ^ F.fracBits * 2 ^ k ≤ z * 2 ^ k := mul_le_mul_of_nonneg_right hk hp.le
      have hstrict : |((sig * 2 ^ k : Nat) : ℚ) - z * 2 ^ k| < |(F.units u : ℚ) - z * 2 ^ k| := by
        have hPz := mul_le_mul_of_nonneg_right (hs.le (2 ^ F.fracBits)).1 hp.le
        rw [scale, abs_of_nonpos (a := (F.units u : ℚ) - _) (by linarith)]
        rw [abs_of_nonpos (a := ((2 ^ F.fracBits : Nat) : ℚ) - z) (by push_cast; linarith)] at hPz
        push_cast at hPz
        linarith
      exact ⟨hstrict.le, fun e => absurd e hstrict.ne'⟩

theorem NearestEven.le_of_le {z : ℚ} {sig n : Nat} (h : NearestEven z sig) (hn : (n : ℚ) ≤ z) : n ≤ sig := by
  have h1 := (abs_le.mp h.1).1
  have : (n : ℚ) < sig + 1 := by linarith
  have : n < sig + 1 := by exact_mod_cast this
  omega

theorem NearestEven.le_of_lt {z : ℚ} {sig n : Nat} (h : NearestEven z sig) (hn : z < n) : sig ≤ n := by
  have h1 := (abs_le.mp h.1).2
  have : (sig : ℚ) < n + 1 := by linarith
  have : sig < n + 1 := by exact_mod_cast this
  omega

theorem Format.signBit_eq (F : Format) : F.signBit = 2 ^ F.expBits * 2 ^ F.fracBits := by
  unfold Format.signBit
  rw [pow_add, mul_comm]

theorem Format.infBits_lt (F : Format) : F.infBits < F.signBit := by
  rw [F.signBit_eq]
  exact Nat.mul_lt_mul_of_pos_right (Nat.sub_lt (by positivity) (by omega)) (by positivity)

/-- What `roundMag` does: the significand nearest to `z`, counted from the exponent `k`, where z * 2^k is the number in units
of the least subnormal number. -/
theorem roundMag_spec (F : Format) (m : Nat) (e : Int) (hm : m ≠ 0) :
    ∃ (k sig : Nat) (z : ℚ), roundMag F m e = min (k * 2 ^ F.fracBits + sig) F.infBits ∧ NearestEven z sig ∧
      z * 2 ^ k = m * (2 : ℚ) ^ (e - F.minExp) ∧ (k = 0 ∨ (2 : ℚ) ^ F.fracBits ≤ z) ∧ z < 2 * 2 ^ F.fracBits := by
  have two : (2 : ℚ) ≠ 0 := by norm_num
  have hlo : ((2 : ℚ) ^ (Nat.log2 m : Int)) ≤ m := by
    rw [zpow_natCast]
    exact_mod_cast Nat.log2_self_le hm
  have hhi : (m : ℚ) < (2 : ℚ) ^ ((Nat.log2 m : Int) + 1) := by
    have : m < 2 ^ (Nat.log2 m + 1) := Nat.lt_log2_self
    rw [show (Nat.log2 m : Int) + 1 = ((Nat.log2 m + 1 : Nat) : Int) by push_cast; rfl, zpow_natCast]
    exact_mod_cast this
  unfold roundMag
  rw [if_neg hm]
  simp only
  have hq1 := le_max_right (e + (Nat.log2 m : Int) - F.fracBits) F.minExp
  have hq2 := le_max_left (e + (Nat.log2 m : Int) - F.fracBits) F.minExp
  have hq3 := max_choice (e + (Nat.log2 m : Int) - F.fracBits) F.minExp
  generalize max (e + (Nat.log2 m : Int) - F.fracBits) F.minExp = q at *
  refine ⟨(q - F.minExp).toNat, _, (m : ℚ) * 2 ^ (e - q), rfl, ?_, ?_, ?_, ?_⟩
  · split
    · next h =>
      have := nearestEven_self (m * 2 ^ (e - q).toNat)
      push_cast at this
      rwa [← zpow_natCast, Int.toNat_of_nonneg (by omega)] at this
    · next h =>
      have := nearestEven_roundShift m (q - e).toNat
      rwa [div_eq_mul_inv, ← zpow_natCast, Int.toNat_of_nonneg (by omega), ← zpow_neg, neg_sub] at this
  · rw [← zpow_natCast, Int.toNat_of_nonneg (by omega), mul_assoc, ← zpow_add₀ two]
    congr 2
    ring
  · rcases hq3 with h | h
    · right
      calc (2 : ℚ) ^ F.fracBits = 2 ^ (Nat.log2 m : Int) * 2 ^ (e - q) := by
            rw [← zpow_add₀ two, ← zpow_natCast]; congr 1; omega
        _ ≤ m * 2 ^ (e - q) := mul_le_mul_of_nonneg_right hlo (by positivity)
    · left; omega
  · calc (m : ℚ) * 2 ^ (e - q) < 2 ^ ((Nat.log2 m : Int) + 1) * 2 ^ (e - q) :=
          mul_lt_mul_of_pos_right hhi (by positivity)
      _ = 2 ^ ((Nat.log2 m : Int) + 1 + (e - q)) := by rw [← zpow_add₀ two]
      _ ≤ 2 ^ ((F.fracBits : Int) + 1) := zpow_le_zpow_right₀ (by norm_num) (by omega)
      _ = 2 * 2 ^ F.fracBits := by rw [zpow_add₀ two, zpow_natCast]; ring

/-- The overflow bound in units: half a last place above the greatest finite number. -/
theorem Format.overflow_units (F : Format) (hF : F.Sane) :
    F.overflow * F.perOne = (2 * 2 ^ F.fracBits - 1 / 2) * 2 ^ (2 ^ F.expBits - 3) := by
  have h1 := hF.room
  have h2 : 2 ^ F.expBits = 2 * 2 ^ (F.expBits - 1) := by
    rw [← pow_succ']
    congr 1
    have := hF.exp
    omega
  unfold Format.overflow Format.perOne
  rw [h2]
  generalize 2 ^ (F.expBits - 1) = H at *
  generalize F.fracBits = p at *
  obtain ⟨j, rfl⟩ := Nat.exists_eq_add_of_le h1
  have e1 : p + 2 + j - p - 2 = j := by omega
  have e2 : p + 2 + j - 2 + p = 2 * p + j := by omega
  have e3 : 2 * (p + 2 + j) - 3 = 2 * p + 2 * j + 1 := by omega
  rw [e1, e2, e3]
  push_cast
  ring

/-- `roundMag` gives the nearest magnitude below the overflow bound, even on a tie, and infinity from it on. -/
theorem roundMag_nearest (F : Format) (hF : F.Sane) (m : Nat) (e : Int) (hm : m ≠ 0) :
    ((m : ℚ) * 2 ^ (e - F.minExp) < F.overflow * F.perOne → roundMag F m e < F.infBits ∧
      ∀ u, |(F.units (roundMag F m e) : ℚ) - m * 2 ^ (e - F.minExp)| ≤ |(F.units u : ℚ) - m * 2 ^ (e - F.minExp)| ∧
        (|(F.units u : ℚ) - m * 2 ^ (e - F.minExp)| = |(F.units (roundMag F m e) : ℚ) - m * 2 ^ (e - F.minExp)| →
          F.units u ≠ F.units (roundMag F m e) → roundMag F m e % 2 = 0)) ∧
    (F.overflow * F.perOne ≤ m * 2 ^ (e - F.minExp) → roundMag F m e = F.infBits) := by
  obtain ⟨k, sig, z, hr, hs, hy, hk, hz⟩ := roundMag_spec F m e hm
  rw [F.overflow_units hF, ← hy, hr]
  have hP : 0 < 2 ^ F.fracBits := by positivity
  have hPq : ((2 ^ F.fracBits : Nat) : ℚ) = 2 ^ F.fracBits := by push_cast; rfl
  have h1 : k = 0 ∨ 2 ^ F.fracBits ≤ sig := hk.imp_right fun h => hs.le_of_le (by rw [hPq]; exact h)
  have h2 : sig ≤ 2 * 2 ^ F.fracBits := hs.le_of_lt (by push_cast; exact hz)
  obtain ⟨E, hE⟩ : ∃ E, 2 ^ F.expBits = E + 4 := by
    have : 2 ^ 2 ≤ 2 ^ F.expBits := Nat.pow_le_pow_right (by omega) hF.exp
    exact ⟨2 ^ F.expBits - 4, by omega⟩
  have hinf : F.infBits = (E + 3) * 2 ^ F.fracBits := by rw [Format.infBits, hE]; rfl
  have hE1 : 2 ^ F.expBits - 3 = E + 1 := by omega
  rw [hE1]
  have p1 : (1 : ℚ) ≤ 2 ^ F.fracBits := one_le_pow₀ (by norm_num)
  constructor
  · intro hlt
    have hsmall : k * 2 ^ F.fracBits + sig < F.infBits := by
      rw [hinf]
      rcases Nat.lt_trichotomy k (E + 1) with h | h | h
      · calc k * 2 ^ F.fracBits + sig ≤ E * 2 ^ F.fracBits + 2 * 2 ^ F.fracBits :=
              Nat.add_le_add (Nat.mul_le_mul_right _ (by omega)) h2
          _ = (E + 2) * 2 ^ F.fracBits := by ring
          _ < (E + 3) * 2 ^ F.fracBits := Nat.mul_lt_mul_of_pos_right (by omega) hP
      · subst h
        have hz2 : z < 2 * 2 ^ F.fracBits - 1 / 2 := lt_of_mul_lt_mul_right hlt (by positivity)
        have hs2 : (sig : ℚ) < 2 * 2 ^ F.fracBits := by linarith [(abs_le.mp hs.1).2]
        have hs3 : sig < 2 * 2 ^ F.fracBits := by exact_mod_cast hs2
        calc (E + 1) * 2 ^ F.fracBits + sig < (E + 1) * 2 ^ F.fracBits + 2 * 2 ^ F.fracBits := Nat.add_lt_add_left hs3 _
          _ = (E + 3) * 2 ^ F.fracBits := by ring
      · exfalso
        have hzp : (2 : ℚ) ^ F.fracBits ≤ z := hk.resolve_left (by omega)
        have h3 : (2 : ℚ) ^ (E + 2) ≤ 2 ^ k := pow_le_pow_right₀ (by norm_num) h
        have h4 : (2 : ℚ) ^ F.fracBits * 2 ^ (E + 2) ≤ z * 2 ^ k := mul_le_mul hzp h3 (by positivity) (by linarith)
        have h5 : (0 : ℚ) < 2 ^ (E + 1) := by positivity
        rw [pow_succ] at h4
        nlinarith
    rw [Nat.min_eq_left hsmall.le]
    refine ⟨hsmall, fun u => ?_⟩
    rw [F.units_rounded k sig h1 h2]
    exact F.nearest_units hF hs hk h1 h2 u
  · intro hge
    refine Nat.min_eq_right ?_
    rw [hinf]
    rcases Nat.lt_trichotomy k (E + 1) with h | h | h
    · exfalso
      have h3 : (2 : ℚ) ^ k * 2 ≤ 2 ^ (E + 1) := by
        rw [← pow_succ]
        exact pow_le_pow_right₀ (by norm_num) h
      have h4 : (0 : ℚ) < 2 ^ k := by positivity
      have h5 : z * 2 ^ k < 2 * 2 ^ F.fracBits * 2 ^ k := mul_lt_mul_of_pos_right hz h4
      nlinarith
    · subst h
      have hz2 : 2 * 2 ^ F.fracBits - 1 / 2 ≤ z := le_of_mul_le_mul_right hge (by positivity)
      have hs2 : 2 * 2 ^ F.fracBits ≤ sig := by
        by_contra hc
        have hs3 : (sig : ℚ) + 1 ≤ 2 * 2 ^ F.fracBits := by
          have : sig + 1 ≤ 2 * 2 ^ F.fracBits := by omega
          exact_mod_cast this
        have hs4 := (abs_le.mp hs.1).1
        have hs5 : (sig : ℚ) = 2 * 2 ^ F.fracBits - 1 := by linarith
        have hz3 : z = 2 * 2 ^ F.fracBits - 1 / 2 := by linarith
        have hev := hs.2 (by rw [hs5, hz3]; norm_num)
        have hs6 : sig + 1 = 2 * 2 ^ F.fracBits := by
          have : (sig : ℚ) + 1 = 2 * 2 ^ F.fracBits := by linarith
          exact_mod_cast this
        omega
      calc (E + 3) * 2 ^ F.fracBits = (E + 1) * 2 ^ F.fracBits + 2 * 2 ^ F.fracBits := by ring
        _ ≤ (E + 1) * 2 ^ F.fracBits + sig := Nat.add_le_add_left hs2 _
    · have hs2 : 2 ^ F.fracBits ≤ sig := h1.resolve_left (by omega)
      calc (E + 3) * 2 ^ F.fracBits = (E + 2) * 2 ^ F.fracBits + 2 ^ F.fracBits := by ring
        _ ≤ k * 2 ^ F.fracBits + sig := Nat.add_le_add (Nat.mul_le_mul_right _ h) hs2

theorem Format.perOne_pos (F : Format) : (0 : ℚ) < F.perOne := by
  unfold Format.perOne
  positivity

/-- The unit of a format is the last place of its subnormal numbers. -/
theorem Format.perOne_eq (F : Format) (hF : F.Sane) : (F.perOne : ℚ) = 2 ^ (-F.minExp) := by
  have h : 2 ≤ 2 ^ (F.expBits - 1) := le_trans (by omega) hF.room
  unfold Format.perOne Format.minExp
  push_cast
  rw [← zpow_natCast]
  congr 1
  push_cast [Nat.cast_sub h]
  ring

/-- An exact number in units of the least subnormal number. -/
theorem Format.exact_eq (F : Format) (hF : F.Sane) (m : Nat) (e : Int) :
    (m : ℚ) * 2 ^ e = (m : ℚ) * 2 ^ (e - F.minExp) / F.perOne := by
  rw [eq_div_iff F.perOne_pos.ne', F.perOne_eq hF, mul_assoc, ← zpow_add₀ (by norm_num)]
  rfl

@[simp] theorem roundMag_zero (F : Format) (e : Int) : roundMag F 0 e = 0 := rfl

theorem roundMag_le (F : Format) (m : Nat) (e : Int) : roundMag F m e ≤ F.infBits := by
  unfold roundMag
  split
  · exact Nat.zero_le _
  · exact Nat.min_le_right _ _

theorem Format.magnitude_withSign (F : Format) (neg : Bool) {mag : Nat} (h : mag < F.signBit) :
    F.magnitude (withSign F neg mag) = mag := by
  cases neg <;> simp [Format.magnitude, withSign, Nat.mod_eq_of_lt h]

theorem Format.isNeg_withSign (F : Format) (neg : Bool) {mag : Nat} (h : mag < F.signBit) :
    F.isNeg (withSign F neg mag) = neg := by
  cases neg <;> simp [Format.isNeg, withSign, h]

theorem Format.withSign_mod_two (F : Format) (hF : F.Sane) (neg : Bool) (mag : Nat) :
    withSign F neg mag % 2 = mag % 2 := by
  obtain ⟨j, hj⟩ := Nat.exists_eq_add_of_le (le_trans hF.frac (Nat.le_add_right F.fracBits F.expBits))
  have : F.signBit % 2 = 0 := by
    rw [Format.signBit, hj, pow_add]
    omega
  cases neg
  · simp [withSign]
  · simp only [withSign, if_true]
    omega

/-- A nearest number on its own side of zero is the nearest of both sides. -/
theorem nearest_signed {W g Y σ : ℚ} {P : Prop} (hg : 0 ≤ g) (hY : 0 ≤ Y) (hσ : σ = 1 ∨ σ = -1)
    (h : |W - Y| ≤ |g - Y| ∧ (|g - Y| = |W - Y| → g ≠ W → P)) (h0 : |W - Y| ≤ Y) :
    |W - Y| ≤ |σ * g - Y| ∧ (|σ * g - Y| = |W - Y| → σ * g ≠ W → P) := by
  rcases hσ with rfl | rfl
  · simpa using h
  · have e : |-1 * g - Y| = g + Y := by
      rw [show -1 * g - Y = -(g + Y) by ring, abs_neg, abs_of_nonneg (by linarith)]
    rw [e]
    refine ⟨by linarith, fun ht hne => ?_⟩
    obtain rfl : g = 0 := by linarith
    exact h.2 (by rw [← ht, zero_sub, abs_neg, abs_of_nonneg hY, zero_add]) (by simpa using hne)

/-- Rounding an exact number and giving it its sign is rounding once, to nearest, ties to even, with infinity from the
overflow bound on (R8). -/
theorem Format.rounded_withSign (F : Format) (hF : F.Sane) (neg : Bool) (m : Nat) (e : Int) :
    F.Rounded ((if neg then -1 else 1) * ((m : ℚ) * 2 ^ e)) (withSign F neg (roundMag F m e)) := by
  have hlt : roundMag F m e < F.signBit := Nat.lt_of_le_of_lt (roundMag_le F m e) F.infBits_lt
  have hpos := F.perOne_pos
  have hs : (if neg then (-1 : ℚ) else 1) = 1 ∨ (if neg then (-1 : ℚ) else 1) = -1 := by cases neg <;> simp
  have hx : (0 : ℚ) ≤ (m : ℚ) * 2 ^ e := by positivity
  have habs : |(if neg then (-1 : ℚ) else 1) * ((m : ℚ) * 2 ^ e)| = (m : ℚ) * 2 ^ e := by
    rw [abs_mul, abs_of_nonneg hx]
    rcases hs with h | h <;> rw [h] <;> norm_num
  -- the magnitude is rounded
  have hmag : ((m : ℚ) * 2 ^ e < F.overflow → roundMag F m e < F.infBits ∧
      ∀ u, |(F.units (roundMag F m e) : ℚ) / F.perOne - m * 2 ^ e| ≤ |(F.units u : ℚ) / F.perOne - m * 2 ^ e| ∧
        (|(F.units u : ℚ) / F.perOne - m * 2 ^ e| = |(F.units (roundMag F m e) : ℚ) / F.perOne - m * 2 ^ e| →
          (F.units u : ℚ) / F.perOne ≠ (F.units (roundMag F m e) : ℚ) / F.perOne → roundMag F m e % 2 = 0)) ∧
      (F.overflow ≤ m * 2 ^ e → roundMag F m e = F.infBits) := by
    by_cases hm : m = 0
    · subst hm
      have h0 : F.units 0 = 0 := by simp [Format.units]
      have hov : 0 < F.overflow := by
        refine pos_of_mul_pos_left (b := (F.perOne : ℚ)) ?_ hpos.le
        rw [F.overflow_units hF]
        have : (1 : ℚ) ≤ 2 ^ F.fracBits := one_le_pow₀ (by norm_num)
        have : (0 : ℚ) < 2 * 2 ^ F.fracBits - 1 / 2 := by linarith
        positivity
      have hinf : 0 < F.infBits := by
        have : 2 ^ 2 ≤ 2 ^ F.expBits := Nat.pow_le_pow_right (by omega) hF.exp
        exact Nat.mul_pos (by omega) (by positivity)
      refine ⟨fun _ => ⟨by simpa using hinf, fun u => ?_⟩, fun h => ?_⟩
      · simp [h0]
      · simp only [Nat.cast_zero, zero_mul] at h
        exact absurd hov (not_lt.mpr h)
    · have scale : ∀ a : ℚ, |a / F.perOne - m * 2 ^ e| = |a - m * 2 ^ (e - F.minExp)| / F.perOne := by
        intro a
        rw [F.exact_eq hF, ← sub_div, abs_div, abs_of_pos hpos]
      have h := roundMag_nearest F hF m e hm
      simp only [scale, div_le_div_iff_of_pos_right hpos, div_left_inj' hpos.ne', ne_eq, Nat.cast_inj]
      rw [F.exact_eq hF m e, div_lt_iff₀ hpos, le_div_iff₀ hpos]
      exact h
  have hval : ∀ w, F.value w = (if F.isNeg w then (-1 : ℚ) else 1) * ((F.units (F.magnitude w) : ℚ) / F.perOne) := fun _ => rfl
  refine ⟨fun h => ?_, fun h => ?_, fun h => ?_, fun h => ?_⟩
  · rw [F.isNeg_withSign neg hlt]
    cases neg
    · simp only [Bool.false_eq_true, if_false, one_mul] at h
      exact absurd h (not_lt.mpr hx)
    · rfl
  · rw [F.isNeg_withSign neg hlt]
    cases neg
    · rfl
    · simp only [if_true] at h
      linarith
  · rw [habs] at h
    obtain ⟨h1, h2⟩ := hmag.1 h
    refine ⟨by simp [Format.finite, F.magnitude_withSign neg hlt, h1], fun u _ => ?_⟩
    rw [hval, hval, F.isNeg_withSign neg hlt, F.magnitude_withSign neg hlt, F.withSign_mod_two hF]
    have h0 := (h2 0).1
    rw [show F.units 0 = 0 by simp [Format.units], Nat.cast_zero, zero_div, zero_sub, abs_neg, abs_of_nonneg hx] at h0
    have hu : (if F.isNeg u then (-1 : ℚ) else 1) = 1 ∨ (if F.isNeg u then (-1 : ℚ) else 1) = -1 := by
      cases F.isNeg u <;> simp
    generalize (if F.isNeg u then (-1 : ℚ) else 1) = τ at *
    generalize (if neg then (-1 : ℚ) else 1) = s at *
    have hss : s * s = 1 := by rcases hs with rfl | rfl <;> norm_num
    have hsa : |s| = 1 := by rcases hs with rfl | rfl <;> norm_num
    have flip : ∀ a b : ℚ, |a - s * b| = |s * a - b| := by
      intro a b
      rw [← one_mul |s * a - b|, ← hsa, ← abs_mul, mul_sub, ← mul_assoc, hss, one_mul]
    have hn := nearest_signed (σ := s * τ) (div_nonneg (Nat.cast_nonneg (F.units (F.magnitude u))) hpos.le) hx
      (by rcases hs with rfl | rfl <;> rcases hu with rfl | rfl <;> norm_num) (h2 (F.magnitude u)) h0
    rw [flip, flip, ← mul_assoc, ← mul_assoc, hss, one_mul]
    refine ⟨hn.1, fun ht hne => hn.2 ht fun hc => hne ?_⟩
    rw [← hc, ← mul_assoc, ← mul_assoc, hss, one_mul]
  · rw [habs] at h
    rw [F.magnitude_withSign neg hlt]
    exact hmag.2 h

/-- A number with room in the fraction and in the range is not rounded. -/
theorem roundMag_exact (F : Format) (hF : F.Sane) {m : Nat} {e : Int} (hm : m < 2 * 2 ^ F.fracBits) (he : F.minExp ≤ e)
    (ho : (m : ℚ) * 2 ^ e < F.overflow) :
    roundMag F m e < F.infBits ∧ (F.units (roundMag F m e) : ℚ) / F.perOne = m * 2 ^ e := by
  by_cases h0 : m = 0
  · subst h0
    have hinf : 0 < F.infBits := by
      have : 2 ^ 2 ≤ 2 ^ F.expBits := Nat.pow_le_pow_right (by omega) hF.exp
      exact Nat.mul_pos (by omega) (by positivity)
    simpa [Format.units] using hinf
  have hlt : roundMag F m e < F.infBits := by
    refine ((roundMag_nearest F hF m e h0).1 ?_).1
    rwa [← div_lt_iff₀ F.perOne_pos, ← F.exact_eq hF]
  refine ⟨hlt, ?_⟩
  have hlog : Nat.log2 m ≤ F.fracBits := by
    have := (Nat.log2_lt h0).mpr (show m < 2 ^ (F.fracBits + 1) by rw [pow_succ']; exact hm)
    omega
  have hlo : 2 ^ Nat.log2 m ≤ m := Nat.log2_self_le h0
  rw [F.exact_eq hF]
  congr 1
  revert hlt
  unfold roundMag
  rw [if_neg h0]
  simp only
  have hq1 := le_max_right (e + (Nat.log2 m : Int) - F.fracBits) F.minExp
  have hq2 := le_max_left (e + (Nat.log2 m : Int) - F.fracBits) F.minExp
  have hq3 := max_choice (e + (Nat.log2 m : Int) - F.fracBits) F.minExp
  generalize max (e + (Nat.log2 m : Int) - F.fracBits) F.minExp = q at *
  have hqe : q ≤ e := by omega
  rw [if_pos hqe]
  intro hlt
  rw [Nat.min_eq_left (by omega), F.units_rounded]
  · push_cast
    rw [mul_assoc, ← zpow_natCast, ← zpow_natCast, ← zpow_add₀ (by norm_num)]
    congr 2
    omega
  · rcases hq3 with h | h
    · right
      calc 2 ^ F.fracBits = 2 ^ Nat.log2 m * 2 ^ (e - q).toNat := by rw [← pow_add]; congr 1; omega
        _ ≤ m * 2 ^ (e - q).toNat := Nat.mul_le_mul_right _ hlo
    · left; omega
  · have h1 : m < 2 ^ (Nat.log2 m + 1) := Nat.lt_log2_self
    calc m * 2 ^ (e - q).toNat ≤ 2 ^ (Nat.log2 m + 1) * 2 ^ (e - q).toNat := Nat.mul_le_mul_right _ h1.le
      _ = 2 ^ (Nat.log2 m + 1 + (e - q).toNat) := (pow_add ..).symm
      _ ≤ 2 ^ (F.fracBits + 1) := Nat.pow_le_pow_right (by omega) (by omega)
      _ = 2 * 2 ^ F.fracBits := by rw [pow_succ']

/-! ### Reading a pattern -/

theorem Format.isNeg_eq (F : Format) {w : Nat} (h : w < 2 * F.signBit) : decide (w / F.signBit % 2 = 1) = F.isNeg w := by
  have hb : 0 < F.signBit := by unfold Format.signBit; positivity
  unfold Format.isNeg
  rcases Nat.lt_or_ge w F.signBit with h1 | h1
  · simp [Nat.div_eq_of_lt h1, h1]
  · have : w / F.signBit = 1 := by
      rw [Nat.div_eq_iff hb]
      constructor <;> omega
    simp [this, h1]

/-- What `unpack` gives: a NaN above the infinity's magnitude, the infinity, else a number of the pattern's value. -/
theorem unpack_spec (F : Format) (hF : F.Sane) {w : Nat} (h : w < 2 * F.signBit) :
    (F.infBits < F.magnitude w ∧ unpack F w = .nan) ∨ (F.magnitude w = F.infBits ∧ unpack F w = .inf (F.isNeg w)) ∨
    (F.finite w = true ∧ ∃ m e, unpack F w = .fin (F.isNeg w) m e ∧
      F.value w = (if F.isNeg w then -1 else 1) * ((m : ℚ) * 2 ^ e)) := by
  have hP : 0 < 2 ^ F.fracBits := by positivity
  have hE : 2 ^ 2 ≤ 2 ^ F.expBits := Nat.pow_le_pow_right (by omega) hF.exp
  have hfrac : w % 2 ^ F.fracBits = F.magnitude w % 2 ^ F.fracBits := by
    rw [Format.magnitude, F.signBit_eq, Nat.mod_mul_left_mod]
  have hex : w / 2 ^ F.fracBits % 2 ^ F.expBits = F.magnitude w / 2 ^ F.fracBits := by
    rw [Format.magnitude, F.signBit_eq, mul_comm, Nat.mod_mul_right_div_self]
  have hmag : F.magnitude w / 2 ^ F.fracBits < 2 ^ F.expBits := by
    rw [Nat.div_lt_iff_lt_mul hP, ← F.signBit_eq]
    exact Nat.mod_lt w (by unfold Format.signBit; positivity)
  have hdm := Nat.div_add_mod (F.magnitude w) (2 ^ F.fracBits)
  have hml := Nat.mod_lt (F.magnitude w) hP
  unfold unpack
  simp only [F.isNeg_eq h, hfrac, hex]
  unfold Format.finite Format.value Format.units Format.infBits
  generalize F.magnitude w = mag at *
  generalize hx : mag / 2 ^ F.fracBits = ex at *
  generalize hr : mag % 2 ^ F.fracBits = frac at *
  by_cases h1 : ex = 2 ^ F.expBits - 1
  · rw [if_pos h1, ← h1, mul_comm ex]
    by_cases h2 : frac = 0
    · exact .inr (.inl ⟨by omega, by rw [if_pos h2]⟩)
    · exact .inl ⟨by omega, by rw [if_neg h2]⟩
  · have hlt : mag < (2 ^ F.expBits - 1) * 2 ^ F.fracBits := by
      rw [← Nat.div_lt_iff_lt_mul hP, hx]
      omega
    refine .inr (.inr ⟨by simpa using hlt, ?_⟩)
    rw [if_neg h1]
    by_cases h2 : ex = 0
    · refine ⟨_, _, by rw [if_pos h2], ?_⟩
      rw [if_pos h2, F.exact_eq hF, sub_self, zpow_zero, mul_one]
      rw [h2, Nat.mul_zero, Nat.zero_add] at hdm
      rw [hdm]
    · refine ⟨_, _, by rw [if_neg h2], ?_⟩
      rw [if_neg h2, F.exact_eq hF, show F.minExp + (ex : Int) - 1 - F.minExp = ((ex - 1 : Nat) : Int) by
        push_cast [Nat.one_le_iff_ne_zero.mpr h2]; ring, zpow_natCast]
      push_cast
      rfl

/-! ### The two formats -/

theorem toNat32_lt (v : F32) : v.toNat < 2 * b32.signBit := v.isLt
theorem toNat64_lt (v : F64) : v.toNat < 2 * b64.signBit := v.isLt

theorem msb32 (v : F32) : b32.isNeg v.toNat = v.msb := (BitVec.msb_eq_decide v).symm
theorem msb64 (v : F64) : b64.isNeg v.toNat = v.msb := (BitVec.msb_eq_decide v).symm

/-- What a binary32 datum reads as. -/
theorem num32_spec (v : F32) :
    (b32.infBits < b32.magnitude v.toNat ∧ num32 v = .nan) ∨ (b32.magnitude v.toNat = b32.infBits ∧ num32 v = .inf v.msb) ∨
    (finite32 v = true ∧ ∃ m e, num32 v = .fin v.msb m e ∧ value32 v = (if v.msb then -1 else 1) * ((m : ℚ) * 2 ^ e)) := by
  have h := unpack_spec b32 b32_sane (toNat32_lt v)
  rwa [msb32] at h

/-- What a binary64 datum reads as. -/
theorem num64_spec (v : F64) :
    (b64.infBits < b64.magnitude v.toNat ∧ num64 v = .nan) ∨ (b64.magnitude v.toNat = b64.infBits ∧ num64 v = .inf v.msb) ∨
    (finite64 v = true ∧ ∃ m e, num64 v = .fin v.msb m e ∧ value64 v = (if v.msb then -1 else 1) * ((m : ℚ) * 2 ^ e)) := by
  have h := unpack_spec b64 b64_sane (toNat64_lt v)
  rwa [msb64] at h

theorem withSign_lt (F : Format) (neg : Bool) {mag : Nat} (h : mag < F.signBit) : withSign F neg mag < 2 * F.signBit := by
  unfold withSign
  split <;> omega

theorem round32_toNat (neg : Bool) (m : Nat) (e : Int) : (round32 neg m e).toNat = withSign b32 neg (roundMag b32 m e) := by
  rw [round32, BitVec.toNat_ofNat]
  exact Nat.mod_eq_of_lt (withSign_lt b32 neg (Nat.lt_of_le_of_lt (roundMag_le b32 m e) b32.infBits_lt))

theorem round64_toNat (neg : Bool) (m : Nat) (e : Int) : (round64 neg m e).toNat = withSign b64 neg (roundMag b64 m e) := by
  rw [round64, BitVec.toNat_ofNat]
  exact Nat.mod_eq_of_lt (withSign_lt b64 neg (Nat.lt_of_le_of_lt (roundMag_le b64 m e) b64.infBits_lt))

/-- `round32` rounds once and keeps the sign. -/
theorem round32_spec (neg : Bool) (m : Nat) (e : Int) :
    b32.Rounded ((if neg then -1 else 1) * ((m : ℚ) * 2 ^ e)) (round32 neg m e).toNat ∧ (round32 neg m e).msb = neg := by
  rw [← msb32, round32_toNat]
  exact ⟨b32.rounded_withSign b32_sane neg m e,
    b32.isNeg_withSign neg (Nat.lt_of_le_of_lt (roundMag_le b32 m e) b32.infBits_lt)⟩

/-- `round64` rounds once and keeps the sign. -/
theorem round64_spec (neg : Bool) (m : Nat) (e : Int) :
    b64.Rounded ((if neg then -1 else 1) * ((m : ℚ) * 2 ^ e)) (round64 neg m e).toNat ∧ (round64 neg m e).msb = neg := by
  rw [← msb64, round64_toNat]
  exact ⟨b64.rounded_withSign b64_sane neg m e,
    b64.isNeg_withSign neg (Nat.lt_of_le_of_lt (roundMag_le b64 m e) b64.infBits_lt)⟩

/-- `round64` of a number with room in the fraction and in the range is that number. -/
theorem round64_exact (neg : Bool) {m : Nat} {e : Int} (hm : m < 2 * 2 ^ b64.fracBits) (he : b64.minExp ≤ e)
    (ho : (m : ℚ) * 2 ^ e < b64.overflow) :
    finite64 (round64 neg m e) = true ∧ value64 (round64 neg m e) = (if neg then -1 else 1) * ((m : ℚ) * 2 ^ e) := by
  obtain ⟨h1, h2⟩ := roundMag_exact b64 b64_sane hm he ho
  have hlt := Nat.lt_trans h1 b64.infBits_lt
  unfold finite64 value64 Format.value Format.finite
  rw [round64_toNat, b64.isNeg_withSign neg hlt, b64.magnitude_withSign neg hlt, h2]
  exact ⟨by simpa using h1, rfl⟩

/-- `round32` of a number with room in the fraction and in the range is that number. -/
theorem round32_exact (neg : Bool) {m : Nat} {e : Int} (hm : m < 2 * 2 ^ b32.fracBits) (he : b32.minExp ≤ e)
    (ho : (m : ℚ) * 2 ^ e < b32.overflow) :
    finite32 (round32 neg m e) = true ∧ value32 (round32 neg m e) = (if neg then -1 else 1) * ((m : ℚ) * 2 ^ e) := by
  obtain ⟨h1, h2⟩ := roundMag_exact b32 b32_sane hm he ho
  have hlt := Nat.lt_trans h1 b32.infBits_lt
  unfold finite32 value32 Format.value Format.finite
  rw [round32_toNat, b32.isNeg_withSign neg hlt, b32.magnitude_withSign neg hlt, h2]
  exact ⟨by simpa using h1, rfl⟩

/-- `nan64` is a NaN pattern, whatever the free value. -/
theorem magnitude_nan64 (c : BitVec 53) : b64.infBits < b64.magnitude (nan64 c).toNat := by
  have hc := c.isLt
  rw [nan64, BitVec.toNat_ofNat]
  unfold nanPattern withSign Format.magnitude Format.infBits Format.signBit
  simp only [b64]
  norm_num
  have := Nat.mod_lt c.toNat (show 0 < 4503599627370496 by norm_num)
  split <;> split <;> omega

@[simp] theorem num64_nan64 (c : BitVec 53) : num64 (nan64 c) = .nan := by
  have h := magnitude_nan64 c
  rcases num64_spec (nan64 c) with ⟨_, h'⟩ | ⟨h', _⟩ | ⟨h', _⟩
  · exact h'
  · exact absurd h' h.ne'
  · exact absurd (of_decide_eq_true h') (not_lt.mpr h.le)

/-- `nan32` is a NaN pattern, whatever the free value. -/
theorem magnitude_nan32 (c : BitVec 24) : b32.infBits < b32.magnitude (nan32 c).toNat := by
  have hc := c.isLt
  rw [nan32, BitVec.toNat_ofNat]
  unfold nanPattern withSign Format.magnitude Format.infBits Format.signBit
  simp only [b32]
  norm_num
  have := Nat.mod_lt c.toNat (show 0 < 8388608 by norm_num)
  split <;> split <;> omega

@[simp] theorem num32_nan32 (c : BitVec 24) : num32 (nan32 c) = .nan := by
  have h := magnitude_nan32 c
  rcases num32_spec (nan32 c) with ⟨_, h'⟩ | ⟨h', _⟩ | ⟨h', _⟩
  · exact h'
  · exact absurd h' h.ne'
  · exact absurd (of_decide_eq_true h') (not_lt.mpr h.le)

/-- `scaled` counts a number in units of 2^e0. -/
theorem scaled_mul (neg : Bool) (m : Nat) {e e0 : Int} (h : e0 ≤ e) :
    (scaled neg m e e0 : ℚ) * 2 ^ e0 = (if neg then -1 else 1) * ((m : ℚ) * 2 ^ e) := by
  have hp : (2 : ℚ) ^ e = 2 ^ (e - e0).toNat * 2 ^ e0 := by
    rw [← zpow_natCast, Int.toNat_of_nonneg (by omega), ← zpow_add₀ (by norm_num)]
    congr 1
    ring
  unfold scaled
  rw [hp]
  push_cast
  split <;> ring

/-- The threshold and the scale of an interpolation, as their patterns. -/
@[simp] theorem satThreshold64_eq : satThreshold64 = one64 := by decide +kernel
@[simp] theorem satThreshold_eq : Config.satThreshold = one32 := rfl
@[simp] theorem neg64_one64 : neg64 one64 = negOne64 := by decide
@[simp] theorem neg32_one32 : neg32 one32 = negOne32 := by decide
@[simp] theorem halfSpan64_eq : halfSpan64 = 0x403F800000000000#64 := by decide +kernel

end Sys2Proof.Machine
end

