-- ==== Sys2Proof/Laws/Memory.lean ====
section
/-! SUPPORT. Delay memory: what a read gives after a write, that every operation keeps the canonical form, and what the two
accesses of a delay line can do. -/

namespace Sys2Proof.Machine

theorem Memory.wf_nil : Memory.wf [] := by simp [Memory.wf]

theorem Memory.wf_tail {c : Nat × F32} {m : Memory} (h : Memory.wf (c :: m)) : Memory.wf m :=
  ⟨h.1.tail, fun d hd => h.2 d (List.mem_cons_of_mem _ hd)⟩

theorem Memory.wf_head_lt {c : Nat × F32} {m : Memory} (h : Memory.wf (c :: m)) : ∀ d ∈ m, c.1 < d.1 :=
  (List.pairwise_cons.mp h.1).1

theorem Memory.wf_cons {c : Nat × F32} {m : Memory} (hc : c.2 ≠ Config.delayFill) (hlt : ∀ d ∈ m, c.1 < d.1)
    (hm : Memory.wf m) : Memory.wf (c :: m) :=
  ⟨List.pairwise_cons.mpr ⟨hlt, hm.1⟩, fun d hd => (List.mem_cons.mp hd).elim (fun e => e ▸ hc) (hm.2 d)⟩

/-- An address below every listed one reads as the fill value. -/
theorem Memory.read_below {m : Memory} {k : Nat} (h : ∀ d ∈ m, k < d.1) : Memory.read m k = Config.delayFill := by
  induction m with
  | nil => rfl
  | cons c m ih =>
    have hc : ¬ c.1 = k := by
      have := h c List.mem_cons_self
      omega
    simp only [Memory.read, hc, if_false]
    exact ih fun d hd => h d (List.mem_cons_of_mem _ hd)

/-- Every listed element after a write is the written one or was listed before. -/
theorem Memory.mem_write {m : Memory} {k : Nat} {v : F32} {d : Nat × F32} (h : d ∈ Memory.write m k v) :
    d = (k, v) ∨ d ∈ m := by
  induction m with
  | nil =>
    by_cases hv : v = Config.delayFill
    · simp [Memory.write, hv] at h
    · simp only [Memory.write, hv, if_false, List.mem_singleton] at h
      exact Or.inl h
  | cons c m ih =>
    unfold Memory.write at h
    split at h
    · split at h
      · exact Or.inr h
      · exact (List.mem_cons.mp h).imp_right id
    · split at h
      · split at h
        · exact Or.inr (List.mem_cons_of_mem _ h)
        · exact (List.mem_cons.mp h).imp_right (List.mem_cons_of_mem _)
      · rcases List.mem_cons.mp h with h | h
        · exact Or.inr (h ▸ List.mem_cons_self)
        · exact (ih h).imp_right (List.mem_cons_of_mem _)

/-- A write keeps the canonical form. -/
theorem Memory.write_wf {m : Memory} (k : Nat) (v : F32) (h : Memory.wf m) : Memory.wf (Memory.write m k v) := by
  induction m with
  | nil =>
    by_cases hv : v = Config.delayFill
    · simp [Memory.write, hv, Memory.wf]
    · simp only [Memory.write, hv, if_false]
      exact Memory.wf_cons hv (by simp) Memory.wf_nil
  | cons c m ih =>
    have hlt := Memory.wf_head_lt h
    have hm := Memory.wf_tail h
    have hc := h.2 c List.mem_cons_self
    unfold Memory.write
    split
    · next hk =>
      split
      · exact h
      · next hv =>
        refine Memory.wf_cons hv (fun d hd => ?_) h
        rcases List.mem_cons.mp hd with e | hd
        · exact e ▸ hk
        · exact Nat.lt_trans hk (hlt d hd)
    · split
      · next hk =>
        split
        · exact hm
        · next hv => exact Memory.wf_cons hv (fun d hd => hk ▸ hlt d hd) hm
      · refine Memory.wf_cons hc (fun d hd => ?_) (ih hm)
        rcases Memory.mem_write hd with e | hd
        · subst e
          show c.1 < k
          omega
        · exact hlt d hd

/-- What an element reads as after a write to a canonical buffer. -/
theorem Memory.read_write {m : Memory} (h : Memory.wf m) (k j : Nat) (v : F32) :
    Memory.read (Memory.write m k v) j = if j = k then v else Memory.read m j := by
  induction m with
  | nil =>
    by_cases hv : v = Config.delayFill <;> by_cases hj : j = k
    · simp [Memory.write, Memory.read, hv]
    · simp [Memory.write, Memory.read, hv]
    · simp [Memory.write, Memory.read, hv, hj]
    · simp [Memory.write, Memory.read, hv, hj, Ne.symm hj]
  | cons c m ih =>
    have hlt := Memory.wf_head_lt h
    have ih := ih (Memory.wf_tail h)
    unfold Memory.write
    split
    · next hk =>
      split
      · next hv =>
        by_cases hj : j = k
        · subst hj
          rw [if_pos rfl, hv]
          refine Memory.read_below fun d hd => ?_
          rcases List.mem_cons.mp hd with e | hd
          · exact e ▸ hk
          · exact Nat.lt_trans hk (hlt d hd)
        · rw [if_neg hj]
      · by_cases hj : j = k
        · simp [Memory.read, hj]
        · simp [Memory.read, hj, Ne.symm hj]
    · split
      · next hk =>
        split
        · next hv =>
          by_cases hj : j = k
          · rw [if_pos hj, hv]
            exact Memory.read_below fun d hd => by rw [hj, hk]; exact hlt d hd
          · rw [if_neg hj]
            have hc : ¬ c.1 = j := fun e => hj (by omega)
            simp [Memory.read, hc]
        · by_cases hj : j = k
          · simp [Memory.read, hj]
          · have hc : ¬ c.1 = j := fun e => hj (by omega)
            simp [Memory.read, hj, hc, Ne.symm hj]
      · by_cases hc : c.1 = j
        · have hj : j ≠ k := by omega
          simp [Memory.read, hc, hj]
        · simp [Memory.read, hc, ih]

/-- An element other than the written one reads as before, in any list. -/
theorem Memory.read_write_other (m : Memory) (k j : Nat) (v : F32) (h : j ≠ k) :
    Memory.read (Memory.write m k v) j = Memory.read m j := by
  induction m with
  | nil => by_cases hv : v = Config.delayFill <;> simp [Memory.write, Memory.read, hv, Ne.symm h]
  | cons c m ih =>
    unfold Memory.write
    split
    · split <;> simp [Memory.read, Ne.symm h]
    · split
      · next hk => split <;> simp [Memory.read, ← hk, Ne.symm h]
      · simp [Memory.read, ih]

/-- The elements of a delay line stay inside the capacity when it is written inside. -/
theorem Memory.write_bound {m : Memory} {cap k : Nat} {v : F32} (h : ∀ c ∈ m, c.1 < cap) (hk : k < cap) :
    ∀ c ∈ Memory.write m k v, c.1 < cap := by
  intro c hc
  rcases Memory.mem_write hc with e | hc
  · exact e ▸ hk
  · exact h c hc

/-- A write address is inside the capacity. -/
theorem writeAddress_lt {cap : Nat} (h : 0 < cap) (l : DelayLine) (off : Nat) : writeAddress cap l off < cap :=
  Nat.mod_lt _ h

/-- A read address is inside the capacity. -/
theorem readAddress_lt {cap : Nat} (h : 0 < cap) (l : DelayLine) (off : Nat) : readAddress cap l off < cap := by
  have h1 : 0 ≤ ((l.rcur : Int) - off) % (cap : Int) := Int.emod_nonneg _ (by omega)
  have h2 : ((l.rcur : Int) - off) % (cap : Int) < cap := Int.emod_lt_of_pos _ (by omega)
  unfold readAddress
  omega

/-- A delay write keeps a line of legal size in form. -/
theorem delayWrite_wf {cap : Nat} {l : DelayLine} (v : F32) (off : Nat) (h : l.wf cap) (h1 : 1 ≤ l.size)
    (h2 : l.size ≤ cap) : (delayWrite cap l v off).wf cap := by
  obtain ⟨hm, hb, _, hr⟩ := h
  refine ⟨Memory.write_wf _ _ hm, Memory.write_bound hb (writeAddress_lt (by omega) l off), ?_, hr⟩
  exact Nat.lt_of_lt_of_le (Nat.mod_lt _ h1) h2

/-- The advance of a delay read keeps a line of legal size in form. -/
theorem delayReadAdvance_wf {cap : Nat} {l : DelayLine} (h : l.wf cap) (h1 : 1 ≤ l.size) (h2 : l.size ≤ cap) :
    (delayReadAdvance l).wf cap := by
  obtain ⟨hm, hb, hw, _⟩ := h
  exact ⟨hm, hb, hw, Nat.lt_of_lt_of_le (Nat.mod_lt _ h1) h2⟩

/-- A clamped integer lies between its bounds (R11). -/
theorem clamp_bounds {v lo hi : Int} (h : lo ≤ hi) : lo ≤ clamp v lo hi ∧ clamp v lo hi ≤ hi := by
  unfold clamp
  split
  · omega
  · split <;> omega

/-- The offset of a delay access lies inside the declared size (R230). -/
theorem delayOffset_lt {size : Nat} (h : 1 ≤ size) (y : F32) : delayOffset size y < size := by
  have := clamp_bounds (v := int32 y) (lo := 0) (hi := (size - 1 : Int)) (by omega)
  unfold delayOffset
  omega

/-- After reset both delay buffers are in canonical form. -/
theorem reset_memory_wf : State.reset.itram.buf.wf ∧ State.reset.xtram.buf.wf :=
  ⟨Memory.wf_nil, Memory.wf_nil⟩

end Sys2Proof.Machine
end

