-- ==== Sys2Proof/Laws/State.lean ====
section
/-! SUPPORT. For each update of the state, what each field is after it. -/

namespace Sys2Proof.Machine

variable (s : State)

@[simp] theorem State.setValue_numChannels (i : RegIdx) (v : F32) : (s.setValue i v).numChannels = s.numChannels := rfl
@[simp] theorem State.setValue_gpr (i : RegIdx) (v : F32) : (s.setValue i v).gpr = writeValue s.gpr i.toNat v := rfl
@[simp] theorem State.setValue_imem (i : RegIdx) (v : F32) : (s.setValue i v).imem = s.imem := rfl
@[simp] theorem State.setValue_acc (i : RegIdx) (v : F32) : (s.setValue i v).acc = s.acc := rfl
@[simp] theorem State.setValue_cc (i : RegIdx) (v : F32) : (s.setValue i v).cc = s.cc := rfl
@[simp] theorem State.setValue_pc (i : RegIdx) (v : F32) : (s.setValue i v).pc = s.pc := rfl
@[simp] theorem State.setValue_ended (i : RegIdx) (v : F32) : (s.setValue i v).ended = s.ended := rfl
@[simp] theorem State.setValue_skipcnt (i : RegIdx) (v : F32) : (s.setValue i v).skipcnt = s.skipcnt := rfl
@[simp] theorem State.setValue_icount (i : RegIdx) (v : F32) : (s.setValue i v).icount = s.icount := rfl
@[simp] theorem State.setValue_itram (i : RegIdx) (v : F32) : (s.setValue i v).itram = s.itram := rfl
@[simp] theorem State.setValue_xtram (i : RegIdx) (v : F32) : (s.setValue i v).xtram = s.xtram := rfl
@[simp] theorem State.setValue_noisePos (i : RegIdx) (v : F32) : (s.setValue i v).noisePos = s.noisePos := rfl
@[simp] theorem State.setValue_inBuf (i : RegIdx) (v : F32) : (s.setValue i v).inBuf = s.inBuf := rfl
@[simp] theorem State.setValue_outBuf (i : RegIdx) (v : F32) : (s.setValue i v).outBuf = s.outBuf := rfl
@[simp] theorem State.setValue_ctrlList (i : RegIdx) (v : F32) : (s.setValue i v).ctrlList = s.ctrlList := rfl
@[simp] theorem State.setValue_loadedOk (i : RegIdx) (v : F32) : (s.setValue i v).loadedOk = s.loadedOk := rfl
@[simp] theorem State.setValue_errors (i : RegIdx) (v : F32) : (s.setValue i v).errors = s.errors := rfl
@[simp] theorem State.setValue_symbols (i : RegIdx) (v : F32) : (s.setValue i v).symbols = s.symbols := rfl
@[simp] theorem State.setValue_inTick (i : RegIdx) (v : F32) : (s.setValue i v).inTick = s.inTick := rfl
@[simp] theorem State.setValue_hostQueue (i : RegIdx) (v : F32) : (s.setValue i v).hostQueue = s.hostQueue := rfl
@[simp] theorem State.setValue_replies (i : RegIdx) (v : F32) : (s.setValue i v).replies = s.replies := rfl
@[simp] theorem State.setValue_freeCount (i : RegIdx) (v : F32) : (s.setValue i v).freeCount = s.freeCount := rfl

@[simp] theorem State.setAcc_numChannels (v : F64) : (s.setAcc v).numChannels = s.numChannels := rfl
@[simp] theorem State.setAcc_gpr (v : F64) : (s.setAcc v).gpr = s.gpr := rfl
@[simp] theorem State.setAcc_imem (v : F64) : (s.setAcc v).imem = s.imem := rfl
@[simp] theorem State.setAcc_acc (v : F64) : (s.setAcc v).acc = v := rfl
@[simp] theorem State.setAcc_cc (v : F64) : (s.setAcc v).cc = s.cc := rfl
@[simp] theorem State.setAcc_pc (v : F64) : (s.setAcc v).pc = s.pc := rfl
@[simp] theorem State.setAcc_ended (v : F64) : (s.setAcc v).ended = s.ended := rfl
@[simp] theorem State.setAcc_skipcnt (v : F64) : (s.setAcc v).skipcnt = s.skipcnt := rfl
@[simp] theorem State.setAcc_icount (v : F64) : (s.setAcc v).icount = s.icount := rfl
@[simp] theorem State.setAcc_itram (v : F64) : (s.setAcc v).itram = s.itram := rfl
@[simp] theorem State.setAcc_xtram (v : F64) : (s.setAcc v).xtram = s.xtram := rfl
@[simp] theorem State.setAcc_noisePos (v : F64) : (s.setAcc v).noisePos = s.noisePos := rfl
@[simp] theorem State.setAcc_inBuf (v : F64) : (s.setAcc v).inBuf = s.inBuf := rfl
@[simp] theorem State.setAcc_outBuf (v : F64) : (s.setAcc v).outBuf = s.outBuf := rfl
@[simp] theorem State.setAcc_ctrlList (v : F64) : (s.setAcc v).ctrlList = s.ctrlList := rfl
@[simp] theorem State.setAcc_loadedOk (v : F64) : (s.setAcc v).loadedOk = s.loadedOk := rfl
@[simp] theorem State.setAcc_errors (v : F64) : (s.setAcc v).errors = s.errors := rfl
@[simp] theorem State.setAcc_symbols (v : F64) : (s.setAcc v).symbols = s.symbols := rfl
@[simp] theorem State.setAcc_inTick (v : F64) : (s.setAcc v).inTick = s.inTick := rfl
@[simp] theorem State.setAcc_hostQueue (v : F64) : (s.setAcc v).hostQueue = s.hostQueue := rfl
@[simp] theorem State.setAcc_replies (v : F64) : (s.setAcc v).replies = s.replies := rfl
@[simp] theorem State.setAcc_freeCount (v : F64) : (s.setAcc v).freeCount = s.freeCount := rfl

@[simp] theorem State.setCc_numChannels (c : CondCode) : (s.setCc c).numChannels = s.numChannels := rfl
@[simp] theorem State.setCc_gpr (c : CondCode) : (s.setCc c).gpr = s.gpr := rfl
@[simp] theorem State.setCc_imem (c : CondCode) : (s.setCc c).imem = s.imem := rfl
@[simp] theorem State.setCc_acc (c : CondCode) : (s.setCc c).acc = s.acc := rfl
@[simp] theorem State.setCc_cc (c : CondCode) : (s.setCc c).cc = c := rfl
@[simp] theorem State.setCc_pc (c : CondCode) : (s.setCc c).pc = s.pc := rfl
@[simp] theorem State.setCc_ended (c : CondCode) : (s.setCc c).ended = s.ended := rfl
@[simp] theorem State.setCc_skipcnt (c : CondCode) : (s.setCc c).skipcnt = s.skipcnt := rfl
@[simp] theorem State.setCc_icount (c : CondCode) : (s.setCc c).icount = s.icount := rfl
@[simp] theorem State.setCc_itram (c : CondCode) : (s.setCc c).itram = s.itram := rfl
@[simp] theorem State.setCc_xtram (c : CondCode) : (s.setCc c).xtram = s.xtram := rfl
@[simp] theorem State.setCc_noisePos (c : CondCode) : (s.setCc c).noisePos = s.noisePos := rfl
@[simp] theorem State.setCc_inBuf (c : CondCode) : (s.setCc c).inBuf = s.inBuf := rfl
@[simp] theorem State.setCc_outBuf (c : CondCode) : (s.setCc c).outBuf = s.outBuf := rfl
@[simp] theorem State.setCc_ctrlList (c : CondCode) : (s.setCc c).ctrlList = s.ctrlList := rfl
@[simp] theorem State.setCc_loadedOk (c : CondCode) : (s.setCc c).loadedOk = s.loadedOk := rfl
@[simp] theorem State.setCc_errors (c : CondCode) : (s.setCc c).errors = s.errors := rfl
@[simp] theorem State.setCc_symbols (c : CondCode) : (s.setCc c).symbols = s.symbols := rfl
@[simp] theorem State.setCc_inTick (c : CondCode) : (s.setCc c).inTick = s.inTick := rfl
@[simp] theorem State.setCc_hostQueue (c : CondCode) : (s.setCc c).hostQueue = s.hostQueue := rfl
@[simp] theorem State.setCc_replies (c : CondCode) : (s.setCc c).replies = s.replies := rfl
@[simp] theorem State.setCc_freeCount (c : CondCode) : (s.setCc c).freeCount = s.freeCount := rfl

@[simp] theorem State.setSkip_numChannels (n : Int) : (s.setSkip n).numChannels = s.numChannels := rfl
@[simp] theorem State.setSkip_gpr (n : Int) : (s.setSkip n).gpr = s.gpr := rfl
@[simp] theorem State.setSkip_imem (n : Int) : (s.setSkip n).imem = s.imem := rfl
@[simp] theorem State.setSkip_acc (n : Int) : (s.setSkip n).acc = s.acc := rfl
@[simp] theorem State.setSkip_cc (n : Int) : (s.setSkip n).cc = s.cc := rfl
@[simp] theorem State.setSkip_pc (n : Int) : (s.setSkip n).pc = s.pc := rfl
@[simp] theorem State.setSkip_ended (n : Int) : (s.setSkip n).ended = s.ended := rfl
@[simp] theorem State.setSkip_skipcnt (n : Int) : (s.setSkip n).skipcnt = n := rfl
@[simp] theorem State.setSkip_icount (n : Int) : (s.setSkip n).icount = s.icount := rfl
@[simp] theorem State.setSkip_itram (n : Int) : (s.setSkip n).itram = s.itram := rfl
@[simp] theorem State.setSkip_xtram (n : Int) : (s.setSkip n).xtram = s.xtram := rfl
@[simp] theorem State.setSkip_noisePos (n : Int) : (s.setSkip n).noisePos = s.noisePos := rfl
@[simp] theorem State.setSkip_inBuf (n : Int) : (s.setSkip n).inBuf = s.inBuf := rfl
@[simp] theorem State.setSkip_outBuf (n : Int) : (s.setSkip n).outBuf = s.outBuf := rfl
@[simp] theorem State.setSkip_ctrlList (n : Int) : (s.setSkip n).ctrlList = s.ctrlList := rfl
@[simp] theorem State.setSkip_loadedOk (n : Int) : (s.setSkip n).loadedOk = s.loadedOk := rfl
@[simp] theorem State.setSkip_errors (n : Int) : (s.setSkip n).errors = s.errors := rfl
@[simp] theorem State.setSkip_symbols (n : Int) : (s.setSkip n).symbols = s.symbols := rfl
@[simp] theorem State.setSkip_inTick (n : Int) : (s.setSkip n).inTick = s.inTick := rfl
@[simp] theorem State.setSkip_hostQueue (n : Int) : (s.setSkip n).hostQueue = s.hostQueue := rfl
@[simp] theorem State.setSkip_replies (n : Int) : (s.setSkip n).replies = s.replies := rfl
@[simp] theorem State.setSkip_freeCount (n : Int) : (s.setSkip n).freeCount = s.freeCount := rfl

@[simp] theorem State.setEnded_numChannels : (s.setEnded).numChannels = s.numChannels := rfl
@[simp] theorem State.setEnded_gpr : (s.setEnded).gpr = s.gpr := rfl
@[simp] theorem State.setEnded_imem : (s.setEnded).imem = s.imem := rfl
@[simp] theorem State.setEnded_acc : (s.setEnded).acc = s.acc := rfl
@[simp] theorem State.setEnded_cc : (s.setEnded).cc = s.cc := rfl
@[simp] theorem State.setEnded_pc : (s.setEnded).pc = s.pc := rfl
@[simp] theorem State.setEnded_ended : (s.setEnded).ended = true := rfl
@[simp] theorem State.setEnded_skipcnt : (s.setEnded).skipcnt = s.skipcnt := rfl
@[simp] theorem State.setEnded_icount : (s.setEnded).icount = s.icount := rfl
@[simp] theorem State.setEnded_itram : (s.setEnded).itram = s.itram := rfl
@[simp] theorem State.setEnded_xtram : (s.setEnded).xtram = s.xtram := rfl
@[simp] theorem State.setEnded_noisePos : (s.setEnded).noisePos = s.noisePos := rfl
@[simp] theorem State.setEnded_inBuf : (s.setEnded).inBuf = s.inBuf := rfl
@[simp] theorem State.setEnded_outBuf : (s.setEnded).outBuf = s.outBuf := rfl
@[simp] theorem State.setEnded_ctrlList : (s.setEnded).ctrlList = s.ctrlList := rfl
@[simp] theorem State.setEnded_loadedOk : (s.setEnded).loadedOk = s.loadedOk := rfl
@[simp] theorem State.setEnded_errors : (s.setEnded).errors = s.errors := rfl
@[simp] theorem State.setEnded_symbols : (s.setEnded).symbols = s.symbols := rfl
@[simp] theorem State.setEnded_inTick : (s.setEnded).inTick = s.inTick := rfl
@[simp] theorem State.setEnded_hostQueue : (s.setEnded).hostQueue = s.hostQueue := rfl
@[simp] theorem State.setEnded_replies : (s.setEnded).replies = s.replies := rfl
@[simp] theorem State.setEnded_freeCount : (s.setEnded).freeCount = s.freeCount := rfl

@[simp] theorem State.setPc_numChannels (t : Nat) : (s.setPc t).numChannels = s.numChannels := rfl
@[simp] theorem State.setPc_gpr (t : Nat) : (s.setPc t).gpr = s.gpr := rfl
@[simp] theorem State.setPc_imem (t : Nat) : (s.setPc t).imem = s.imem := rfl
@[simp] theorem State.setPc_acc (t : Nat) : (s.setPc t).acc = s.acc := rfl
@[simp] theorem State.setPc_cc (t : Nat) : (s.setPc t).cc = s.cc := rfl
@[simp] theorem State.setPc_pc (t : Nat) : (s.setPc t).pc = t := rfl
@[simp] theorem State.setPc_ended (t : Nat) : (s.setPc t).ended = s.ended := rfl
@[simp] theorem State.setPc_skipcnt (t : Nat) : (s.setPc t).skipcnt = s.skipcnt := rfl
@[simp] theorem State.setPc_icount (t : Nat) : (s.setPc t).icount = s.icount := rfl
@[simp] theorem State.setPc_itram (t : Nat) : (s.setPc t).itram = s.itram := rfl
@[simp] theorem State.setPc_xtram (t : Nat) : (s.setPc t).xtram = s.xtram := rfl
@[simp] theorem State.setPc_noisePos (t : Nat) : (s.setPc t).noisePos = s.noisePos := rfl
@[simp] theorem State.setPc_inBuf (t : Nat) : (s.setPc t).inBuf = s.inBuf := rfl
@[simp] theorem State.setPc_outBuf (t : Nat) : (s.setPc t).outBuf = s.outBuf := rfl
@[simp] theorem State.setPc_ctrlList (t : Nat) : (s.setPc t).ctrlList = s.ctrlList := rfl
@[simp] theorem State.setPc_loadedOk (t : Nat) : (s.setPc t).loadedOk = s.loadedOk := rfl
@[simp] theorem State.setPc_errors (t : Nat) : (s.setPc t).errors = s.errors := rfl
@[simp] theorem State.setPc_symbols (t : Nat) : (s.setPc t).symbols = s.symbols := rfl
@[simp] theorem State.setPc_inTick (t : Nat) : (s.setPc t).inTick = s.inTick := rfl
@[simp] theorem State.setPc_hostQueue (t : Nat) : (s.setPc t).hostQueue = s.hostQueue := rfl
@[simp] theorem State.setPc_replies (t : Nat) : (s.setPc t).replies = s.replies := rfl
@[simp] theorem State.setPc_freeCount (t : Nat) : (s.setPc t).freeCount = s.freeCount := rfl

@[simp] theorem State.count_numChannels : (s.count).numChannels = s.numChannels := rfl
@[simp] theorem State.count_gpr : (s.count).gpr = s.gpr := rfl
@[simp] theorem State.count_imem : (s.count).imem = s.imem := rfl
@[simp] theorem State.count_acc : (s.count).acc = s.acc := rfl
@[simp] theorem State.count_cc : (s.count).cc = s.cc := rfl
@[simp] theorem State.count_pc : (s.count).pc = s.pc := rfl
@[simp] theorem State.count_ended : (s.count).ended = s.ended := rfl
@[simp] theorem State.count_skipcnt : (s.count).skipcnt = s.skipcnt := rfl
@[simp] theorem State.count_icount : (s.count).icount = s.icount + 1 := rfl
@[simp] theorem State.count_itram : (s.count).itram = s.itram := rfl
@[simp] theorem State.count_xtram : (s.count).xtram = s.xtram := rfl
@[simp] theorem State.count_noisePos : (s.count).noisePos = s.noisePos := rfl
@[simp] theorem State.count_inBuf : (s.count).inBuf = s.inBuf := rfl
@[simp] theorem State.count_outBuf : (s.count).outBuf = s.outBuf := rfl
@[simp] theorem State.count_ctrlList : (s.count).ctrlList = s.ctrlList := rfl
@[simp] theorem State.count_loadedOk : (s.count).loadedOk = s.loadedOk := rfl
@[simp] theorem State.count_errors : (s.count).errors = s.errors := rfl
@[simp] theorem State.count_symbols : (s.count).symbols = s.symbols := rfl
@[simp] theorem State.count_inTick : (s.count).inTick = s.inTick := rfl
@[simp] theorem State.count_hostQueue : (s.count).hostQueue = s.hostQueue := rfl
@[simp] theorem State.count_replies : (s.count).replies = s.replies := rfl
@[simp] theorem State.count_freeCount : (s.count).freeCount = s.freeCount := rfl

@[simp] theorem State.setItram_numChannels (l : DelayLine) : (s.setItram l).numChannels = s.numChannels := rfl
@[simp] theorem State.setItram_gpr (l : DelayLine) : (s.setItram l).gpr = s.gpr := rfl
@[simp] theorem State.setItram_imem (l : DelayLine) : (s.setItram l).imem = s.imem := rfl
@[simp] theorem State.setItram_acc (l : DelayLine) : (s.setItram l).acc = s.acc := rfl
@[simp] theorem State.setItram_cc (l : DelayLine) : (s.setItram l).cc = s.cc := rfl
@[simp] theorem State.setItram_pc (l : DelayLine) : (s.setItram l).pc = s.pc := rfl
@[simp] theorem State.setItram_ended (l : DelayLine) : (s.setItram l).ended = s.ended := rfl
@[simp] theorem State.setItram_skipcnt (l : DelayLine) : (s.setItram l).skipcnt = s.skipcnt := rfl
@[simp] theorem State.setItram_icount (l : DelayLine) : (s.setItram l).icount = s.icount := rfl
@[simp] theorem State.setItram_itram (l : DelayLine) : (s.setItram l).itram = l := rfl
@[simp] theorem State.setItram_xtram (l : DelayLine) : (s.setItram l).xtram = s.xtram := rfl
@[simp] theorem State.setItram_noisePos (l : DelayLine) : (s.setItram l).noisePos = s.noisePos := rfl
@[simp] theorem State.setItram_inBuf (l : DelayLine) : (s.setItram l).inBuf = s.inBuf := rfl
@[simp] theorem State.setItram_outBuf (l : DelayLine) : (s.setItram l).outBuf = s.outBuf := rfl
@[simp] theorem State.setItram_ctrlList (l : DelayLine) : (s.setItram l).ctrlList = s.ctrlList := rfl
@[simp] theorem State.setItram_loadedOk (l : DelayLine) : (s.setItram l).loadedOk = s.loadedOk := rfl
@[simp] theorem State.setItram_errors (l : DelayLine) : (s.setItram l).errors = s.errors := rfl
@[simp] theorem State.setItram_symbols (l : DelayLine) : (s.setItram l).symbols = s.symbols := rfl
@[simp] theorem State.setItram_inTick (l : DelayLine) : (s.setItram l).inTick = s.inTick := rfl
@[simp] theorem State.setItram_hostQueue (l : DelayLine) : (s.setItram l).hostQueue = s.hostQueue := rfl
@[simp] theorem State.setItram_replies (l : DelayLine) : (s.setItram l).replies = s.replies := rfl
@[simp] theorem State.setItram_freeCount (l : DelayLine) : (s.setItram l).freeCount = s.freeCount := rfl

@[simp] theorem State.setXtram_numChannels (l : DelayLine) : (s.setXtram l).numChannels = s.numChannels := rfl
@[simp] theorem State.setXtram_gpr (l : DelayLine) : (s.setXtram l).gpr = s.gpr := rfl
@[simp] theorem State.setXtram_imem (l : DelayLine) : (s.setXtram l).imem = s.imem := rfl
@[simp] theorem State.setXtram_acc (l : DelayLine) : (s.setXtram l).acc = s.acc := rfl
@[simp] theorem State.setXtram_cc (l : DelayLine) : (s.setXtram l).cc = s.cc := rfl
@[simp] theorem State.setXtram_pc (l : DelayLine) : (s.setXtram l).pc = s.pc := rfl
@[simp] theorem State.setXtram_ended (l : DelayLine) : (s.setXtram l).ended = s.ended := rfl
@[simp] theorem State.setXtram_skipcnt (l : DelayLine) : (s.setXtram l).skipcnt = s.skipcnt := rfl
@[simp] theorem State.setXtram_icount (l : DelayLine) : (s.setXtram l).icount = s.icount := rfl
@[simp] theorem State.setXtram_itram (l : DelayLine) : (s.setXtram l).itram = s.itram := rfl
@[simp] theorem State.setXtram_xtram (l : DelayLine) : (s.setXtram l).xtram = l := rfl
@[simp] theorem State.setXtram_noisePos (l : DelayLine) : (s.setXtram l).noisePos = s.noisePos := rfl
@[simp] theorem State.setXtram_inBuf (l : DelayLine) : (s.setXtram l).inBuf = s.inBuf := rfl
@[simp] theorem State.setXtram_outBuf (l : DelayLine) : (s.setXtram l).outBuf = s.outBuf := rfl
@[simp] theorem State.setXtram_ctrlList (l : DelayLine) : (s.setXtram l).ctrlList = s.ctrlList := rfl
@[simp] theorem State.setXtram_loadedOk (l : DelayLine) : (s.setXtram l).loadedOk = s.loadedOk := rfl
@[simp] theorem State.setXtram_errors (l : DelayLine) : (s.setXtram l).errors = s.errors := rfl
@[simp] theorem State.setXtram_symbols (l : DelayLine) : (s.setXtram l).symbols = s.symbols := rfl
@[simp] theorem State.setXtram_inTick (l : DelayLine) : (s.setXtram l).inTick = s.inTick := rfl
@[simp] theorem State.setXtram_hostQueue (l : DelayLine) : (s.setXtram l).hostQueue = s.hostQueue := rfl
@[simp] theorem State.setXtram_replies (l : DelayLine) : (s.setXtram l).replies = s.replies := rfl
@[simp] theorem State.setXtram_freeCount (l : DelayLine) : (s.setXtram l).freeCount = s.freeCount := rfl

@[simp] theorem State.drawNoise_numChannels : (s.drawNoise).numChannels = s.numChannels := rfl
@[simp] theorem State.drawNoise_gpr : (s.drawNoise).gpr = s.gpr := rfl
@[simp] theorem State.drawNoise_imem : (s.drawNoise).imem = s.imem := rfl
@[simp] theorem State.drawNoise_acc : (s.drawNoise).acc = s.acc := rfl
@[simp] theorem State.drawNoise_cc : (s.drawNoise).cc = s.cc := rfl
@[simp] theorem State.drawNoise_pc : (s.drawNoise).pc = s.pc := rfl
@[simp] theorem State.drawNoise_ended : (s.drawNoise).ended = s.ended := rfl
@[simp] theorem State.drawNoise_skipcnt : (s.drawNoise).skipcnt = s.skipcnt := rfl
@[simp] theorem State.drawNoise_icount : (s.drawNoise).icount = s.icount := rfl
@[simp] theorem State.drawNoise_itram : (s.drawNoise).itram = s.itram := rfl
@[simp] theorem State.drawNoise_xtram : (s.drawNoise).xtram = s.xtram := rfl
@[simp] theorem State.drawNoise_noisePos : (s.drawNoise).noisePos = s.noisePos + 1 := rfl
@[simp] theorem State.drawNoise_inBuf : (s.drawNoise).inBuf = s.inBuf := rfl
@[simp] theorem State.drawNoise_outBuf : (s.drawNoise).outBuf = s.outBuf := rfl
@[simp] theorem State.drawNoise_ctrlList : (s.drawNoise).ctrlList = s.ctrlList := rfl
@[simp] theorem State.drawNoise_loadedOk : (s.drawNoise).loadedOk = s.loadedOk := rfl
@[simp] theorem State.drawNoise_errors : (s.drawNoise).errors = s.errors := rfl
@[simp] theorem State.drawNoise_symbols : (s.drawNoise).symbols = s.symbols := rfl
@[simp] theorem State.drawNoise_inTick : (s.drawNoise).inTick = s.inTick := rfl
@[simp] theorem State.drawNoise_hostQueue : (s.drawNoise).hostQueue = s.hostQueue := rfl
@[simp] theorem State.drawNoise_replies : (s.drawNoise).replies = s.replies := rfl
@[simp] theorem State.drawNoise_freeCount : (s.drawNoise).freeCount = s.freeCount := rfl

@[simp] theorem State.setOut_numChannels (c : Nat) (v : F32) : (s.setOut c v).numChannels = s.numChannels := rfl
@[simp] theorem State.setOut_gpr (c : Nat) (v : F32) : (s.setOut c v).gpr = s.gpr := rfl
@[simp] theorem State.setOut_imem (c : Nat) (v : F32) : (s.setOut c v).imem = s.imem := rfl
@[simp] theorem State.setOut_acc (c : Nat) (v : F32) : (s.setOut c v).acc = s.acc := rfl
@[simp] theorem State.setOut_cc (c : Nat) (v : F32) : (s.setOut c v).cc = s.cc := rfl
@[simp] theorem State.setOut_pc (c : Nat) (v : F32) : (s.setOut c v).pc = s.pc := rfl
@[simp] theorem State.setOut_ended (c : Nat) (v : F32) : (s.setOut c v).ended = s.ended := rfl
@[simp] theorem State.setOut_skipcnt (c : Nat) (v : F32) : (s.setOut c v).skipcnt = s.skipcnt := rfl
@[simp] theorem State.setOut_icount (c : Nat) (v : F32) : (s.setOut c v).icount = s.icount := rfl
@[simp] theorem State.setOut_itram (c : Nat) (v : F32) : (s.setOut c v).itram = s.itram := rfl
@[simp] theorem State.setOut_xtram (c : Nat) (v : F32) : (s.setOut c v).xtram = s.xtram := rfl
@[simp] theorem State.setOut_noisePos (c : Nat) (v : F32) : (s.setOut c v).noisePos = s.noisePos := rfl
@[simp] theorem State.setOut_inBuf (c : Nat) (v : F32) : (s.setOut c v).inBuf = s.inBuf := rfl
@[simp] theorem State.setOut_outBuf (c : Nat) (v : F32) : (s.setOut c v).outBuf = s.outBuf.set c v := rfl
@[simp] theorem State.setOut_ctrlList (c : Nat) (v : F32) : (s.setOut c v).ctrlList = s.ctrlList := rfl
@[simp] theorem State.setOut_loadedOk (c : Nat) (v : F32) : (s.setOut c v).loadedOk = s.loadedOk := rfl
@[simp] theorem State.setOut_errors (c : Nat) (v : F32) : (s.setOut c v).errors = s.errors := rfl
@[simp] theorem State.setOut_symbols (c : Nat) (v : F32) : (s.setOut c v).symbols = s.symbols := rfl
@[simp] theorem State.setOut_inTick (c : Nat) (v : F32) : (s.setOut c v).inTick = s.inTick := rfl
@[simp] theorem State.setOut_hostQueue (c : Nat) (v : F32) : (s.setOut c v).hostQueue = s.hostQueue := rfl
@[simp] theorem State.setOut_replies (c : Nat) (v : F32) : (s.setOut c v).replies = s.replies := rfl
@[simp] theorem State.setOut_freeCount (c : Nat) (v : F32) : (s.setOut c v).freeCount = s.freeCount := rfl

@[simp] theorem State.answer_numChannels (r : HostReply) : (s.answer r).numChannels = s.numChannels := rfl
@[simp] theorem State.answer_gpr (r : HostReply) : (s.answer r).gpr = s.gpr := rfl
@[simp] theorem State.answer_imem (r : HostReply) : (s.answer r).imem = s.imem := rfl
@[simp] theorem State.answer_acc (r : HostReply) : (s.answer r).acc = s.acc := rfl
@[simp] theorem State.answer_cc (r : HostReply) : (s.answer r).cc = s.cc := rfl
@[simp] theorem State.answer_pc (r : HostReply) : (s.answer r).pc = s.pc := rfl
@[simp] theorem State.answer_ended (r : HostReply) : (s.answer r).ended = s.ended := rfl
@[simp] theorem State.answer_skipcnt (r : HostReply) : (s.answer r).skipcnt = s.skipcnt := rfl
@[simp] theorem State.answer_icount (r : HostReply) : (s.answer r).icount = s.icount := rfl
@[simp] theorem State.answer_itram (r : HostReply) : (s.answer r).itram = s.itram := rfl
@[simp] theorem State.answer_xtram (r : HostReply) : (s.answer r).xtram = s.xtram := rfl
@[simp] theorem State.answer_noisePos (r : HostReply) : (s.answer r).noisePos = s.noisePos := rfl
@[simp] theorem State.answer_inBuf (r : HostReply) : (s.answer r).inBuf = s.inBuf := rfl
@[simp] theorem State.answer_outBuf (r : HostReply) : (s.answer r).outBuf = s.outBuf := rfl
@[simp] theorem State.answer_ctrlList (r : HostReply) : (s.answer r).ctrlList = s.ctrlList := rfl
@[simp] theorem State.answer_loadedOk (r : HostReply) : (s.answer r).loadedOk = s.loadedOk := rfl
@[simp] theorem State.answer_errors (r : HostReply) : (s.answer r).errors = s.errors := rfl
@[simp] theorem State.answer_symbols (r : HostReply) : (s.answer r).symbols = s.symbols := rfl
@[simp] theorem State.answer_inTick (r : HostReply) : (s.answer r).inTick = s.inTick := rfl
@[simp] theorem State.answer_hostQueue (r : HostReply) : (s.answer r).hostQueue = s.hostQueue := rfl
@[simp] theorem State.answer_replies (r : HostReply) : (s.answer r).replies = s.replies ++ [r] := rfl
@[simp] theorem State.answer_freeCount (r : HostReply) : (s.answer r).freeCount = s.freeCount := rfl

@[simp] theorem State.dequeue_numChannels : (s.dequeue).numChannels = s.numChannels := rfl
@[simp] theorem State.dequeue_gpr : (s.dequeue).gpr = s.gpr := rfl
@[simp] theorem State.dequeue_imem : (s.dequeue).imem = s.imem := rfl
@[simp] theorem State.dequeue_acc : (s.dequeue).acc = s.acc := rfl
@[simp] theorem State.dequeue_cc : (s.dequeue).cc = s.cc := rfl
@[simp] theorem State.dequeue_pc : (s.dequeue).pc = s.pc := rfl
@[simp] theorem State.dequeue_ended : (s.dequeue).ended = s.ended := rfl
@[simp] theorem State.dequeue_skipcnt : (s.dequeue).skipcnt = s.skipcnt := rfl
@[simp] theorem State.dequeue_icount : (s.dequeue).icount = s.icount := rfl
@[simp] theorem State.dequeue_itram : (s.dequeue).itram = s.itram := rfl
@[simp] theorem State.dequeue_xtram : (s.dequeue).xtram = s.xtram := rfl
@[simp] theorem State.dequeue_noisePos : (s.dequeue).noisePos = s.noisePos := rfl
@[simp] theorem State.dequeue_inBuf : (s.dequeue).inBuf = s.inBuf := rfl
@[simp] theorem State.dequeue_outBuf : (s.dequeue).outBuf = s.outBuf := rfl
@[simp] theorem State.dequeue_ctrlList : (s.dequeue).ctrlList = s.ctrlList := rfl
@[simp] theorem State.dequeue_loadedOk : (s.dequeue).loadedOk = s.loadedOk := rfl
@[simp] theorem State.dequeue_errors : (s.dequeue).errors = s.errors := rfl
@[simp] theorem State.dequeue_symbols : (s.dequeue).symbols = s.symbols := rfl
@[simp] theorem State.dequeue_inTick : (s.dequeue).inTick = s.inTick := rfl
@[simp] theorem State.dequeue_hostQueue : (s.dequeue).hostQueue = s.hostQueue.tail := rfl
@[simp] theorem State.dequeue_replies : (s.dequeue).replies = s.replies := rfl
@[simp] theorem State.dequeue_freeCount : (s.dequeue).freeCount = s.freeCount := rfl

end Sys2Proof.Machine
end

