-- ==== Sys2Proof/Laws/Operands.lean ====
section
/-! SUPPORT. Registers, injections and the common steps: what a register holds after a write, the register file after the
injections, and when and how an instruction executes. -/

namespace Sys2Proof.Machine

/-! ### Register writes -/

theorem getElem?_writeValue (gpr : List RegRecord) (i j : Nat) (v : F32) :
    (writeValue gpr i v)[j]? = (gpr[j]?).map (fun r => if i = j then { r with value := v } else r) := by
  simp [writeValue, List.getElem?_modify]

@[simp] theorem length_writeValue (gpr : List RegRecord) (i : Nat) (v : F32) :
    (writeValue gpr i v).length = gpr.length := by
  simp [writeValue]

/-- A write changes values only: kind and channel of every register stay (R21). -/
theorem getElem?_writeValue_kind_io (gpr : List RegRecord) (i j : Nat) (v : F32) :
    ((writeValue gpr i v)[j]?).map (fun r => (r.kind, r.io)) = (gpr[j]?).map (fun r => (r.kind, r.io)) := by
  rw [getElem?_writeValue]
  cases gpr[j]? with
  | none => rfl
  | some r => by_cases h : i = j <;> simp [h]

theorem State.hasReg_iff (s : State) (i : RegIdx) : s.hasReg i = true ↔ i.toNat < s.gpr.length := by
  simp [State.hasReg]

theorem State.reg_eq (s : State) (i : RegIdx) : s.reg i = (s.gpr[i.toNat]?).getD absentRecord :=
  List.getD_eq_getElem?_getD ..

/-- What a register holds after a write to an existing register. -/
theorem State.reg_setValue (s : State) (i j : RegIdx) (v : F32) (h : i.toNat < s.gpr.length) :
    (s.setValue i v).reg j = if i = j then { s.reg j with value := v } else s.reg j := by
  rw [State.reg_eq, State.reg_eq, State.setValue_gpr, getElem?_writeValue]
  by_cases e : i = j
  · subst e
    simp [List.getElem?_eq_getElem h]
  · have : i.toNat ≠ j.toNat := fun h => e (BitVec.eq_of_toNat_eq h)
    simp [e, this]

/-! ### Injections -/

/-- A record of a kind at a position overwritten with a value that its channel gives. -/
def overwrite (P : Prop) [Decidable P] (k : Kind) (g : Nat → F32) (r : RegRecord) : RegRecord :=
  if P ∧ r.kind = k then { r with value := g r.io } else r

/-- Overwriting at two positions with the same values is overwriting at either. -/
theorem overwrite_overwrite (P Q : Prop) [Decidable P] [Decidable Q] (k : Kind) (g : Nat → F32) (r : RegRecord) :
    overwrite Q k g (overwrite P k g r) = overwrite (P ∨ Q) k g r := by
  by_cases hk : r.kind = k <;> by_cases hP : P <;> by_cases hQ : Q <;> simp [overwrite, hk, hP, hQ]

theorem mapIdx_same {α : Type} (l : List α) : l.mapIdx (fun _ r => r) = l := by
  apply List.ext_getElem?
  intro j
  simp [List.getElem?_mapIdx]

/-- A conditional write to one register as a map over the file. -/
theorem writeValue_if (gpr : List RegRecord) (i : Nat) (k : Kind) (g : Nat → F32) (hk : k ≠ .static) :
    (if (gpr.getD i absentRecord).kind = k then writeValue gpr i (g (gpr.getD i absentRecord).io) else gpr)
      = gpr.mapIdx (fun j r => overwrite (j = i) k g r) := by
  apply List.ext_getElem?
  intro j
  rw [List.getElem?_mapIdx, List.getD_eq_getElem?_getD]
  by_cases hj : j = i
  · subst hj
    cases hr : gpr[j]? with
    | none => simp [absentRecord, Ne.symm hk, hr]
    | some r => by_cases hkind : r.kind = k <;> simp [hkind, hr, getElem?_writeValue, overwrite]
  · have hi : ¬ i = j := fun e => hj e.symm
    split
    · rw [getElem?_writeValue]
      cases gpr[j]? <;> simp [hi, hj, overwrite]
    · cases gpr[j]? <;> simp [hj, overwrite]

theorem State.injectInputAt_eq (s : State) (p : RegIdx) :
    s.injectInputAt p =
      { s with
        gpr := s.gpr.mapIdx (fun j r => overwrite (j = p.toNat) .input (fun c => s.inBuf.getD c zero32) r) } := by
  rw [← writeValue_if s.gpr p.toNat .input _ (by decide)]
  unfold State.injectInputAt State.setValue State.reg
  split <;> simp_all

theorem State.injectNoiseAt_eq (s : State) (v : F32) (p : RegIdx) :
    s.injectNoiseAt v p =
      { s with gpr := s.gpr.mapIdx (fun j r => overwrite (j = p.toNat) .noise (fun _ => v) r) } := by
  rw [← writeValue_if s.gpr p.toNat .noise _ (by decide)]
  unfold State.injectNoiseAt State.setValue State.reg
  split <;> simp_all

/-- The input injection, as a map over the register file (R146). -/
theorem State.injectInput_eq (s : State) (f : IoFlags) (o : Opnds) :
    s.injectInput f o =
      { s with
        gpr := s.gpr.mapIdx (fun j r => if f.hi then
          overwrite ((j = o.a.toNat ∨ j = o.x.toNat) ∨ j = o.y.toNat) .input (fun c => s.inBuf.getD c zero32) r
          else r) } := by
  unfold State.injectInput
  cases f.hi with
  | false => simp [mapIdx_same]
  | true =>
    simp only [if_true, State.injectInputAt_eq]
    congr 1
    apply List.ext_getElem?
    intro j
    simp only [List.getElem?_mapIdx]
    cases s.gpr[j]? with
    | none => rfl
    | some r => simp only [Option.map_some, overwrite_overwrite]

/-- The noise injection, as a map over the register file (R147). -/
theorem State.injectNoise_eq (s : State) (f : IoFlags) (o : Opnds) :
    s.injectNoise f o =
      { s with
        noisePos := noiseAfter s f
        gpr := s.gpr.mapIdx (fun j r => if f.hn then
          overwrite ((j = o.a.toNat ∨ j = o.x.toNat) ∨ j = o.y.toNat) .noise (fun _ => noiseStream s.noisePos) r
          else r) } := by
  unfold State.injectNoise noiseAfter
  cases f.hn with
  | false => simp [mapIdx_same]
  | true =>
    simp only [if_true, State.injectNoiseAt_eq, State.drawNoise]
    congr 1
    apply List.ext_getElem?
    intro j
    simp only [List.getElem?_mapIdx]
    cases s.gpr[j]? with
    | none => rfl
    | some r => simp only [Option.map_some, overwrite_overwrite]

/-- Both injections change the registers at A, X and Y as the rules say, and the noise position (R146, R147). -/
theorem State.inject_eq (s : State) (f : IoFlags) (o : Opnds) :
    s.inject f o = { s with gpr := injectedRegs s f o, noisePos := noiseAfter s f } := by
  unfold State.inject
  rw [State.injectNoise_eq, State.injectInput_eq]
  simp only [noiseAfter]
  congr 1
  apply List.ext_getElem?
  intro j
  simp only [List.getElem?_mapIdx, injectedRegs]
  cases s.gpr[j]? with
  | none => rfl
  | some r =>
    obtain ⟨k, v, io⟩ := r
    simp only [Option.map_some, overwrite, injectedValue, or_assoc]
    by_cases hp : j = o.a.toNat ∨ j = o.x.toNat ∨ j = o.y.toNat
    · cases f.hi <;> cases f.hn <;> by_cases h1 : k = .input <;> by_cases h2 : k = .noise <;>
        simp_all
    · simp [hp]

@[simp] theorem length_injectedRegs (s : State) (f : IoFlags) (o : Opnds) :
    (injectedRegs s f o).length = s.gpr.length := by
  simp [injectedRegs]

/-- Injections change values only: kind and channel of every register stay (R21). -/
theorem getElem?_injectedRegs_kind_io (s : State) (f : IoFlags) (o : Opnds) (j : Nat) :
    ((injectedRegs s f o)[j]?).map (fun r => (r.kind, r.io)) = (s.gpr[j]?).map (fun r => (r.kind, r.io)) := by
  simp only [injectedRegs, List.getElem?_mapIdx]
  cases s.gpr[j]? with
  | none => rfl
  | some r => simp only [Option.map_some]; split <;> rfl

/-- A register at an operand position after the injections. -/
theorem State.reg_inject (s : State) (f : IoFlags) (o : Opnds) (p : RegIdx) (hp : p = o.a ∨ p = o.x ∨ p = o.y) :
    (s.inject f o).reg p = { s.reg p with value := injectedValue s f (s.reg p) } := by
  have hp' : p.toNat = o.a.toNat ∨ p.toNat = o.x.toNat ∨ p.toNat = o.y.toNat := by
    rcases hp with h | h | h <;> simp [h]
  rw [State.reg_eq, State.reg_eq, State.inject_eq]
  simp only [injectedRegs, List.getElem?_mapIdx]
  cases s.gpr[p.toNat]? with
  | none => simp [injectedValue, absentRecord]
  | some r => simp [hp']

/-- The source values an operation sees are those after the injections (R148). -/
theorem State.sources_inject (s : State) (f : IoFlags) (o : Opnds) :
    (s.inject f o).sources o = sourcesOf s f o := by
  simp [State.sources, State.value, sourcesOf, State.reg_inject]

/-- Injections keep the kind of every register, as an operation sees it (R21). -/
theorem State.kind_injected (s : State) (f : IoFlags) (o : Opnds) (j : RegIdx) :
    (State.reg { s with gpr := injectedRegs s f o, noisePos := noiseAfter s f } j).kind = (s.reg j).kind := by
  have h := getElem?_injectedRegs_kind_io s f o j.toNat
  rw [State.reg_eq, State.reg_eq]
  simp only
  cases h1 : s.gpr[j.toNat]? <;> cases h2 : (injectedRegs s f o)[j.toNat]? <;> simp_all

/-- A register file with the kinds and channels of the state's has its channels. -/
theorem State.io_of_same (s : State) (j : RegIdx) (g : List RegRecord)
    (h : (g[j.toNat]?).map (fun r => (r.kind, r.io)) = (s.gpr[j.toNat]?).map (fun r => (r.kind, r.io))) :
    ((g[j.toNat]?).getD absentRecord).io = (s.reg j).io := by
  rw [State.reg_eq]
  cases h1 : s.gpr[j.toNat]? <;> cases h2 : g[j.toNat]? <;> simp_all

/-! ### The common steps -/

/-- An instruction whose operands and channels exist executes: injections, operation, count, publication (R142). -/
theorem executed_ready {s : State} {f : IoFlags} {o : Opnds} (h : s.Ready f o)
    (operation : Sources → State → State) :
    executed f o operation s =
      .next ((operation (sourcesOf s f o) { s with gpr := injectedRegs s f o, noisePos := noiseAfter s f }).count.publish
        f o) := by
  unfold executed
  rw [h.1, h.2, State.sources_inject, State.inject_eq]
  rfl

/-- When an instruction executes, its operands and channels exist, and the next state is the one of R142. -/
theorem executed_next {s t : State} {f : IoFlags} {o : Opnds} {operation : Sources → State → State}
    (h : executed f o operation s = .next t) :
    s.Ready f o ∧
      t = (operation (sourcesOf s f o) { s with gpr := injectedRegs s f o, noisePos := noiseAfter s f }).count.publish
        f o := by
  have hr : s.Ready f o := by
    unfold executed at h
    constructor
    · cases ho : s.operandsExist o with
      | true => rfl
      | false => simp [ho] at h
    · cases ho : s.operandsExist o <;> cases hc : s.channelsExist f o <;> simp [ho, hc] at h ⊢
  rw [executed_ready hr] at h
  exact ⟨hr, (Host.Outcome.next.inj h).symm⟩

/-- An instruction never faults (R250). -/
theorem executed_no_fault (s : State) (f : IoFlags) (o : Opnds) (operation : Sources → State → State) (e : Fault) :
    executed f o operation s ≠ .fault e :=
  nomatch e

/-- R, of an instruction whose operands exist, after the injections and a write of `v` to it. -/
theorem getElem?_dest {s : State} {f : IoFlags} {o : Opnds} (h : s.operandsExist o = true) (v : F32) :
    (writeValue (injectedRegs s f o) o.r.toNat v)[o.r.toNat]? = some { s.reg o.r with value := v } := by
  have hlt : o.r.toNat < s.gpr.length := by
    simp only [State.operandsExist, Bool.and_eq_true, State.hasReg_iff] at h
    exact h.1.1.1
  rw [getElem?_writeValue, State.reg_eq]
  simp only [injectedRegs, List.getElem?_mapIdx, List.getElem?_eq_getElem hlt, Option.map_some, Option.getD_some, if_true]
  split <;> rfl

/-- Publication changes the output buffer only (R150). -/
theorem State.publish_eq (s : State) (f : IoFlags) (o : Opnds) :
    s.publish f o =
      { s with outBuf := if f.ho then s.outBuf.set (s.reg o.r).io (s.value o.r) else s.outBuf } := by
  unfold State.publish State.setOut
  split <;> rfl

end Sys2Proof.Machine
end

