-- ==== Sys2Proof/Laws/PerInstr.lean ====
section
/-! SUPPORT. Statements made for each instruction: the reserved bits of every encoded instruction are 0 and its opcode field
holds its number (`30_encoding.md` R92, R94). -/

namespace Sys2Proof

/-- The reserved field of a packed word is 0 (R94). -/
theorem fieldRsv_packWord (op : BitVec 5) (f : IoFlags) (o : Opnds) : fieldRsv (packWord op f o) = 0 := by
  apply BitVec.eq_of_getLsbD_eq
  intro i hi
  simp only [fieldRsv, packWord, BitVec.getLsbD_extractLsb', BitVec.getLsbD_append]
  interval_cases i <;> simp

/-- The opcode field of a packed word is the one packed (R91). -/
theorem fieldOp_packWord (op : BitVec 5) (f : IoFlags) (o : Opnds) : fieldOp (packWord op f o) = op := by
  apply BitVec.eq_of_getLsbD_eq
  intro i hi
  simp only [fieldOp, packWord, BitVec.getLsbD_extractLsb', BitVec.getLsbD_append]
  interval_cases i <;> simp

end Sys2Proof

namespace Sys2Proof.Laws.OpcodeField

/-- An encoded instruction has its opcode number in the opcode field and zeros in the reserved field. -/
def Statement (i : Instr) : Prop := fieldOp (encode i) = i.opcode ∧ fieldRsv (encode i) = 0

/-- The statement for any instruction, from the two facts about packed words. -/
theorem of_packWord (i : Instr) : Statement i :=
  ⟨fieldOp_packWord i.opcode i.flags i.opnds, fieldRsv_packWord i.opcode i.flags i.opnds⟩

theorem mac (f : IoFlags) (o : Opnds) : Statement (.mac f o) := of_packWord _
theorem macn (f : IoFlags) (o : Opnds) : Statement (.macn f o) := of_packWord _
theorem macint (f : IoFlags) (o : Opnds) : Statement (.macint f o) := of_packWord _
theorem macintw (f : IoFlags) (o : Opnds) : Statement (.macintw f o) := of_packWord _
theorem acc3 (f : IoFlags) (o : Opnds) : Statement (.acc3 f o) := of_packWord _
theorem macmv (f : IoFlags) (o : Opnds) : Statement (.macmv f o) := of_packWord _
theorem macw (f : IoFlags) (o : Opnds) : Statement (.macw f o) := of_packWord _
theorem macwn (f : IoFlags) (o : Opnds) : Statement (.macwn f o) := of_packWord _
theorem skip (f : IoFlags) (o : Opnds) : Statement (.skip f o) := of_packWord _
theorem andxor (f : IoFlags) (o : Opnds) : Statement (.andxor f o) := of_packWord _
theorem tstneg (f : IoFlags) (o : Opnds) : Statement (.tstneg f o) := of_packWord _
theorem limit (f : IoFlags) (o : Opnds) : Statement (.limit f o) := of_packWord _
theorem limitn (f : IoFlags) (o : Opnds) : Statement (.limitn f o) := of_packWord _
theorem log (f : IoFlags) (o : Opnds) : Statement (.log f o) := of_packWord _
theorem exp (f : IoFlags) (o : Opnds) : Statement (.exp f o) := of_packWord _
theorem interp (f : IoFlags) (o : Opnds) : Statement (.interp f o) := of_packWord _
theorem endPass : Statement .endPass := of_packWord _
theorem idelay (f : IoFlags) (o : Opnds) : Statement (.idelay f o) := of_packWord _
theorem xdelay (f : IoFlags) (o : Opnds) : Statement (.xdelay f o) := of_packWord _

end Sys2Proof.Laws.OpcodeField
end

