-- ==== Sys2Proof/Laws/Step.lean ====
section
/-! SUPPORT. The step: the common shape of every instruction but END, what a step inside and outside a tick is, and where the
pass position goes. -/

namespace Sys2Proof.Machine

/-- The operation of an instruction between its injections and its count; END has none (R156). -/
def operationOf (i : Instr) (l : Sources) : State → State :=
  match i with
  | .mac _ o | .macint _ o => saturating o.r (sumProduct l)
  | .macn _ o => saturating o.r (diffProduct l)
  | .acc3 _ o => saturating o.r (sumThree l)
  | .macw _ o | .macintw _ o => storing o.r (narrow (wrap (sumProduct l)))
  | .macwn _ o => storing o.r (narrow (wrap (diffProduct l)))
  | .macmv _ o => fun t => (t.setAcc (add64 t.acc (mul64 (widen l.x) (widen l.y)))).setValue o.r l.a
  | .andxor _ o => fun t => t.setValue o.r (andXor l)
  | .tstneg _ o => storing o.r (testNegate l)
  | .limit _ o => storing o.r (limitAbove l)
  | .limitn _ o => storing o.r (limitBelow l)
  | .interp _ o => storing o.r (crossfade l)
  | .log _ o => storing o.r (narrow (interpolate (logTable (tableExponent l.x)) l.a))
  | .exp _ o => storing o.r (narrow (interpolate (expTable (tableExponent l.x)) l.a))
  | .skip _ _ => fun t => if int32 l.x = t.cc.code then t.setSkip (int32 l.y) else t
  | .idelay _ o => delayAccess Config.itramCap State.itram State.setItram o l
  | .xdelay _ o => delayAccess Config.xtramCap State.xtram State.setXtram o l
  | .endPass => id

/-- Every instruction but END is the common steps around its operation (R142). -/
theorem exec_executed (i : Instr) (h : i ≠ .endPass) (s : State) :
    exec i s = executed i.flags i.opnds (operationOf i) s := by
  cases i <;> first | rfl | exact absurd rfl h

/-- A slot of a tick (R142 to R145). -/
theorem step_inTick {s : State} {w : InstrWord} (ht : s.inTick = true) (hf : s.fetch = some w) :
    step s =
      if s.skipcnt ≠ 0 then .next s.skipSlot
      else match decode w with
        | .error _ => .refused .illFormedWord
        | .ok i => settle (exec i s) := by
  simp only [step, ht, hf, if_true] <;> rfl

/-- Between ticks the step is the host's (R74). -/
theorem step_idle {s : State} (ht : s.inTick = false) : step s = hostStep s := by
  simp [step, ht]

/-- The host's step when a transaction is pending. -/
theorem hostStep_cons {s : State} {c : HostCmd} {rest : List HostCmd} (h : s.hostQueue = c :: rest) :
    hostStep s = perform c { s with hostQueue := rest } := by
  simp [hostStep, h, State.dequeue]

/-- The pass position stays inside the list (R143, R145). -/
theorem nextPc_lt {n pc : Nat} (h : pc < n) : nextPc n pc < n := by
  unfold nextPc
  split <;> omega

/-- What a completed step inside a tick came from: a skipped slot, or a decoded instruction and what follows it. -/
theorem step_inTick_next {s t : State} (ht : s.inTick = true) (h : step s = .next t) :
    ∃ w, s.fetch = some w ∧
      ((s.skipcnt ≠ 0 ∧ t = s.skipSlot) ∨
        (s.skipcnt = 0 ∧ ∃ i u, decode w = .ok i ∧ exec i s = .next u ∧ t = u.afterExec)) := by
  cases hf : s.fetch with
  | none => simp [step, ht, hf] at h
  | some w =>
    refine ⟨w, rfl, ?_⟩
    rw [step_inTick ht hf] at h
    by_cases hk : s.skipcnt = 0
    · refine Or.inr ⟨hk, ?_⟩
      simp only [hk, ne_eq, not_true_eq_false, if_false] at h
      cases hd : decode w with
      | error e => simp [hd] at h
      | ok i =>
        simp only [hd] at h
        cases hx : exec i s with
        | next u =>
          rw [hx] at h
          exact ⟨i, u, rfl, hx, (Host.Outcome.next.inj h).symm⟩
        | fault r => nomatch r
        | refused r => simp [hx, settle] at h
    · simp only [ne_eq, hk, not_false_eq_true, if_true] at h
      exact Or.inl ⟨hk, (Host.Outcome.next.inj h).symm⟩

end Sys2Proof.Machine
end

