-- ==== Sys2Proof/Tests/Slice0.lean ====
section
/-! SUPPORT. The model's own tests: words written out from the spec's encoding, ill-formed terms that each check refuses, one
or two vectors of `spec/95_test_vectors.md` or of a rule's example for each instruction, and for every statement with
hypotheses a witness that meets them. -/

namespace Sys2Proof.Tests

-- One theorem after another: `decide +kernel` waits for the kernel, and forty waiting threads need more memory than there is.
set_option Elab.async false

open Sys2Proof.Machine

/-! ### Decoding: every opcode, words written out from R91 and R92 -/

def noFlags : IoFlags := ⟨false, false, false⟩
/-- R = 123, A = 456, X = 789, Y = ABC, as the low twelve digits of the word. -/
def fourIndices : Opnds := ⟨0x123, 0x456, 0x789, 0xABC⟩

theorem test_decode_mac : decode 0x0000123456789ABC#64 = .ok (.mac noFlags fourIndices) := by decide
theorem test_decode_macn : decode 0x0800123456789ABC#64 = .ok (.macn noFlags fourIndices) := by decide
theorem test_decode_macint : decode 0x1000123456789ABC#64 = .ok (.macint noFlags fourIndices) := by decide
theorem test_decode_macintw : decode 0x1800123456789ABC#64 = .ok (.macintw noFlags fourIndices) := by decide
theorem test_decode_acc3 : decode 0x2000123456789ABC#64 = .ok (.acc3 noFlags fourIndices) := by decide
theorem test_decode_macmv : decode 0x2800123456789ABC#64 = .ok (.macmv noFlags fourIndices) := by decide
theorem test_decode_macw : decode 0x3000123456789ABC#64 = .ok (.macw noFlags fourIndices) := by decide
theorem test_decode_macwn : decode 0x3800123456789ABC#64 = .ok (.macwn noFlags fourIndices) := by decide
theorem test_decode_skip : decode 0x4000123456789ABC#64 = .ok (.skip noFlags fourIndices) := by decide
theorem test_decode_andxor : decode 0x4800123456789ABC#64 = .ok (.andxor noFlags fourIndices) := by decide
theorem test_decode_tstneg : decode 0x5000123456789ABC#64 = .ok (.tstneg noFlags fourIndices) := by decide
theorem test_decode_limit : decode 0x5800123456789ABC#64 = .ok (.limit noFlags fourIndices) := by decide
theorem test_decode_limitn : decode 0x6000123456789ABC#64 = .ok (.limitn noFlags fourIndices) := by decide
theorem test_decode_log : decode 0x6800123456789ABC#64 = .ok (.log noFlags fourIndices) := by decide
theorem test_decode_exp : decode 0x7000123456789ABC#64 = .ok (.exp noFlags fourIndices) := by decide
theorem test_decode_interp : decode 0x7800123456789ABC#64 = .ok (.interp noFlags fourIndices) := by decide
theorem test_decode_end : decode 0x8000000000000000#64 = .ok .endPass := by decide
theorem test_decode_idelay : decode 0x8800123456789ABC#64 = .ok (.idelay noFlags fourIndices) := by decide
theorem test_decode_xdelay : decode 0x9000123456789ABC#64 = .ok (.xdelay noFlags fourIndices) := by decide

/-- The three flags, bits 58, 57, 56, one at a time (R91). -/
theorem test_decode_flags :
    decode 0x0C00004004005006#64 = .ok (.macn ⟨true, false, false⟩ ⟨4, 4, 5, 6⟩) ∧
    decode 0x0A00004004005006#64 = .ok (.macn ⟨false, true, false⟩ ⟨4, 4, 5, 6⟩) ∧
    decode 0x0900004004005006#64 = .ok (.macn ⟨false, false, true⟩ ⟨4, 4, 5, 6⟩) := by decide

/-- R96: the first and the last opcode number that names no instruction. -/
theorem test_decode_illegal_opcode :
    decode 0x9800000000000000#64 = .error .illegalOpcode ∧ decode 0xF800000000000000#64 = .error .illegalOpcode := by decide

/-- R94: the lowest and the highest reserved bit. -/
theorem test_decode_reserved :
    decode 0x0001000000000000#64 = .error .reservedBits ∧ decode 0x0080000000000000#64 = .error .reservedBits := by decide

/-- R95: an END word with an index or a flag. -/
theorem test_decode_end_fields :
    decode 0x8000000000000001#64 = .error .endFields ∧ decode 0x8100000000000000#64 = .error .endFields := by decide

/-- R117: the word and the records of the worked example. -/
theorem test_encode_example :
    encode (.mac noFlags ⟨4, 4, 5, 6⟩) = 0x0000004004005006#64 ∧
    encodeRecord ⟨.static, 0x3F000000#32, 0⟩ = 0x000000003F000000#64 ∧
    decodeRecord 0x4000000100000000#64 = some ⟨.output, 0#32, 1⟩ := by decide

/-- W10: an illegal kind code and a reserved bit of a record. -/
theorem test_record_refused :
    decodeRecord 0xB000000000000000#64 = none ∧ decodeRecord 0x0001000000000000#64 = none := by decide

/-! ### Well-formedness: one ill-formed term for each check of R112 -/

/-- Pseudo-registers, then 4 Static, 5 Input (channel 0), 6 Noise, 7 Output (channel 0). -/
def demoRegs : List RegRecord :=
  pseudoRegisters ++ [⟨.static, 0x3F000000#32, 0⟩, ⟨.input, 0#32, 0⟩, ⟨.noise, 0#32, 0⟩, ⟨.output, 0#32, 0⟩]

/-- A well-formed image over `demoRegs` with the given words. -/
def demoImage (words : List InstrWord) : ProgramImage := ⟨demoRegs, words, 4, 4, [], pseudoSymbols⟩

/-- `macn o, s, i, n` with all three flags, then END. -/
def demoWords : List InstrWord := [0x0F00007004005006#64, endWord]

theorem test_wf_accepts : (demoImage demoWords).wf 1 = true := by decide

theorem test_w1_refuses_no_words : (demoImage []).checkLength = false := by decide

theorem test_w2_refuses_missing_marker :
    ProgramImage.checkRegisters { demoImage demoWords with gpr := demoRegs.drop 1 } = false := by decide

theorem test_w3_refuses_illegal_word : (demoImage [0x9800000000000000#64, endWord]).checkWords = false := by decide

theorem test_w4_refuses_index :
    Instr.wf (demoImage demoWords).kinds (.mac noFlags ⟨4, 4, 4, 8⟩) = false ∧
    Opnds.inRange (demoImage demoWords).kinds ⟨4, 4, 4, 8⟩ = false := by decide

theorem test_w5_refuses_input_destination :
    Opnds.destOk (demoImage demoWords).kinds ⟨5, 4, 4, 4⟩ = false ∧
    Instr.wf (demoImage demoWords).kinds (.mac noFlags ⟨5, 4, 4, 4⟩) = false := by decide

theorem test_w6_refuses_flags :
    Instr.wf (demoImage demoWords).kinds (.mac noFlags ⟨7, 4, 4, 4⟩) = false ∧
    Instr.wf (demoImage demoWords).kinds (.mac ⟨false, true, false⟩ ⟨7, 4, 4, 4⟩) = true := by decide

theorem test_w7_refuses_channel :
    ProgramImage.checkChannels 1 { demoImage demoWords with gpr := demoRegs ++ [⟨.input, 0#32, 1⟩] } = false ∧
    ProgramImage.checkChannels 1 { demoImage demoWords with gpr := demoRegs ++ [⟨.static, 0#32, 1⟩] } = false := by decide

theorem test_w8_refuses_no_final_end : (demoImage [endWord, 0x0000004004004004#64]).checkFinalEnd = false := by decide

theorem test_w9_refuses_sizes :
    ProgramImage.checkSizes { demoImage demoWords with itramSize := 0 } = false ∧
    ProgramImage.checkSizes { demoImage demoWords with xtramSize := 48001 } = false := by decide

theorem test_w10_refuses_record : RawImage.unpack ⟨[0xB000000000000000#64], demoWords, 4, 4, [], []⟩ = none := by decide

theorem test_w11_refuses_double_name :
    ProgramImage.checkNames { demoImage demoWords with symbols := pseudoSymbols ++ [("at".toList, 4)] } = false := by decide

/-! ### One step of each instruction -/

/-- Registers 4, 5, 6, 7 of kind Static with the given values. -/
def loadedRegs (r a x y : F32) : List RegRecord :=
  pseudoRegisters ++ [⟨.static, r, 0⟩, ⟨.static, a, 0⟩, ⟨.static, x, 0⟩, ⟨.static, y, 0⟩]

/-- A state with those registers, everything else as after reset. -/
def withValues (r a x y : F32) : State := { State.reset with gpr := loadedRegs r a x y }

/-- R = 4, A = 5, X = 6, Y = 7. -/
def plain : Opnds := ⟨4, 5, 6, 7⟩

/-- What a one-instruction experiment leaves in R, `acc` and `cc`. -/
def result (i : Instr) (s : State) : Option (F32 × F64 × CondCode) :=
  match exec i s with
  | .next t => some (t.value 4, t.acc, t.cc)
  | .fault _ => none
  | .refused _ => none

/-- What an instruction leaves in a projection of the state. -/
def leaves {α : Type} (g : State → α) (i : Instr) (s : State) : Option α :=
  match exec i s with
  | .next t => some (g t)
  | .fault _ => none
  | .refused _ => none


/-- R170, the source's "MAC end-to-end". -/
theorem test_mac :
    result (.mac noFlags plain) (withValues 0#32 0#32 0x3F000000#32 0x3F000000#32) =
      some (0x3E800000#32, 0x3FD0000000000000#64, .pos) := by decide +kernel

/-- R171, its example. -/
theorem test_macn :
    result (.macn noFlags plain) (withValues 0#32 0#32 0x3F000000#32 0x3F000000#32) =
      some (0xBE800000#32, 0xBFD0000000000000#64, .neg) := by decide +kernel

/-- R172: 0 + 3*2 is clipped, not truncated. -/
theorem test_macint :
    result (.macint noFlags plain) (withValues 0#32 0#32 0x40400000#32 0x40000000#32) =
      some (0x3F800000#32, 0x4018000000000000#64, .sat) := by decide +kernel

/-- R173, its first example. -/
theorem test_acc3 :
    result (.acc3 noFlags plain) (withValues 0#32 0x3F000000#32 0x3F000000#32 0x3F000000#32) =
      some (0x3F800000#32, 0x3FF8000000000000#64, .sat) := by decide +kernel

/-- R200, its example; `cc` stays. -/
theorem test_macw :
    result (.macw noFlags plain) { withValues 0#32 0x3F400000#32 0x3F000000#32 0x3F800000#32 with cc := .neg } =
      some (0xBF400000#32, 0xBFE8000000000000#64, .neg) := by decide +kernel

/-- R201, its example. -/
theorem test_macintw :
    result (.macintw noFlags plain) (withValues 0#32 0xBF000000#32 0x3F800000#32 0xBF400000#32) =
      some (0x3F400000#32, 0x3FE8000000000000#64, .zero) := by decide +kernel

/-- R202, its example. -/
theorem test_macwn :
    result (.macwn noFlags plain) (withValues 0#32 0x3F400000#32 0x3F000000#32 0xBF800000#32) =
      some (0xBF400000#32, 0xBFE8000000000000#64, .zero) := by decide +kernel

/-- R203, its example. -/
theorem test_macmv :
    result (.macmv noFlags plain) { withValues 0#32 0x3DCCCCCD#32 0x3F000000#32 0x3F000000#32 with acc := 0x3FD0000000000000#64 } =
      some (0x3DCCCCCD#32, 0x3FE0000000000000#64, .zero) := by decide +kernel

/-- R210: 12 AND NOT 10, XOR 10 is 14; `acc` stays. -/
theorem test_andxor :
    result (.andxor noFlags plain) { withValues 0#32 0x41400000#32 0xC1300000#32 0x41200000#32 with acc := 5#64 } =
      some (0x41600000#32, 5#64, .zero) := by decide +kernel

/-- R211, its first example. -/
theorem test_tstneg :
    result (.tstneg noFlags plain) (withValues 0#32 0xBE4CCCCD#32 0x3F000000#32 0#32) =
      some (0xBF000000#32, 0xBFE0000000000000#64, .zero) := by decide +kernel

/-- R212, its first example. -/
theorem test_limit :
    result (.limit noFlags plain) (withValues 0#32 0x3E99999A#32 0x3E99999A#32 0x3F000000#32) =
      some (0x3F000000#32, 0x3FE0000000000000#64, .zero) := by decide +kernel

/-- R213: a = y selects y. -/
theorem test_limitn :
    result (.limitn noFlags plain) (withValues 0#32 0x3F000000#32 0x3F400000#32 0x3F000000#32) =
      some (0x3F000000#32, 0x3FE0000000000000#64, .zero) := by decide +kernel

/-- vector of section 2.4: a = 0.5, x = 2. -/
theorem test_log :
    result (.log noFlags plain) (withValues 0#32 0x3F000000#32 0x40000000#32 0#32) =
      some (0x3F338928#32, 0x3FE6712500000000#64, .zero) := by decide +kernel

/-- vector of section 2.4: a = 0.5, x = 2. -/
theorem test_exp :
    result (.exp noFlags plain) (withValues 0#32 0x3F000000#32 0x40000000#32 0#32) =
      some (0x3E780222#32, 0x3FCF004440000000#64, .zero) := by decide +kernel

/-- R214, its example. -/
theorem test_interp :
    result (.interp noFlags plain) (withValues 0#32 0x3E800000#32 0x3F000000#32 0x3F400000#32) =
      some (0x3F000000#32, 0x3FE0000000000000#64, .zero) := by decide +kernel

/-- R148: R is also A; the old value is read. -/
theorem test_mac_aliased :
    result (.mac noFlags ⟨4, 4, 6, 7⟩) (withValues 0x3F000000#32 0#32 0x3F000000#32 0x3F000000#32) =
      some (0x3F400000#32, 0x3FE8000000000000#64, .pos) := by decide +kernel

/-- R220: int(2.9) is `CC_POS`, so the count is taken. -/
theorem test_skip_taken :
    leaves (fun t => (t.skipcnt, t.icount)) (.skip noFlags plain)
      { withValues 0#32 0#32 0x4039999A#32 0x40400000#32 with cc := .pos } = some (3, 1#64) := by decide +kernel

/-- R220: 6 is `CC_POS` and `CC_NEG` together and matches neither. -/
theorem test_skip_no_mask :
    leaves (fun t => t.skipcnt) (.skip noFlags plain)
      { withValues 0#32 0#32 0x40C00000#32 0x40400000#32 with cc := .pos } = some 0 := by decide +kernel

/-- R223. -/
theorem test_end : leaves (fun t => (t.ended, t.icount)) .endPass State.reset = some (true, 1#64) := by decide +kernel

/-- R237, its example: a write at offset 0 with `wcur` 0. -/
theorem test_idelay_write :
    leaves (fun t => (t.itram, t.acc)) (.idelay noFlags ⟨2, 5, 3, 7⟩)
      { withValues 0#32 0x3F800000#32 0#32 0#32 with itram := ⟨[], 0, 0, 4⟩ } =
      some (⟨[(0, 0x3F800000#32)], 1, 0, 4⟩, 0#64) := by decide +kernel

/-- R237: with `rcur` 1 a read at offset 3 addresses (1 - 3) mod 4800 = 4798. -/
theorem test_idelay_read :
    leaves (fun t => (t.value 5, t.acc, t.itram.rcur)) (.idelay noFlags ⟨1, 5, 3, 7⟩)
      { withValues 0#32 0#32 0#32 0x40400000#32 with itram := ⟨[(4798, 0x3F000000#32)], 0, 1, 4⟩ } =
      some (0x3F000000#32, 0x3FE0000000000000#64, 2) := by decide +kernel

/-- R238, its example: a write at 47999 brings the cursor back to 0. -/
theorem test_xdelay_write :
    leaves (fun t => t.xtram) (.xdelay noFlags ⟨2, 5, 3, 7⟩)
      { withValues 0#32 0x3F800000#32 0#32 0#32 with xtram := ⟨[], 47999, 47999, 48000⟩ } =
      some ⟨[(47999, 0x3F800000#32)], 0, 47999, 48000⟩ := by decide +kernel

/-- R238, its example: a read at offset 1 from 47999 returns the element 47998. -/
theorem test_xdelay_read :
    leaves (fun t => (t.value 5, t.xtram.rcur)) (.xdelay noFlags ⟨1, 5, 3, 7⟩)
      { withValues 0#32 0#32 0#32 0x3F800000#32 with xtram := ⟨[(47998, 0x3F000000#32)], 0, 47999, 48000⟩ } =
      some (0x3F000000#32, 0) := by decide +kernel

/-- R8: ties go to the even last place (1 + 2^-24 down, 1 + 3*2^-24 up); half a last place above the greatest binary32 is an
infinity and the number before it is not; half the least subnormal number is 0. -/
theorem test_narrow_rounding :
    narrow 0x3FF0000010000000#64 = 0x3F800000#32 ∧ narrow 0x3FF0000030000000#64 = 0x3F800002#32 ∧
    narrow 0x47EFFFFFF0000000#64 = 0x7F800000#32 ∧ narrow 0x47EFFFFFEFFFFFFF#64 = 0x7F7FFFFF#32 ∧
    narrow 0x3690000000000000#64 = 0x00000000#32 ∧ narrow 0x3690000000000001#64 = 0x00000001#32 := by decide +kernel

/-- R8, R9: 1 + 2^-53 is a tie and stays 1; the next term above 2^-53 does not; 1 - 1 is +0.0; the greatest number doubled is
an infinity. -/
theorem test_arithmetic_rounding :
    add64 one64 0x3CA0000000000000#64 = one64 ∧ add64 one64 0x3CA0000000000001#64 = 0x3FF0000000000001#64 ∧
    sub64 one64 one64 = 0#64 ∧ mul64 0x7FEFFFFFFFFFFFFF#64 two64 = 0x7FF0000000000000#64 := by decide +kernel

/-- R10: truncation toward zero on both sides, and both ends of the range. -/
theorem test_int :
    int32 0x4039999A#32 = 2 ∧ int32 0xC039999A#32 = -2 ∧ int32 0x4EFFFFFF#32 = 2147483520 ∧ int32 0x4F000000#32 = 2147483647 ∧
    int32 0xCF000000#32 = -2147483648 ∧ int32 0xCF000001#32 = -2147483648 := by decide +kernel

/-- R146, R150: the input sample enters through X and R is published. -/
theorem test_injection_and_publication :
    leaves (fun t => (t.value 5, t.outBuf)) (.acc3 ⟨true, true, false⟩ ⟨7, 4, 5, 4⟩)
      { State.reset with gpr := demoRegs, inBuf := [0xBE800000#32] } = some (0xBE800000#32, [0x3F400000#32]) := by decide +kernel

/-! ### Loader, host and tick -/

/-- The example of R117, with a comment and capitals (R105). -/
def exampleText : Text := "static a=0 ; first\nSTATIC b=0.5\nstatic c=0.5\nmac a, a, b, c\nend".toList

theorem test_assemble_example :
    (match assemble 1 exampleText with
      | .accepted img => decide (img.imem = [0x0000004004005006#64, endWord] ∧
          img.gpr.drop 4 = [⟨.static, 0#32, 0⟩, ⟨.static, 0x3F000000#32, 0⟩, ⟨.static, 0x3F000000#32, 0⟩])
      | _ => false) = true := by decide +kernel

/-- R106, R25: a declared register holds the number of its declaration, and 0.0 without one, a Noise register too (R266). -/
theorem test_declared_values :
    (match assemble 1 "noise m\nstatic a=0.5\ntemp t\nend".toList with
      | .accepted img => decide (img.gpr.drop 4 = [⟨.noise, 0#32, 0⟩, ⟨.static, 0x3F000000#32, 0⟩, ⟨.temp, 0#32, 0⟩])
      | _ => false) = true := by decide +kernel

/-- The number 0.5 of a `noise` declaration is R106's or R266's value, and no third (log 31). -/
theorem test_declared_noise :
    declaredValue .noise (some ⟨false, 5, -1⟩) = 0x3F000000#32 ∨ declaredValue .noise (some ⟨false, 5, -1⟩) = 0#32 := by
  have h : Decimal.toF32 ⟨false, 5, -1⟩ = 0x3F000000#32 := by decide +kernel
  cases hk : Config.noiseNumberKept <;> simp [declaredValue, hk, h, zero32]

/-- R108: a token that is neither a register's name nor a number is not declared, whatever its characters; the tokens after it
are resolved all the same, so the literal 1 is a register. -/
theorem test_assemble_strange_tokens :
    assemble 1 "static a\nmac a, 9x, 0x10, 1\nend".toList =
      .failed [⟨.noError, none⟩, ⟨.varNotDeclared, some 2⟩, ⟨.varNotDeclared, some 2⟩] := by decide +kernel

/-- R110: no token, and two tokens, between commas (log 15). -/
theorem test_assemble_token_count :
    assemble 1 "static a\nmac a,,a,a\nmac a,a a,a,a\nend".toList =
      .failed [⟨.noError, none⟩, ⟨.syntaxNotValid, some 2⟩, ⟨.syntaxNotValid, some 3⟩] := by decide +kernel

/-- R255: diagnostics in row order, two for one line, and NoEndFound at the last non-blank line. -/
theorem test_assemble_diagnostics :
    assemble 1 "static a\nstatic a\n\nmac x, y, a, a\n".toList =
      .failed [⟨.noError, none⟩, ⟨.multipleVarDeclare, some 2⟩, ⟨.varNotDeclared, some 4⟩, ⟨.varNotDeclared, some 4⟩,
        ⟨.noEndFound, some 4⟩] := by decide +kernel

/-- A state with one transaction to perform. -/
def asked (c : HostCmd) : State := { State.reset with hostQueue := [c] }

/-- R77: an unknown name. -/
theorem test_unknown_name :
    (match step (asked (.setByName "q".toList 1#32)) with | .next t => decide (t.replies = [.notFound]) | _ => false) = true := by
  decide

/-- R262 (b): a tick after reset without a load. -/
theorem test_tick_not_loaded :
    (match step (asked (.tick [0#32])) with | .refused r => decide (r = .tickNotLoaded) | _ => false) = true := by decide

/-- A tick in its first slot over a program. -/
def ticking (words : List InstrWord) : State :=
  { State.reset with
    gpr := demoRegs, imem := words, itram := ⟨[], 0, 0, 4⟩, xtram := ⟨[], 0, 0, 4⟩, loadedOk := true, inTick := true }

/-- R151: END ends the tick and the answer is `OUT`. -/
theorem test_tick_ends :
    (match step (ticking [endWord]) with
      | .next t => decide (t.inTick = false ∧ t.replies = [.output [0#32]]) | _ => false) = true := by decide

/-- R144: an END that is skipped does not end the tick; the list wraps (R143). -/
theorem test_skipped_end :
    (match step { ticking [endWord] with skipcnt := -1 } with
      | .next t => decide (t.inTick = true ∧ t.skipcnt = -2 ∧ t.pc = 0 ∧ t.icount = 0#64) | _ => false) = true := by decide

/-- The state for one instruction word, with `step` running it as the first of a tick. -/
theorem test_withFetchWord :
    (match step (State.reset.withFetchWord 64 0x0000004004005006) with
      | .next t => decide (t.pc = 1 ∧ t.icount = 1#64) | _ => false) = true := by decide

/-! ### Witnesses: states and operands that meet the hypotheses of each statement -/

/-- `demoRegs` with a sample in `IN`; every flag set: R the Output 7, A the Static 4, X the Input 5, Y the Noise 6. -/
def demo : State := { State.reset with gpr := demoRegs, inBuf := [0xBE800000#32] }
def allFlags : IoFlags := ⟨true, true, true⟩
def mixed : Opnds := ⟨7, 4, 5, 6⟩

/-- A transfer of the highest channel number that fits (`RecordEncoding`). -/
theorem witness_RecordEncoding :
    (⟨.input, 0#32, 65535⟩ : RegRecord).io < 65536 ∧
    (decodeRecord 0xB000000000000000#64 = none ∧ 10 < ((0xB000000000000000#64 : RecordWord).extractLsb' 60 4).toNat) := by decide

/-- A word that decodes and one that does not (`DecoderReadsLayout`). -/
theorem witness_DecoderReadsLayout :
    decode 0x0F00007004005006#64 = .ok (.macn allFlags mixed) ∧ decode 0x9800000000000000#64 = .error .illegalOpcode := by decide

/-- The hypothesis of every result statement: all flags set, the highest register as R. -/
theorem witness_ready : demo.Ready allFlags mixed := ⟨by decide, by decide⟩

/-- A next state exists for an instruction whose operands and channels exist. -/
theorem completes (i : Instr) (hi : i ≠ .endPass) {s : State} (h : s.Ready i.flags i.opnds) : ∃ t, exec i s = .next t :=
  ⟨_, (exec_executed i hi s).trans (executed_ready h _)⟩

theorem witness_MacResult : demo.Ready allFlags mixed := witness_ready
theorem witness_MacnResult : demo.Ready allFlags mixed := witness_ready
theorem witness_MacintResult : demo.Ready allFlags mixed := witness_ready
theorem witness_Acc3Result : demo.Ready allFlags mixed := witness_ready
theorem witness_MacwResult : demo.Ready allFlags mixed := witness_ready
theorem witness_MacintwResult : demo.Ready allFlags mixed := witness_ready
theorem witness_MacwnResult : demo.Ready allFlags mixed := witness_ready
theorem witness_MacmvResult : demo.Ready allFlags mixed := witness_ready
theorem witness_AndxorResult : demo.Ready allFlags mixed := witness_ready
theorem witness_TstnegResult : demo.Ready allFlags mixed := witness_ready
theorem witness_LimitResult : demo.Ready allFlags mixed := witness_ready
theorem witness_LimitnResult : demo.Ready allFlags mixed := witness_ready
theorem witness_InterpResult : demo.Ready allFlags mixed := witness_ready
theorem witness_LogResult : demo.Ready allFlags mixed := witness_ready
theorem witness_ExpResult : demo.Ready allFlags mixed := witness_ready
theorem witness_SkipResult : demo.Ready allFlags mixed := witness_ready

/-- The three uses of R of a delay instruction: Read, Write, another kind; and a canonical buffer. -/
theorem witness_IdelayResult :
    (demo.Ready noFlags ⟨1, 4, 3, 4⟩ ∧ (demo.reg 1).kind = .read) ∧
    (demo.Ready noFlags ⟨2, 4, 3, 4⟩ ∧ (demo.reg 2).kind = .write ∧ demo.itram.buf.wf) ∧
    (demo.Ready allFlags mixed ∧ (demo.reg 7).kind ≠ .read ∧ (demo.reg 7).kind ≠ .write) :=
  ⟨⟨⟨by decide, by decide⟩, by decide⟩, ⟨⟨by decide, by decide⟩, by decide, Memory.wf_nil⟩, witness_ready, by decide,
    by decide⟩

theorem witness_XdelayResult :
    (demo.Ready noFlags ⟨1, 4, 3, 4⟩ ∧ (demo.reg 1).kind = .read) ∧
    (demo.Ready noFlags ⟨2, 4, 3, 4⟩ ∧ (demo.reg 2).kind = .write ∧ demo.xtram.buf.wf) ∧
    (demo.Ready allFlags mixed ∧ (demo.reg 7).kind ≠ .read ∧ (demo.reg 7).kind ≠ .write) :=
  ⟨⟨⟨by decide, by decide⟩, by decide⟩, ⟨⟨by decide, by decide⟩, by decide, Memory.wf_nil⟩, witness_ready, by decide,
    by decide⟩

/-- Both refusals, the first index past the file and the first channel past the buffer, and a completion. -/
theorem witness_InstructionStops :
    Instr.mac noFlags ⟨4, 4, 4, 8⟩ ≠ .endPass ∧ demo.operandsExist ⟨4, 4, 4, 8⟩ = false ∧
    (demo.operandsExist mixed = true ∧ State.channelsExist { demo with inBuf := [] } allFlags mixed = false) ∧
    demo.Ready allFlags mixed :=
  ⟨by decide, by decide, by decide, witness_ready⟩

/-- An executed instruction with every flag set; its Input, Noise and plain sources are not its destination. -/
theorem witness_RegisterFrame :
    (∃ t, exec (.mac allFlags mixed) demo = .next t) ∧
    (destination (.mac allFlags mixed) demo).map BitVec.toNat ≠ some 5 ∧
    demo.gpr[5]? = some ⟨.input, 0#32, 0⟩ ∧ demo.gpr[6]? = some ⟨.noise, 0#32, 0⟩ ∧
    demo.gpr[4]? = some ⟨.static, 0x3F000000#32, 0⟩ :=
  ⟨completes _ (by decide) witness_ready, by decide, by decide, by decide, by decide⟩

/-- An instruction that keeps `acc` and one that writes it, neither MACMV; and MACMV. -/
theorem witness_AccumulatorReadByMacmvOnly :
    (∃ t, exec (.andxor allFlags mixed) demo = .next t) ∧ writesAcc (.andxor allFlags mixed) demo = false ∧
    (∃ t, exec (.mac allFlags mixed) demo = .next t) ∧ writesAcc (.mac allFlags mixed) demo = true ∧
    (∀ f o, Instr.andxor allFlags mixed ≠ .macmv f o) :=
  ⟨completes _ (by decide) witness_ready, by decide, completes _ (by decide) witness_ready, by decide, fun _ _ h => nomatch h⟩

theorem witness_ConditionCodeReadBySkipOnly :
    (∃ t, exec (.macw allFlags mixed) demo = .next t) ∧ saturates (.macw allFlags mixed) = false ∧
    (∃ t, exec (.mac allFlags mixed) demo = .next t) ∧ saturates (.mac allFlags mixed) = true ∧
    (∀ f o, Instr.mac allFlags mixed ≠ .skip f o) :=
  ⟨completes _ (by decide) witness_ready, by decide, completes _ (by decide) witness_ready, by decide, fun _ _ h => nomatch h⟩

theorem witness_ExecutedInstructionsCount :
    (∃ t, exec .endPass demo = .next t) ∧
    State.inTick { ticking [endWord] with skipcnt := -1 } = true ∧
    (∃ t, step { ticking [endWord] with skipcnt := -1 } = .next t) :=
  ⟨⟨_, rfl⟩, rfl, ⟨_, rfl⟩⟩

theorem witness_OnlyDestinationPublishes :
    (∃ t, exec (.mac allFlags mixed) demo = .next t) ∧ (∃ t, exec (.mac noFlags plain) demo = .next t) :=
  ⟨completes _ (by decide) witness_ready, completes _ (by decide) ⟨by decide, by decide⟩⟩

/-- Sums at the ends of the range (1.0 and -1.0), next to them outside (1 + 2^-52 and its negative), and a NaN. -/
theorem witness_SaturatedResultInRange :
    saturates (.mac noFlags plain) = true ∧
    (leaves State.acc (.mac noFlags plain) (withValues 0#32 0x3F800000#32 0#32 0#32) = some one64 ∧
      le64 negOne64 one64 = true ∧ le64 one64 one64 = true) ∧
    (leaves State.acc (.mac noFlags plain) (withValues 0#32 0xBF800000#32 0#32 0#32) = some negOne64 ∧
      le64 negOne64 negOne64 = true ∧ le64 negOne64 one64 = true) ∧
    (leaves State.acc (.mac noFlags plain) (withValues 0#32 0x3F800000#32 0x32800000#32 0x32800000#32) =
      some 0x3FF0000000000001#64 ∧ lt64 one64 0x3FF0000000000001#64 = true) ∧
    (leaves State.acc (.macn noFlags plain) (withValues 0#32 0xBF800000#32 0x32800000#32 0x32800000#32) =
      some 0xBFF0000000000001#64 ∧ lt64 0xBFF0000000000001#64 negOne64 = true) := by decide +kernel

/-- A NaN widens to a NaN. -/
theorem num64_widen_nan : num64 (widen 0x7FC00000#32) = .nan := num64_nan64 _

/-- A sum that is a NaN. -/
theorem witness_SaturatedResultInRange_nan :
    ∃ t, exec (.mac noFlags plain) (withValues 0#32 0x7FC00000#32 0#32 0#32) = .next t ∧ isNan64 t.acc = true := by
  refine ⟨_, rfl, ?_⟩
  change isNan64 (add64 (widen 0x7FC00000#32) (mul64 (widen 0#32) (widen 0#32))) = true
  rw [add64, num64_widen_nan]
  exact decide_eq_true (num64_nan64 _)

/-- The edges of the ranges of `wrap`: 1.0 and the last value below 3.0, -3.0 and the first value below -1.0, 3.0, the first
value below -3.0, -1.0 (kept), a NaN. -/
theorem witness_WrapFolds :
    le64 one64 0x3FF0000000000000#64 = true ∧ lt64 0x4007FFFFFFFFFFFF#64 0x4008000000000000#64 = true ∧
    le64 0xC008000000000000#64 0xC008000000000000#64 = true ∧ lt64 0xBFF0000000000001#64 negOne64 = true ∧
    le64 0x4008000000000000#64 0x4008000000000000#64 = true ∧ lt64 0xC008000000000001#64 0xC008000000000000#64 = true ∧
    le64 one64 0xBFF0000000000000#64 = false ∧ lt64 0xBFF0000000000000#64 negOne64 = false ∧
    isNan64 0x7FF0000000000001#64 = true := by decide +kernel

/-- The least and the greatest finite data, the infinity, the first NaN, of both formats; and the overflow bound of narrowing,
2^128 - 2^103, with the number before it. -/
theorem witness_NarrowOfWiden :
    isNan32 0x00000001#32 = false ∧ isNan32 0x7F800000#32 = false ∧ isNan32 0x7F800001#32 = true ∧
    isNan64 0x7FF0000000000001#64 = true ∧
    finite32 0x80000000#32 = true ∧ finite32 0x00000001#32 = true ∧ finite32 0x7F7FFFFF#32 = true ∧ finite32 0x7F800000#32 = false ∧
    finite64 0x8000000000000001#64 = true ∧ finite64 0x7FEFFFFFFFFFFFFF#64 = true ∧
    finite64 0x47EFFFFFEFFFFFFF#64 = true ∧ finite64 0x47EFFFFFF0000000#64 = true := by decide +kernel

/-- Finite data with an exact zero sum and an exact zero difference (1 and -1, 1 and 1, the two zeros), the greatest finite
data, equal and opposite infinities, an infinity with a zero and with the least number, and the first NaN. -/
theorem witness_ArithmeticRoundsOnce :
    (finite64 one64 = true ∧ finite64 negOne64 = true ∧ finite64 0x7FEFFFFFFFFFFFFF#64 = true ∧
      finite64 0#64 = true ∧ finite64 0x8000000000000000#64 = true) ∧
    (value64 one64 + value64 negOne64 = 0 ∧ value64 one64 - value64 one64 = 0 ∧
      value64 0#64 + value64 0x8000000000000000#64 = 0) ∧
    (finite32 0x7F7FFFFF#32 = true ∧ finite32 0x80000001#32 = true) ∧
    (infinite64 0x7FF0000000000000#64 = true ∧ infinite64 0xFFF0000000000000#64 = true) ∧
    (isNan64 0x8000000000000000#64 = false ∧ b64.magnitude (0x8000000000000000#64 : F64).toNat = 0) ∧
    (isNan64 0x0000000000000001#64 = false ∧ b64.magnitude (0x0000000000000001#64 : F64).toNat ≠ 0) ∧
    isNan64 0x7FF0000000000001#64 = true := by decide +kernel

/-- A NaN, the magnitudes next to 1, both infinities, finite numbers on both sides of each end of the range, and -0.0; and the integers
next to the bound of the last clause. -/
theorem witness_IntegerConversion :
    isNan32 0x7FC00000#32 = true ∧ (lt32 negOne32 0x3F7FFFFF#32 = true ∧ lt32 0x3F7FFFFF#32 one32 = true) ∧
    (lt32 negOne32 0xBF7FFFFF#32 = true ∧ lt32 0xBF7FFFFF#32 one32 = true) ∧
    (0x7F800000 ≤ (0x7F800000#32 : F32).toNat % 2 ^ 31 ∧ isNan32 0x7F800000#32 = false) ∧
    (0x7F800000 ≤ (0xFF800000#32 : F32).toNat % 2 ^ 31 ∧ isNan32 0xFF800000#32 = false) ∧
    (finite32 0x4EFFFFFF#32 = true ∧ finite32 0x4F000000#32 = true ∧ ¬ value32 0x4F000000#32 < 0) ∧
    (finite32 0xCF000000#32 = true ∧ finite32 0xCF000001#32 = true ∧ value32 0xCF000001#32 < 0) ∧
    (finite32 0x80000000#32 = true ∧ ¬ value32 0x80000000#32 < 0) ∧
    (isNan64 0x7FF8000000000000#64 = true ∧ infinite64 0xFFF0000000000000#64 = true ∧
      finite64 0x41DFFFFFFFFFFFFF#64 = true ∧ finite64 0xC1E0000000200000#64 = true) ∧
    ((0 : Int).natAbs < 2 ^ 53 ∧ (9007199254740991 : Int).natAbs < 2 ^ 53 ∧ (-9007199254740991 : Int).natAbs < 2 ^ 53) := by
  decide +kernel

/-- Declared sizes 1 and 4 with offsets below, at and above the ends of the range. -/
theorem witness_DynamicIndicesInRange :
    1 ≤ 1 ∧ isNan32 0x7FC00000#32 = true ∧ int32 0xBF800000#32 < 0 ∧ ((4 : Nat) : Int) ≤ int32 0x40800000#32 ∧
    (0 ≤ int32 0x40400000#32 ∧ int32 0x40400000#32 < 4) ∧ (0 ≤ int32 0x00000000#32 ∧ int32 0x00000000#32 < 1) := by
  decide +kernel

theorem witness_TableProperties :
    1 ≤ 30 ∧ 30 ≤ 31 ∧ 31 < 32 ∧ (logTable 30 = logTable 30 ∨ logTable 30 = expTable 30) ∧ 0 < 30 ∧ 30 < 31 :=
  ⟨by decide, by decide, by decide, .inl rfl, by decide, by decide⟩

theorem witness_RawSamplesAreNearest : 1 ≤ 31 ∧ 31 ≤ 31 ∧ 1 ≤ 1 ∧ 1 ≤ 31 := by decide

/-- A slot that goes on, one that ends the tick, and one that is refused (an index past the register file). -/
theorem witness_StepRunsDecodedInstruction :
    (let s := ticking [0x0000004004004004#64, endWord];
      s.inTick = true ∧ s.skipcnt = 0 ∧ s.imem[s.pc]? = some 0x0000004004004004#64 ∧
      decode 0x0000004004004004#64 = .ok (.mac noFlags ⟨4, 4, 4, 4⟩) ∧
      ∃ t, exec (.mac noFlags ⟨4, 4, 4, 4⟩) s = .next t) ∧
    (let s := ticking [endWord];
      s.inTick = true ∧ s.skipcnt = 0 ∧ s.imem[s.pc]? = some endWord ∧ decode endWord = .ok .endPass ∧
      ∃ t, exec .endPass s = .next t) ∧
    exec (.mac noFlags ⟨8, 4, 4, 4⟩) (ticking [endWord]) = .refused .operandIndexOutOfRange :=
  ⟨⟨rfl, rfl, rfl, by decide, completes _ (by decide) ⟨by decide, by decide⟩⟩, ⟨rfl, rfl, rfl, by decide, ⟨_, rfl⟩⟩, rfl⟩

theorem witness_SkippedSlotDoesNothingElse :
    let s : State := { ticking [endWord] with skipcnt := -1 }
    s.inTick = true ∧ s.skipcnt ≠ 0 ∧ s.imem[s.pc]? = some endWord := by decide

/-- An accepted program, no tick in progress, and one transaction. -/
def accepted (c : HostCmd) : State := { ticking demoWords with inTick := false, hostQueue := [c] }

theorem witness_TickStart :
    (accepted (.tick [0#32])).inTick = false ∧ (accepted (.tick [0#32])).hostQueue = [.tick [0#32]] ∧
    (accepted (.tick [0#32])).loadedOk = true ∧
    (accepted (.tick [0#32])).imageWf = true ∧ [0#32].length = (accepted (.tick [0#32])).numChannels := by decide

/-- Each refused transaction: not loaded, ill-formed (no final END), a sample too many, the first index past the file,
an image that does not unpack, a reset with no channel, a name at the first index past the file. -/
theorem witness_RefusedTransactions :
    ((asked (.tick [0#32])).inTick = false ∧ (asked (.tick [0#32])).hostQueue = [.tick [0#32]] ∧
      (asked (.tick [0#32])).loadedOk = false) ∧
    State.imageWf { accepted (.tick [0#32]) with imem := [0x0000004004004004#64] } = false ∧
    ((accepted (.tick [0#32, 0#32])).imageWf = true ∧ [0#32, 0#32].length ≠ (accepted (.tick [0#32, 0#32])).numChannels) ∧
    (accepted (.write 8 0#32)).gpr.length ≤ 8 ∧ (accepted (.read 8)).gpr.length ≤ 8 ∧
    RawImage.unpack ⟨[0xB000000000000000#64], demoWords, 4, 4, [], []⟩ = none ∧
    ((asked (.reset 0)).inTick = false ∧ (asked (.reset 0)).hostQueue = [.reset 0]) ∧
    (let s : State := { accepted (.getByName "X".toList) with symbols := [("x".toList, 8)] };
      s.hostQueue = [.getByName "X".toList] ∧ lookupText s.symbols ("X".toList.map Char.toLower) = some 8 ∧
      s.gpr.length ≤ 8) := by decide

/-- The first channel number that a record has no room for, on a machine that has that channel, and the last one it has
room for; and as many registers as fit, and one more. -/
theorem witness_RefusedTransactions_capacity :
    (let img := (Loading.lines 65537 1 (splitOnChar '\n' "input i=65536\nend".toList) Loading.start).finish.img;
      ∃ r ∈ img.gpr, 65536 ≤ r.io) ∧
    (let img := (Loading.lines 65537 1 (splitOnChar '\n' "input i=65535\nend".toList) Loading.start).finish.img;
      ¬ ∃ r ∈ img.gpr, 65536 ≤ r.io) ∧
    4096 < (List.replicate 4097 absentRecord).length ∧ ¬ 4096 < (List.replicate 4096 absentRecord).length := by
  refine ⟨by decide +kernel, by decide +kernel, ?_, ?_⟩ <;> rw [List.length_replicate] <;> omega

/-- A well-formed image in a tick, with the invariant. -/
theorem witness_invariant : (ticking demoWords).Inv where
  channels := by decide
  inBuf := rfl
  outBuf := rfl
  itram := ⟨Memory.wf_nil, by simp [ticking], by decide, by decide⟩
  xtram := ⟨Memory.wf_nil, by simp [ticking], by decide, by decide⟩
  image := fun _ => by decide
  tick := fun _ => by decide

theorem witness_TickWithoutSkipEnds :
    (ticking demoWords).Inv ∧ (ticking demoWords).inTick = true ∧ (ticking demoWords).skipcnt = 0 ∧
    ∀ w ∈ (ticking demoWords).imem, isSkip w = false :=
  ⟨witness_invariant, rfl, rfl, fun w hw => by
    have h : (demoWords.all fun w => !isSkip w) = true := by decide
    simpa using List.all_eq_true.mp h w hw⟩

theorem witness_TickStepNeverStops : (ticking demoWords).Inv ∧ (ticking demoWords).inTick = true :=
  ⟨witness_invariant, rfl⟩

theorem witness_StepKeepsInvariant :
    (ticking demoWords).Inv ∧ ∃ t, step (ticking demoWords) = .next t := by
  obtain ⟨t, ht⟩ := completes (.macn allFlags mixed) (by decide) (s := ticking demoWords) ⟨by decide, by decide⟩
  have hd : decode 0x0F00007004005006#64 = .ok (.macn allFlags mixed) := by decide
  refine ⟨witness_invariant, t.afterExec, ?_⟩
  rw [step_inTick (w := 0x0F00007004005006#64) rfl rfl, if_neg (by decide), hd]
  simp only [ht, settle]

/-- A step inside a tick. -/
theorem witness_TickKeepsProgram :
    (ticking [endWord]).inTick = true ∧ ∃ t, step (ticking [endWord]) = .next t := ⟨rfl, ⟨_, rfl⟩⟩

/-- As many slots as the counter says, and a negative counter. -/
theorem witness_SkippingPassesOverSlots :
    (let s : State := { ticking demoWords with skipcnt := 3 };
      s.inTick = true ∧ s.pc < s.imem.length ∧ ((3 : Nat) : Int) ≤ s.skipcnt) ∧
    (let s : State := { ticking demoWords with skipcnt := -1 };
      s.inTick = true ∧ s.pc < s.imem.length ∧ s.skipcnt < 0) := by decide

/-- The last register. -/
theorem witness_HostWriteSetsValue :
    (accepted (.write 7 1#32)).inTick = false ∧ (accepted (.write 7 1#32)).hostQueue = [.write 7 1#32] ∧
    (accepted (.write 7 1#32)).gpr[7]? = some ⟨.output, 0#32, 0⟩ := by decide

theorem witness_HostReadsChangeNothing :
    (accepted (.read 7)).inTick = false ∧ (accepted (.read 7)).gpr[7]? = some ⟨.output, 0#32, 0⟩ ∧
    (accepted .getCounter).hostQueue = [.getCounter] ∧ (accepted .getControls).hostQueue = [.getControls] ∧
    (accepted .getErrors).hostQueue = [.getErrors] ∧ State.reset.hostQueue = [] := by decide

/-- A name in capitals of a register that exists, and an unknown one. -/
theorem witness_NamedHostCalls :
    ((asked (.setByName "AT".toList 1#32)).inTick = false ∧
      (asked (.setByName "AT".toList 1#32)).hostQueue = [.setByName "AT".toList 1#32] ∧
      (asked (.getByName "AT".toList)).hostQueue = [.getByName "AT".toList]) ∧
    lookupText State.reset.symbols ("AT".toList.map Char.toLower) = some 3 ∧
    State.reset.gpr[3]? = some ⟨.atMark, 0#32, 0⟩ ∧
    lookupText State.reset.symbols ("q".toList.map Char.toLower) = none := by decide

/-- The transfer form of an image that passes every check: the pseudo-registers and END. -/
def smallestRaw : RawImage := ⟨pseudoRegisters.map encodeRecord, [endWord], 1, 48000, [], pseudoSymbols⟩
def smallestImage : ProgramImage := ⟨pseudoRegisters, [endWord], 1, 48000, [], pseudoSymbols⟩

theorem witness_LoadKeepsRunState :
    ((asked (.loadText "end".toList)).inTick = false ∧ (asked (.loadText "end".toList)).numChannels = 1 ∧
      (asked (.loadText "end".toList)).hostQueue = [.loadText "end".toList] ∧
      (asked (.loadImage smallestRaw)).hostQueue = [.loadImage smallestRaw]) ∧
    assemble 1 "end".toList = .accepted ⟨pseudoRegisters, [endWord], 4800, 48000, [], pseudoSymbols⟩ ∧
    smallestRaw.unpack = some smallestImage ∧ smallestImage.wf 1 = true := by decide +kernel

theorem witness_AcceptedImageIsWellFormed :
    assemble 1 "end".toList = .accepted ⟨pseudoRegisters, [endWord], 4800, 48000, [], pseudoSymbols⟩ := by decide +kernel

theorem witness_FailedLoadRefusesTick :
    (asked (.loadText [])).inTick = false ∧ (asked (.loadText [])).hostQueue = [.loadText []] ∧
    assemble (asked (.loadText [])).numChannels [] = .failed [⟨.noError, none⟩, ⟨.noEndFound, some 1⟩] := by decide +kernel

theorem witness_DiagnosticsInRowOrder :
    assemble 1 [] = .failed [⟨.noError, none⟩, ⟨.noEndFound, some 1⟩] := by decide +kernel

theorem witness_ResetValues :
    (asked (.reset 1)).inTick = false ∧ (asked (.reset 1)).hostQueue = [.reset 1] ∧ 1 ≤ 1 := by decide

theorem witness_ResetHasInvariant : 1 ≤ 1 := by decide

theorem witness_DelayWriteStoresOneElement :
    Memory.wf [(0, 1#32), (4799, 2#32)] := by decide

/-- The highest cursor and offset, and a cursor below the offset. -/
theorem witness_DelayReadReturnsElement :
    (⟨[], 0, 4799, 4800⟩ : DelayLine).rcur < 4800 ∧ 4799 < 4800 ∧ (⟨[], 0, 0, 4⟩ : DelayLine).rcur < 4800 ∧ 3 < 4800 := by
  decide

/-- A full line with both cursors on the last element and the greatest offset. -/
theorem witness_FullLineDelays :
    (⟨[(1, 7#32)], 3, 3, 4⟩ : DelayLine).wf 4 ∧ (⟨[(1, 7#32)], 3, 3, 4⟩ : DelayLine).size = 4 ∧ 3 < 4 ∧
    3 ≤ 4 ∧ 4 < [1#32, 2#32, 3#32, 4#32, 5#32].length :=
  ⟨⟨by decide, by decide, by decide, by decide⟩, rfl, by decide, by decide, by decide⟩

/-- The smallest capacity for a declared size, and both branches: tick 3 and tick 4 of a size 4 with offset 3. -/
theorem witness_ShortLineDelays :
    3 < 4 ∧ 2 * 4 - 1 ≤ 7 ∧ 3 ≤ 3 % 4 ∧ ¬ 3 ≤ 4 % 4 ∧ 4 < [1#32, 2#32, 3#32, 4#32, 5#32].length := by decide

end Sys2Proof.Tests
end

section
/-! Data as numbers: the classes of patterns, the value a reading stands for, and what the operations do with readings. -/

namespace Sys2Proof.Machine

/-! ### Patterns and their values -/

/-- A pattern is its sign and its magnitude. -/
theorem Format.withSign_magnitude (F : Format) {w : Nat} (h : w < 2 * F.signBit) :
    withSign F (F.isNeg w) (F.magnitude w) = w := by
  unfold withSign Format.isNeg Format.magnitude
  by_cases hw : F.signBit ≤ w
  · rw [Nat.mod_eq_sub_mod hw, Nat.mod_eq_of_lt (by omega)]
    simp [hw]
  · rw [Nat.mod_eq_of_lt (by omega)]
    simp [hw]

/-- A greater magnitude is a greater number of units. -/
theorem Format.units_strictMono (F : Format) : StrictMono F.units := by
  refine strictMono_nat_of_lt_succ fun n => ?_
  have hP : 0 < 2 ^ F.fracBits := by positivity
  have hdm := Nat.div_add_mod' n (2 ^ F.fracBits)
  have hml := Nat.mod_lt n hP
  -- `n` and `n + 1` are `sig` and `sig + 1` counted from the same exponent `k`
  obtain ⟨k, sig, rfl, hk, hsig⟩ : ∃ k sig, n = k * 2 ^ F.fracBits + sig ∧ (k = 0 ∨ 2 ^ F.fracBits ≤ sig) ∧
      sig < 2 * 2 ^ F.fracBits := by
    rcases Nat.eq_zero_or_pos (n / 2 ^ F.fracBits) with hq | hq
    · rw [hq, Nat.zero_mul] at hdm
      exact ⟨0, n, by simp, .inl rfl, by omega⟩
    · obtain ⟨j, hj⟩ := Nat.exists_eq_add_of_le' hq
      rw [hj, Nat.add_mul] at hdm
      exact ⟨j, 2 ^ F.fracBits + n % 2 ^ F.fracBits, by omega, .inr (by omega), by omega⟩
  rw [F.units_rounded k sig hk hsig.le, Nat.add_assoc, F.units_rounded k (sig + 1) (by omega) hsig]
  exact Nat.mul_lt_mul_of_pos_right (Nat.lt_succ_self sig) (by positivity)

/-- The zeros are the patterns of magnitude 0. -/
theorem Format.value_eq_zero_iff (F : Format) (w : Nat) : F.value w = 0 ↔ F.magnitude w = 0 := by
  have h0 : F.units 0 = 0 := by simp [Format.units]
  have hsign : (if F.isNeg w then (-1 : ℚ) else 1) ≠ 0 := by split <;> norm_num
  rw [Format.value, mul_eq_zero_iff_left hsign, div_eq_zero_iff, or_iff_left F.perOne_pos.ne', Nat.cast_eq_zero]
  exact ⟨fun h => F.units_strictMono.injective (h.trans h0.symm), fun h => h ▸ h0⟩

/-- Patterns of the same sign and value are the same. -/
theorem Format.eq_of_value_eq (F : Format) {w u : Nat} (hw : w < 2 * F.signBit) (hu : u < 2 * F.signBit)
    (hneg : F.isNeg w = F.isNeg u) (hval : F.value w = F.value u) : w = u := by
  have hsign : (if F.isNeg u then (-1 : ℚ) else 1) ≠ 0 := by split <;> norm_num
  have hunits : (F.units (F.magnitude w) : ℚ) = F.units (F.magnitude u) := by
    simpa only [Format.value, hneg, mul_right_inj' hsign, div_left_inj' F.perOne_pos.ne'] using hval
  have hmag := F.units_strictMono.injective (Nat.cast_injective hunits)
  rw [← F.withSign_magnitude hw, ← F.withSign_magnitude hu, hneg, hmag]

/-- A number that has a pattern is rounded to itself. -/
theorem Format.Rounded.exact {F : Format} {x : ℚ} {w u : Nat} (h : F.Rounded x w) (hx : |x| < F.overflow)
    (hu : F.finite u = true) (huv : F.value u = x) : F.finite w = true ∧ F.value w = x := by
  obtain ⟨-, -, hfin, -⟩ := h
  obtain ⟨hw, hnear⟩ := hfin hx
  have hle := (hnear u hu).1
  rw [huv, sub_self, abs_zero] at hle
  exact ⟨hw, sub_eq_zero.mp (abs_nonpos_iff.mp hle)⟩

/-- The overflow bound is above half of the power of two that ends the range. -/
theorem Format.le_overflow (F : Format) (hF : F.Sane) : (2 : ℚ) ^ (2 ^ (F.expBits - 1) - 1) ≤ F.overflow := by
  have hroom := hF.room
  unfold Format.overflow
  generalize 2 ^ (F.expBits - 1) = H at *
  have hlow : (2 : ℚ) ^ (H - F.fracBits - 2) ≤ 2 ^ (H - 1) := pow_le_pow_right₀ (by norm_num) (by omega)
  have htop : (2 : ℚ) ^ H = 2 * 2 ^ (H - 1) := by
    rw [← pow_succ']
    congr 1
    omega
  linarith

/-- Every finite number is below the overflow bound: the greatest is half a last place below it. -/
theorem Format.abs_value_lt_overflow (F : Format) (hF : F.Sane) {w : Nat} (h : F.finite w = true) :
    |F.value w| < F.overflow := by
  have hP : 0 < 2 ^ F.fracBits := by positivity
  have hE : 2 ^ 2 ≤ 2 ^ F.expBits := Nat.pow_le_pow_right (by omega) hF.exp
  have hlt : F.magnitude w < F.infBits := of_decide_eq_true h
  have hsign : |if F.isNeg w then (-1 : ℚ) else 1| = 1 := by split <;> norm_num
  have hlast : F.infBits = (2 ^ F.expBits - 3) * 2 ^ F.fracBits + (2 * 2 ^ F.fracBits - 1) + 1 := by
    obtain ⟨E, hE'⟩ := Nat.exists_eq_add_of_le' (show 3 ≤ 2 ^ F.expBits by omega)
    rw [Format.infBits, hE', Nat.add_sub_cancel, show E + 3 - 1 = E + 2 from rfl, Nat.add_mul]
    omega
  have hunits : F.units (F.magnitude w) ≤ (2 * 2 ^ F.fracBits - 1) * 2 ^ (2 ^ F.expBits - 3) := by
    rw [← F.units_rounded _ _ (.inr (by omega)) (Nat.sub_le _ _)]
    exact F.units_strictMono.monotone (by omega)
  have hunits' : (F.units (F.magnitude w) : ℚ) ≤ (2 * 2 ^ F.fracBits - 1) * 2 ^ (2 ^ F.expBits - 3) := by
    have := Nat.cast_le (α := ℚ).mpr hunits
    rwa [Nat.cast_mul, Nat.cast_sub (by omega), Nat.cast_mul, Nat.cast_pow, Nat.cast_pow] at this
  rw [Format.value, abs_mul, hsign, one_mul, abs_of_nonneg (div_nonneg (Nat.cast_nonneg _) F.perOne_pos.le),
    div_lt_iff₀ F.perOne_pos, F.overflow_units hF]
  exact hunits'.trans_lt (mul_lt_mul_of_pos_right (by linarith) (by positivity))

/-- The range of the significand and the exponent of a reading. -/
theorem unpack_bounds (F : Format) {w m : Nat} {s : Bool} {e : Int} (h : unpack F w = .fin s m e) :
    m < 2 * 2 ^ F.fracBits ∧ F.minExp ≤ e ∧ e < F.minExp + (2 ^ F.expBits : Nat) := by
  have hfrac := Nat.mod_lt w (show 0 < 2 ^ F.fracBits by positivity)
  have hexp := Nat.mod_lt (w / 2 ^ F.fracBits) (show 0 < 2 ^ F.expBits by positivity)
  unfold unpack at h
  simp only at h
  generalize w / 2 ^ F.fracBits % 2 ^ F.expBits = ex at *
  split at h
  · split at h <;> cases h
  · split at h <;> cases h <;> refine ⟨?_, ?_, ?_⟩ <;> omega

/-! ### Readings as numbers -/

/-- The exact number of a reading; a NaN and an infinity have none. -/
def Num.value : Num → ℚ
  | .fin neg m e => (if neg then -1 else 1) * ((m : ℚ) * 2 ^ e)
  | .nan | .inf _ => 0

theorem Num.value_fin (s : Bool) (m : Nat) (e : Int) :
    (Num.fin s m e).value = (if s then -1 else 1) * ((m : ℚ) * 2 ^ e) := rfl

theorem Num.value_negate (x : Num) : x.negate.value = -x.value := by
  cases x with
  | nan | inf s => simp [Num.negate, Num.value]
  | fin s m e => cases s <;> simp [Num.negate, Num.value]

theorem Num.value_fin_eq_zero_iff (s : Bool) (m : Nat) (e : Int) : (Num.fin s m e).value = 0 ↔ m = 0 := by
  cases s <;> simp [Num.value, zpow_ne_zero]

/-- An integer's sign and magnitude make it. -/
theorem sign_mul_natAbs (z : Int) : (if decide (z < 0) then (-1 : ℚ) else 1) * z.natAbs = z := by
  rw [Nat.cast_natAbs, Int.cast_abs]
  by_cases h : z < 0
  · simp [h, abs_of_neg (Int.cast_lt_zero.mpr h)]
  · simp [h, abs_of_nonneg (Int.cast_nonneg (not_lt.mp h))]

/-- Two readings of one datum: the same class and sign, and the same number. -/
inductive Num.Same : Num → Num → Prop
  | nan : Num.Same .nan .nan
  | inf (s : Bool) : Num.Same (.inf s) (.inf s)
  | fin (s : Bool) (m n : Nat) (e k : Int) (h : (Num.fin s m e).value = (Num.fin s n k).value) :
      Num.Same (.fin s m e) (.fin s n k)

/-! ### Comparisons of readings -/

/-- Numbers counted in their common unit are ordered as they are. -/
theorem scaled_lt_iff (s t : Bool) (m n : Nat) (e k : Int) :
    scaled s m e (min e k) < scaled t n k (min e k) ↔ (Num.fin s m e).value < (Num.fin t n k).value := by
  rw [Num.value_fin, Num.value_fin, ← scaled_mul s m (min_le_left e k), ← scaled_mul t n (min_le_right e k),
    mul_lt_mul_iff_left₀ (by positivity), Int.cast_lt]

theorem scaled_eq_iff (s t : Bool) (m n : Nat) (e k : Int) :
    scaled s m e (min e k) = scaled t n k (min e k) ↔ (Num.fin s m e).value = (Num.fin t n k).value := by
  rw [Num.value_fin, Num.value_fin, ← scaled_mul s m (min_le_left e k), ← scaled_mul t n (min_le_right e k),
    mul_left_inj' (by positivity), Int.cast_inj]

theorem Num.lt_fin (s t : Bool) (m n : Nat) (e k : Int) :
    (Num.fin s m e).lt (.fin t n k) = decide ((Num.fin s m e).value < (Num.fin t n k).value) :=
  decide_eq_decide.mpr (scaled_lt_iff s t m n e k)

theorem Num.eqv_fin (s t : Bool) (m n : Nat) (e k : Int) :
    (Num.fin s m e).eqv (.fin t n k) = decide ((Num.fin s m e).value = (Num.fin t n k).value) :=
  decide_eq_decide.mpr (scaled_eq_iff s t m n e k)

theorem Num.le_fin (s t : Bool) (m n : Nat) (e k : Int) :
    (Num.fin s m e).le (.fin t n k) = decide ((Num.fin s m e).value ≤ (Num.fin t n k).value) := by
  rw [Num.le, Num.lt_fin, Num.eqv_fin, ← Bool.decide_or]
  exact decide_eq_decide.mpr le_iff_lt_or_eq.symm

theorem Num.nan_lt (x : Num) : Num.nan.lt x = false := by cases x <;> rfl
theorem Num.lt_nan (x : Num) : x.lt .nan = false := by cases x <;> rfl
theorem Num.nan_le (x : Num) : Num.nan.le x = false := by cases x <;> rfl
theorem Num.le_nan (x : Num) : x.le .nan = false := by cases x <;> rfl

/-- Equality is order both ways. -/
theorem Num.eqv_eq_le_and_le (x y : Num) : x.eqv y = (x.le y && y.le x) := by
  cases x with
  | nan => cases y <;> rfl
  | inf s => cases y with
    | nan | fin t n k => cases s <;> rfl
    | inf t => cases s <;> cases t <;> rfl
  | fin s m e => cases y with
    | nan => rfl
    | inf t => cases t <;> rfl
    | fin t n k =>
      rw [Num.eqv_fin, Num.le_fin, Num.le_fin, ← Bool.decide_and]
      exact decide_eq_decide.mpr le_antisymm_iff

/-- The order depends on the numbers read, not on how they are read. -/
theorem Num.Same.lt_eq {x x' y y' : Num} (hx : x.Same x') (hy : y.Same y') : x.lt y = x'.lt y' := by
  cases hx with
  | nan => rw [Num.nan_lt, Num.nan_lt]
  | inf s => cases hy <;> rfl
  | fin s m m' e e' hm => cases hy with
    | nan | inf t => rfl
    | fin t n n' k k' hn => rw [Num.lt_fin, Num.lt_fin, hm, hn]

theorem Num.Same.le_eq {x x' y y' : Num} (hx : x.Same x') (hy : y.Same y') : x.le y = x'.le y' := by
  cases hx with
  | nan => rw [Num.nan_le, Num.nan_le]
  | inf s => cases hy <;> rfl
  | fin s m m' e e' hm => cases hy with
    | nan | inf t => rfl
    | fin t n n' k k' hn => rw [Num.le_fin, Num.le_fin, hm, hn]

/-! ### Sums and products of readings -/

/-- A finite sum is the exact sum rounded once, and an exact zero is negative only if both terms are. -/
theorem sum64_fin (c : F64) (s t : Bool) (m n : Nat) (e k : Int) :
    b64.Rounded ((Num.fin s m e).value + (Num.fin t n k).value) (sum64 c (.fin s m e) (.fin t n k)).toNat ∧
    ((Num.fin s m e).value + (Num.fin t n k).value = 0 →
      (sum64 c (.fin s m e) (.fin t n k)).msb = (s && t)) := by
  have hsum : (Num.fin s m e).value + (Num.fin t n k).value =
      ((scaled s m e (min e k) + scaled t n k (min e k) : Int) : ℚ) * 2 ^ min e k := by
    rw [Num.value_fin, Num.value_fin, ← scaled_mul s m (min_le_left e k), ← scaled_mul t n (min_le_right e k),
      Int.cast_add, add_mul]
  rw [hsum]
  simp only [sum64]
  generalize scaled s m e (min e k) + scaled t n k (min e k) = z
  split
  · next hz =>
    have h := round64_spec (s && t) 0 0
    simpa [hz] using h
  · next hz =>
    have h := (round64_spec (decide (z < 0)) z.natAbs (min e k)).1
    rw [← mul_assoc, sign_mul_natAbs] at h
    refine ⟨h, fun h0 => absurd ?_ hz⟩
    exact Int.cast_eq_zero.mp ((mul_eq_zero_iff_right (zpow_ne_zero _ two_ne_zero)).mp h0)

/-- A finite product is the exact product rounded once, with the exclusive or of the signs. -/
theorem prod64_fin (c : F64) (s t : Bool) (m n : Nat) (e k : Int) :
    b64.Rounded ((Num.fin s m e).value * (Num.fin t n k).value) (prod64 c (.fin s m e) (.fin t n k)).toNat ∧
    (prod64 c (.fin s m e) (.fin t n k)).msb = (s ^^ t) := by
  have hprod : (Num.fin s m e).value * (Num.fin t n k).value =
      (if s ^^ t then -1 else 1) * (((m * n : Nat) : ℚ) * 2 ^ (e + k)) := by
    rw [Num.value_fin, Num.value_fin, zpow_add₀ two_ne_zero, Nat.cast_mul]
    cases s <;> cases t <;> simp <;> ring
  rw [hprod]
  exact round64_spec (s ^^ t) (m * n) (e + k)

theorem sum64_nan_left (c : F64) (y : Num) : sum64 c .nan y = c := by cases y <;> rfl
theorem sum64_nan_right (c : F64) (x : Num) : sum64 c x .nan = c := by cases x <;> rfl
theorem prod64_nan_left (c : F64) (y : Num) : prod64 c .nan y = c := by cases y <;> rfl
theorem prod64_nan_right (c : F64) (x : Num) : prod64 c x .nan = c := by cases x <;> rfl

/-! ### Classes of data -/

theorem num64_of_finite {v : F64} (h : finite64 v = true) :
    ∃ m e, num64 v = .fin v.msb m e ∧ value64 v = (Num.fin v.msb m e).value := by
  have hlt : b64.magnitude v.toNat < b64.infBits := of_decide_eq_true h
  rcases num64_spec v with ⟨hm, _⟩ | ⟨hm, _⟩ | ⟨_, hv⟩
  · omega
  · omega
  · exact hv

theorem num32_of_finite {v : F32} (h : finite32 v = true) :
    ∃ m e, num32 v = .fin v.msb m e ∧ value32 v = (Num.fin v.msb m e).value := by
  have hlt : b32.magnitude v.toNat < b32.infBits := of_decide_eq_true h
  rcases num32_spec v with ⟨hm, _⟩ | ⟨hm, _⟩ | ⟨_, hv⟩
  · omega
  · omega
  · exact hv

theorem num64_of_infinite {v : F64} (h : infinite64 v = true) : num64 v = .inf v.msb := by
  have heq : b64.magnitude v.toNat = b64.infBits := of_decide_eq_true h
  rcases num64_spec v with ⟨hm, _⟩ | ⟨_, hv⟩ | ⟨hf, _⟩
  · omega
  · exact hv
  · exact absurd (of_decide_eq_true hf : b64.magnitude v.toNat < b64.infBits) (by omega)

theorem isNan64_iff (v : F64) : isNan64 v = true ↔ num64 v = .nan := decide_eq_true_iff
theorem isNan32_iff (v : F32) : isNan32 v = true ↔ num32 v = .nan := decide_eq_true_iff

theorem isNan64_nan64 (c : BitVec 53) : isNan64 (nan64 c) = true := (isNan64_iff _).mpr (num64_nan64 c)
theorem isNan32_nan32 (c : BitVec 24) : isNan32 (nan32 c) = true := (isNan32_iff _).mpr (num32_nan32 c)

/-- The NaNs are the magnitudes above the infinity's. -/
theorem isNan64_iff_magnitude (v : F64) : isNan64 v = true ↔ b64.infBits < b64.magnitude v.toNat := by
  rw [isNan64_iff]
  rcases num64_spec v with ⟨hm, hv⟩ | ⟨hm, hv⟩ | ⟨hf, m, e, hv, _⟩
  · simp [hm, hv]
  · simp [hm, hv]
  · have hlt : b64.magnitude v.toNat < b64.infBits := of_decide_eq_true hf
    simp [hv, hlt.le]

theorem isNan32_iff_magnitude (v : F32) : isNan32 v = true ↔ b32.infBits < b32.magnitude v.toNat := by
  rw [isNan32_iff]
  rcases num32_spec v with ⟨hm, hv⟩ | ⟨hm, hv⟩ | ⟨hf, m, e, hv, _⟩
  · simp [hm, hv]
  · simp [hm, hv]
  · have hlt : b32.magnitude v.toNat < b32.infBits := of_decide_eq_true hf
    simp [hv, hlt.le]

/-- A datum that is no NaN is finite or an infinity. -/
theorem finite64_or_infinite64 {v : F64} (h : isNan64 v = false) : finite64 v = true ∨ infinite64 v = true := by
  have hm : ¬ b64.infBits < b64.magnitude v.toNat := by simp [← isNan64_iff_magnitude, h]
  simp only [finite64, Format.finite, infinite64, decide_eq_true_eq]
  omega

@[simp] theorem num64_inf64 (s : Bool) : num64 (inf64 s) = .inf s := by cases s <;> decide

/-- An infinity is its sign. -/
theorem eq_inf64 {v : F64} (h : infinite64 v = true) : v = inf64 v.msb := by
  have heq : b64.magnitude v.toNat = b64.infBits := of_decide_eq_true h
  rw [inf64, ← msb64, ← heq, b64.withSign_magnitude (toNat64_lt v), BitVec.ofNat_toNat, BitVec.setWidth_eq]

theorem eq_inf32 {v : F32} (h : b32.magnitude v.toNat = b32.infBits) : v = inf32 v.msb := by
  rw [inf32, ← msb32, ← h, b32.withSign_magnitude (toNat32_lt v), BitVec.ofNat_toNat, BitVec.setWidth_eq]

theorem inf64_not (s : Bool) : inf64 (!s) = inf64 s ^^^ 0x8000000000000000#64 := by cases s <;> decide

theorem inf64_eq_ite (s : Bool) : inf64 s = if s then 0xFFF0000000000000#64 else 0x7FF0000000000000#64 := by
  cases s <;> decide

theorem magnitude64_eq_zero_iff (v : F64) : b64.magnitude v.toNat = 0 ↔ value64 v = 0 :=
  (b64.value_eq_zero_iff v.toNat).symm

/-- A number well inside the range of binary64. -/
theorem lt_overflow64 {m j : Nat} {e : Int} (hm : m < 2 ^ j) (hj : j + e ≤ 1023) : (m : ℚ) * 2 ^ e < b64.overflow := by
  have hm' : (m : ℚ) < 2 ^ (j : Int) := by
    rw [zpow_natCast]
    exact_mod_cast hm
  calc (m : ℚ) * 2 ^ e < 2 ^ (j : Int) * 2 ^ e := mul_lt_mul_of_pos_right hm' (by positivity)
    _ = 2 ^ ((j : Int) + e) := (zpow_add₀ two_ne_zero _ _).symm
    _ ≤ 2 ^ (1023 : Int) := zpow_le_zpow_right₀ (by norm_num) hj
    _ ≤ b64.overflow := (zpow_natCast (2 : ℚ) 1023).trans_le (b64.le_overflow b64_sane)

/-! ### Widening and narrowing -/

theorem num32_bounds {v : F32} {s : Bool} {m : Nat} {e : Int} (h : num32 v = .fin s m e) :
    m < 2 ^ 24 ∧ -149 ≤ e ∧ e < 107 := unpack_bounds b32 h

theorem widen_of_num32_fin {v : F32} {s : Bool} {m : Nat} {e : Int} (h : num32 v = .fin s m e) :
    widen v = round64 s m e := by
  simp [widen, h]

/-- Widening a finite datum is exact: its number has room in the fraction and the range of binary64. -/
theorem widen_finite {v : F32} (h : finite32 v = true) :
    finite64 (widen v) = true ∧ value64 (widen v) = value32 v ∧ (widen v).msb = v.msb := by
  obtain ⟨m, e, hv, hval⟩ := num32_of_finite h
  obtain ⟨hm, he, he'⟩ := num32_bounds hv
  rw [widen_of_num32_fin hv, hval]
  obtain ⟨hfin, hval'⟩ := round64_exact v.msb (m := m) (e := e) (hm.trans (by decide)) (le_trans (by decide) he)
    (lt_overflow64 hm (by omega))
  exact ⟨hfin, hval', (round64_spec v.msb m e).2⟩

/-- A widened datum reads as the datum does. -/
theorem num32_same_widen (v : F32) : (num32 v).Same (num64 (widen v)) := by
  rcases num32_spec v with ⟨_, hv⟩ | ⟨_, hv⟩ | ⟨hf, m, e, hv, hval⟩
  · simpa [widen, hv] using Num.Same.nan
  · simpa [widen, hv] using Num.Same.inf v.msb
  · obtain ⟨hfin, hval', hmsb⟩ := widen_finite hf
    obtain ⟨n, k, hw, hwval⟩ := num64_of_finite hfin
    rw [hv, hw, hmsb]
    refine .fin v.msb m n e k ?_
    rw [← hmsb, ← hwval, hval', hval, hmsb, Num.value_fin]

theorem isNan64_widen (v : F32) : isNan64 (widen v) = isNan32 v := by
  have h := num32_same_widen v
  unfold isNan64 isNan32
  generalize num32 v = x at h
  generalize num64 (widen v) = y at h
  cases h <;> simp

/-- Narrowing a finite datum rounds it once and keeps its sign. -/
theorem narrow_finite {v : F64} (h : finite64 v = true) :
    b32.Rounded (value64 v) (narrow v).toNat ∧ (narrow v).msb = v.msb := by
  obtain ⟨m, e, hv, hval⟩ := num64_of_finite h
  simpa only [narrow, hv, hval, Num.value_fin] using round32_spec v.msb m e

theorem isNan32_narrow_of_nan {v : F64} (h : isNan64 v = true) : isNan32 (narrow v) = true := by
  simpa [narrow, (isNan64_iff v).mp h] using isNan32_nan32 _

/-- Narrowing undoes widening. -/
theorem narrow_widen {v : F32} (h : isNan32 v = false) : narrow (widen v) = v := by
  rcases num32_spec v with ⟨_, hv⟩ | ⟨hm, hv⟩ | ⟨hf, _⟩
  · simp [isNan32, hv] at h
  · simpa [widen, narrow, hv] using (eq_inf32 hm).symm
  · obtain ⟨hfin, hval, hmsb⟩ := widen_finite hf
    obtain ⟨hround, hmsb'⟩ := narrow_finite hfin
    rw [hval] at hround
    obtain ⟨_, hval'⟩ := hround.exact (b32.abs_value_lt_overflow b32_sane hf) hf rfl
    refine BitVec.eq_of_toNat_eq (b32.eq_of_value_eq (toNat32_lt _) (toNat32_lt v) ?_ hval')
    rw [msb32, msb32, hmsb', hmsb]

/-- Settles O33: the clauses are the lemmas above, and the infinities are evaluated. -/
theorem narrowOfWiden : Obligations.NarrowOfWiden := by
  unfold Obligations.NarrowOfWiden
  refine ⟨fun v hv => ⟨narrow_widen hv, (isNan64_widen v).trans hv⟩, fun v hv => (isNan64_widen v).trans hv,
    fun v hv => isNan32_narrow_of_nan hv, fun v hv => widen_finite hv, fun v hv => narrow_finite hv, ?_, ?_, ?_, ?_⟩ <;>
  decide

/-! ### Arithmetic on data -/

theorem add64_finite {a b : F64} (ha : finite64 a = true) (hb : finite64 b = true) :
    b64.Rounded (value64 a + value64 b) (add64 a b).toNat ∧
    (value64 a + value64 b = 0 → (add64 a b).msb = (a.msb && b.msb)) := by
  obtain ⟨m, e, hma, hva⟩ := num64_of_finite ha
  obtain ⟨n, k, hmb, hvb⟩ := num64_of_finite hb
  rw [add64, hma, hmb, hva, hvb]
  exact sum64_fin _ _ _ _ _ _ _

/-- A difference is the sum with the negated second term. -/
theorem sub64_finite {a b : F64} (ha : finite64 a = true) (hb : finite64 b = true) :
    b64.Rounded (value64 a - value64 b) (sub64 a b).toNat ∧
    (value64 a - value64 b = 0 → (sub64 a b).msb = (a.msb && !b.msb)) := by
  obtain ⟨m, e, hma, hva⟩ := num64_of_finite ha
  obtain ⟨n, k, hmb, hvb⟩ := num64_of_finite hb
  rw [sub64, hma, hmb, hva, hvb, sub_eq_add_neg, ← Num.value_negate]
  exact sum64_fin _ _ _ _ _ _ _

theorem mul64_finite {a b : F64} (ha : finite64 a = true) (hb : finite64 b = true) :
    b64.Rounded (value64 a * value64 b) (mul64 a b).toNat ∧ (mul64 a b).msb = (a.msb ^^ b.msb) := by
  obtain ⟨m, e, hma, hva⟩ := num64_of_finite ha
  obtain ⟨n, k, hmb, hvb⟩ := num64_of_finite hb
  rw [mul64, hma, hmb, hva, hvb]
  exact prod64_fin _ _ _ _ _ _ _

/-- The product of two binary32 numbers is a binary64 number: its significand has 48 bits. -/
theorem exists_value64_eq_mul {x y : F32} (hx : finite32 x = true) (hy : finite32 y = true) :
    ∃ p : F64, finite64 p = true ∧ value64 p = value32 x * value32 y := by
  obtain ⟨m, e, hmx, hvx⟩ := num32_of_finite hx
  obtain ⟨n, k, hny, hvy⟩ := num32_of_finite hy
  obtain ⟨hm, he, he'⟩ := num32_bounds hmx
  obtain ⟨hn, hk, hk'⟩ := num32_bounds hny
  have hmn : m * n < 2 ^ 48 := (Nat.mul_lt_mul'' hm hn).trans_eq (pow_add 2 24 24).symm
  obtain ⟨hfin, hval⟩ := round64_exact (x.msb ^^ y.msb) (m := m * n) (e := e + k) (hmn.trans (by decide))
    (le_trans (show b64.minExp ≤ -149 + -149 by decide) (add_le_add he hk)) (lt_overflow64 hmn (by omega))
  refine ⟨_, hfin, hval.trans ?_⟩
  rw [hvx, hvy, Num.value_fin, Num.value_fin, zpow_add₀ two_ne_zero, Nat.cast_mul]
  cases x.msb <;> cases y.msb <;> simp <;> ring

theorem mul64_widen {x y : F32} (hx : finite32 x = true) (hy : finite32 y = true) :
    finite64 (mul64 (widen x) (widen y)) = true ∧ value64 (mul64 (widen x) (widen y)) = value32 x * value32 y := by
  obtain ⟨hfx, hvx, _⟩ := widen_finite hx
  obtain ⟨hfy, hvy, _⟩ := widen_finite hy
  obtain ⟨p, hp, hpv⟩ := exists_value64_eq_mul hx hy
  have hround := (mul64_finite hfx hfy).1
  rw [hvx, hvy, ← hpv] at hround
  rw [← hpv]
  exact hround.exact (b64.abs_value_lt_overflow b64_sane hp) hp rfl

/-! ### Infinities and NaNs as operands -/

theorem arithmetic_infinite_finite {a b : F64} (ha : infinite64 a = true) (hb : finite64 b = true) :
    add64 a b = a ∧ add64 b a = a ∧ sub64 a b = a ∧ sub64 b a = a ^^^ 0x8000000000000000#64 := by
  obtain ⟨n, k, hnb, _⟩ := num64_of_finite hb
  have hna := num64_of_infinite ha
  have heq := (eq_inf64 ha).symm
  refine ⟨?_, ?_, ?_, ?_⟩
  · rwa [add64, hna, hnb]
  · rwa [add64, hna, hnb]
  · rwa [sub64, hna, hnb]
  · rw [sub64, hna, hnb, ← heq, ← inf64_not, heq]
    rfl

theorem arithmetic_infinite_infinite {a b : F64} (ha : infinite64 a = true) (hb : infinite64 b = true) :
    (a = b → add64 a b = a ∧ isNan64 (sub64 a b) = true) ∧
    (a ≠ b → isNan64 (add64 a b) = true ∧ sub64 a b = a) := by
  have hna := num64_of_infinite ha
  have hnb := num64_of_infinite hb
  have heq := (eq_inf64 ha).symm
  constructor
  · rintro rfl
    constructor
    · simp [add64, hna, sum64, heq]
    · simp [sub64, hna, sum64, Num.negate, isNan64_nan64]
  · intro hne
    have hsign : b.msb = !a.msb := by
      refine Bool.eq_not.mpr fun h => hne ?_
      rw [eq_inf64 ha, eq_inf64 hb, h]
    constructor
    · simp [add64, hna, hnb, hsign, sum64, isNan64_nan64]
    · simp [sub64, hna, hnb, hsign, sum64, Num.negate, heq]

/-- An infinity times a zero is invalid. -/
theorem mul64_infinite_zero {a b : F64} (ha : infinite64 a = true) (hb : b64.magnitude b.toNat = 0) :
    isNan64 (mul64 a b) = true ∧ isNan64 (mul64 b a) = true := by
  have hfin : finite64 b = true := decide_eq_true (hb.trans_lt (by decide))
  obtain ⟨n, k, hnb, hvb⟩ := num64_of_finite hfin
  obtain rfl : n = 0 := by
    rwa [magnitude64_eq_zero_iff, hvb, Num.value_fin_eq_zero_iff] at hb
  simp [mul64, num64_of_infinite ha, hnb, prod64, isNan64_nan64]

/-- An infinity times a number that is not zero, or an infinity, is the infinity of the exclusive or of the signs. -/
theorem mul64_infinite_nonzero {a b : F64} (ha : infinite64 a = true) (hb : isNan64 b = false)
    (h0 : b64.magnitude b.toNat ≠ 0) :
    mul64 a b = inf64 (a.msb ^^ b.msb) ∧ mul64 b a = inf64 (a.msb ^^ b.msb) := by
  have hna := num64_of_infinite ha
  rcases finite64_or_infinite64 hb with hfin | hinf
  · obtain ⟨n, k, hnb, hvb⟩ := num64_of_finite hfin
    have hn : n ≠ 0 := by
      rwa [ne_eq, magnitude64_eq_zero_iff, hvb, Num.value_fin_eq_zero_iff] at h0
    simp [mul64, hna, hnb, prod64, hn, Bool.xor_comm b.msb]
  · simp [mul64, hna, num64_of_infinite hinf, prod64, Bool.xor_comm b.msb]

theorem arithmetic_nan {a b : F64} (h : isNan64 a = true ∨ isNan64 b = true) :
    isNan64 (add64 a b) = true ∧ isNan64 (sub64 a b) = true ∧ isNan64 (mul64 a b) = true ∧
    lt64 a b = false ∧ le64 a b = false := by
  rw [isNan64_iff, isNan64_iff] at h
  rcases h with h | h
  · simp [add64, sub64, mul64, lt64, le64, h, sum64_nan_left, prod64_nan_left, Num.nan_lt, Num.nan_le, isNan64_nan64]
  · simp [add64, sub64, mul64, lt64, le64, h, Num.negate, sum64_nan_right, prod64_nan_right, Num.lt_nan, Num.le_nan,
      isNan64_nan64]

/-! ### Comparisons of data -/

theorem compare64_finite {a b : F64} (ha : finite64 a = true) (hb : finite64 b = true) :
    (lt64 a b = true ↔ value64 a < value64 b) ∧ (le64 a b = true ↔ value64 a ≤ value64 b) := by
  obtain ⟨m, e, hma, hva⟩ := num64_of_finite ha
  obtain ⟨n, k, hmb, hvb⟩ := num64_of_finite hb
  rw [lt64, le64, hma, hmb, hva, hvb, Num.lt_fin, Num.le_fin, decide_eq_true_iff, decide_eq_true_iff]
  exact ⟨Iff.rfl, Iff.rfl⟩

theorem compare64_infinite_finite {a b : F64} (ha : infinite64 a = true) (hb : finite64 b = true) :
    lt64 a b = a.msb ∧ le64 a b = a.msb ∧ lt64 b a = !a.msb ∧ le64 b a = !a.msb := by
  obtain ⟨n, k, hnb, _⟩ := num64_of_finite hb
  simp [lt64, le64, num64_of_infinite ha, hnb, Num.le, Num.lt, Num.eqv]

theorem compare64_infinite_infinite {a b : F64} (ha : infinite64 a = true) (hb : infinite64 b = true) :
    lt64 a b = (a.msb && !b.msb) ∧ le64 a b = (a.msb || !b.msb) := by
  rw [lt64, le64, num64_of_infinite ha, num64_of_infinite hb]
  refine ⟨rfl, ?_⟩
  cases a.msb <;> cases b.msb <;> rfl

theorem compare32_eq_widen (a b : F32) :
    lt32 a b = lt64 (widen a) (widen b) ∧ le32 a b = le64 (widen a) (widen b) ∧ eq32 a b = (le32 a b && le32 b a) :=
  ⟨(num32_same_widen a).lt_eq (num32_same_widen b), (num32_same_widen a).le_eq (num32_same_widen b),
    Num.eqv_eq_le_and_le (num32 a) (num32 b)⟩

/-- Settles O60: each clause is the lemma above on that class of operands. -/
theorem arithmeticRoundsOnce : Obligations.ArithmeticRoundsOnce := by
  unfold Obligations.ArithmeticRoundsOnce
  refine ⟨isNan64_iff_magnitude, isNan32_iff_magnitude, fun a b ha hb => ?_, fun x y hx hy => mul64_widen hx hy,
    fun a b ha hb => arithmetic_infinite_finite ha hb, fun a b ha hb => arithmetic_infinite_infinite ha hb,
    fun a b ha hb => ⟨mul64_infinite_zero ha, fun h0 => ?_⟩, fun a b h => arithmetic_nan h,
    fun a b ha hb => compare64_finite ha hb, fun a b ha hb => compare64_infinite_finite ha hb,
    fun a b ha hb => compare64_infinite_infinite ha hb, compare32_eq_widen⟩
  · obtain ⟨hadd, haddZero⟩ := add64_finite ha hb
    obtain ⟨hsub, hsubZero⟩ := sub64_finite ha hb
    obtain ⟨hmul, hmulSign⟩ := mul64_finite ha hb
    exact ⟨hadd, hsub, hmul, haddZero, hsubZero, hmulSign⟩
  · rw [← inf64_eq_ite]
    exact mul64_infinite_nonzero ha hb h0

/-! ### Conversion to and from integers -/

theorem Num.toInt_range (x : Num) : -2147483648 ≤ x.toInt ∧ x.toInt ≤ 2147483647 := by
  cases x with
  | nan => decide
  | inf s => cases s <;> decide
  | fin s m e =>
    simp only [Num.toInt, clamp, int32Min, int32Max]
    split
    · omega
    · split <;> omega

/-- The magnitude that `int` keeps is the magnitude of the number, rounded down. -/
theorem truncated_eq_floor (m : Nat) (e : Int) :
    (((if 0 ≤ e then m * 2 ^ e.toNat else m / 2 ^ (-e).toNat : Nat) : Nat) : Int) = ⌊(m : ℚ) * 2 ^ e⌋ := by
  split
  · next he =>
    obtain ⟨j, rfl⟩ := Int.eq_ofNat_of_zero_le he
    exact_mod_cast (Int.floor_natCast (R := ℚ) (m * 2 ^ j)).symm
  · next he =>
    obtain ⟨j, hj⟩ := Int.eq_ofNat_of_zero_le (show 0 ≤ -e by omega)
    obtain rfl : e = -(j : Int) := by omega
    have h := Rat.floor_intCast_div_natCast m (2 ^ j)
    rw [neg_neg, zpow_neg, zpow_natCast, ← div_eq_mul_inv]
    push_cast at h ⊢
    exact h.symm

/-- A magnitude rounded down, with its sign and kept in range, is the number truncated toward zero and kept in range. -/
theorem clamp_sign_mul_floor (s : Bool) {y : ℚ} (hy : 0 ≤ y) :
    clamp ((if s then -1 else 1) * ⌊y⌋) int32Min int32Max =
      if (if s then -1 else 1) * y < 0 then max ⌈(if s then -1 else 1) * y⌉ (-2147483648)
      else min ⌊(if s then -1 else 1) * y⌋ 2147483647 := by
  have hfloor : 0 ≤ ⌊y⌋ := Int.floor_nonneg.mpr hy
  unfold clamp int32Min int32Max
  cases s with
  | false =>
    simp only [Bool.false_eq_true, if_false, one_mul, not_lt.mpr hy]
    omega
  | true =>
    simp only [if_true, neg_one_mul, Int.ceil_neg, Left.neg_neg_iff]
    rcases hy.eq_or_lt with rfl | hpos
    · simp
    · rw [if_pos hpos]
      omega

/-- `int` of a number is the number truncated toward zero, kept in the signed 32-bit range. -/
theorem Num.toInt_fin (s : Bool) (m : Nat) (e : Int) :
    (Num.fin s m e).toInt =
      if (Num.fin s m e).value < 0 then max ⌈(Num.fin s m e).value⌉ (-2147483648)
      else min ⌊(Num.fin s m e).value⌋ 2147483647 := by
  rw [Num.value_fin, ← clamp_sign_mul_floor s (by positivity), ← truncated_eq_floor]
  rfl

theorem Num.toInt_fin_of_lt_one {s : Bool} {m : Nat} {e : Int} (hlo : -1 < (Num.fin s m e).value)
    (hhi : (Num.fin s m e).value < 1) : (Num.fin s m e).toInt = 0 := by
  rw [Num.toInt_fin]
  split
  · next h =>
    rw [Int.ceil_eq_zero_iff.mpr ⟨hlo, h.le⟩]
    rfl
  · next h =>
    rw [Int.floor_eq_zero_iff.mpr ⟨not_lt.mp h, hhi⟩]
    rfl

theorem int64_finite {v : F64} (h : finite64 v = true) :
    int64 v = if value64 v < 0 then max ⌈value64 v⌉ (-2147483648) else min ⌊value64 v⌋ 2147483647 := by
  obtain ⟨m, e, hv, hval⟩ := num64_of_finite h
  rw [int64, hv, hval, Num.toInt_fin]

theorem int32_finite {v : F32} (h : finite32 v = true) :
    int32 v = if value32 v < 0 then max ⌈value32 v⌉ (-2147483648) else min ⌊value32 v⌋ 2147483647 := by
  obtain ⟨m, e, hv, hval⟩ := num32_of_finite h
  rw [int32, hv, hval, Num.toInt_fin]

/-- The binary32 data between -1.0 and 1.0 are numbers below 1 in magnitude. -/
theorem int32_between_ones {v : F32} (hlo : lt32 negOne32 v = true) (hhi : lt32 v one32 = true) : int32 v = 0 := by
  have hone : num32 one32 = .fin false 8388608 (-23) := by decide
  have hneg : num32 negOne32 = .fin true 8388608 (-23) := by decide
  rw [lt32, hneg] at hlo
  rw [lt32, hone] at hhi
  rw [int32]
  generalize num32 v = x at *
  cases x with
  | nan => rfl
  | inf s =>
    -- an infinity is on the outer side of one of the two
    cases s
    · exact absurd hhi (by decide)
    · exact absurd hlo (by decide)
  | fin s m e =>
    rw [Num.lt_fin, decide_eq_true_iff] at hlo hhi
    exact Num.toInt_fin_of_lt_one (lt_of_eq_of_lt (by norm_num [Num.value]) hlo)
      (hhi.trans_eq (by norm_num [Num.value]))

theorem int32_infinite {v : F32} (hm : 0x7F800000 ≤ v.toNat % 2 ^ 31) (hn : isNan32 v = false) :
    int32 v = if 2 ^ 31 ≤ v.toNat then -2147483648 else 2147483647 := by
  have hinf : b32.magnitude v.toNat = b32.infBits := by
    have hle : ¬ b32.infBits < b32.magnitude v.toNat := by simp [← isNan32_iff_magnitude, hn]
    exact le_antisymm (not_lt.mp hle) hm
  have hmsb : v.msb = decide (2 ^ 31 ≤ v.toNat) := BitVec.msb_eq_decide v
  have hv : num32 v = .inf v.msb := by
    rcases num32_spec v with ⟨h, _⟩ | ⟨_, h⟩ | ⟨h, _⟩
    · omega
    · exact h
    · exact absurd (of_decide_eq_true h : b32.magnitude v.toNat < b32.infBits) (by omega)
  simp [int32, hv, Num.toInt, hmsb, int32Min, int32Max]

theorem floatOf_toInt (n : BitVec 32) :
    b32.Rounded (n.toInt : ℚ) (floatOf n.toInt).toNat ∧ (floatOf n.toInt).msb = n.msb := by
  have h := round32_spec (decide (n.toInt < 0)) n.toInt.natAbs 0
  rw [zpow_zero, mul_one, sign_mul_natAbs, ← BitVec.msb_eq_toInt] at h
  rwa [floatOf, ← BitVec.msb_eq_toInt]

/-- An integer of magnitude below 2^53 has room in the fraction of binary64. -/
theorem float64Of_exact {n : Int} (h : n.natAbs < 2 ^ 53) :
    finite64 (float64Of n) = true ∧ value64 (float64Of n) = n := by
  obtain ⟨hfin, hval⟩ := round64_exact (decide (n < 0)) (m := n.natAbs) (e := 0) (h.trans_le (by decide)) (by decide)
    (lt_overflow64 h (by decide))
  rw [zpow_zero, mul_one, sign_mul_natAbs] at hval
  exact ⟨hfin, hval⟩

/-- Settles O35: `int` by the class of the datum, then the two conversions of an integer. -/
theorem integerConversion : Obligations.IntegerConversion := by
  unfold Obligations.IntegerConversion
  refine ⟨fun v => ⟨Num.toInt_range (num32 v), fun hn => ?_, int32_between_ones, int32_infinite, int32_finite⟩,
    fun v => ⟨fun hn => ?_, fun hinf => ?_, int64_finite⟩, floatOf_toInt, fun n => float64Of_exact⟩
  · rw [int32, (isNan32_iff v).mp hn]
    rfl
  · rw [int64, (isNan64_iff v).mp hn]
    rfl
  · rw [int64, num64_of_infinite hinf]
    rfl

end Sys2Proof.Machine
end

section
/-! What an instruction changes: the shape of its operation, the parts of the state it may write, and that `acc` and `cc` are
read by one instruction each. -/

namespace Sys2Proof.Machine

/-! ### Delay accesses -/

/-- A delay access reads into A and `acc`, writes from A, or does nothing, by the kind of R (R236). -/
theorem delayAccess_cases (cap : Nat) (line : State → DelayLine) (put : State → DelayLine → State) (o : Opnds)
    (l : Sources) (s : State) :
    ((s.reg o.r).kind = .read ∧ ∃ v, delayAccess cap line put o l s =
        ((put s (delayReadAdvance (line s))).setValue o.a v).setAcc (widen v)) ∨
      ((s.reg o.r).kind ≠ .read ∧ ∃ off, delayAccess cap line put o l s = put s (delayWrite cap (line s) l.a off)) ∨
      ((s.reg o.r).kind ≠ .read ∧ delayAccess cap line put o l s = s) := by
  unfold delayAccess
  split
  · next hk => exact .inl ⟨hk, _, rfl⟩
  · next hk => exact .inr (.inl ⟨by simp [hk], _, rfl⟩)
  all_goals next hk => exact .inr (.inr ⟨by simp [hk], rfl⟩)

/-- A delay access reads no `acc`; it overwrites it on a read and keeps it otherwise. -/
theorem delayAccess_setAcc (cap : Nat) {line : State → DelayLine} {put : State → DelayLine → State} (o : Opnds)
    (l : Sources) (s : State) (v : F64) (hline : line (s.setAcc v) = line s)
    (hput : ∀ d, put (s.setAcc v) d = (put s d).setAcc v) :
    delayAccess cap line put o l (s.setAcc v) = (delayAccess cap line put o l s).setAcc
      (if (s.reg o.r).kind = .read then (delayAccess cap line put o l s).acc else v) := by
  have hreg : (s.setAcc v).reg o.r = s.reg o.r := rfl
  unfold delayAccess
  rw [hreg, hline]
  cases (s.reg o.r).kind with
  | read =>
    simp only [hput]
    rfl
  | write => exact hput _
  | _ => rfl

/-- A delay access neither reads nor writes `cc`. -/
theorem delayAccess_setCc (cap : Nat) {line : State → DelayLine} {put : State → DelayLine → State} (o : Opnds)
    (l : Sources) (s : State) (c : CondCode) (hline : line (s.setCc c) = line s)
    (hput : ∀ d, put (s.setCc c) d = (put s d).setCc c) :
    delayAccess cap line put o l (s.setCc c) = (delayAccess cap line put o l s).setCc c := by
  have hreg : (s.setCc c).reg o.r = s.reg o.r := rfl
  unfold delayAccess
  rw [hreg, hline]
  cases (s.reg o.r).kind with
  | read =>
    simp only [hput]
    rfl
  | write => exact hput _
  | _ => rfl

/-- What an instruction can do to a delay line (R236). -/
inductive DelayLine.Accessed (cap : Nat) (l : DelayLine) : DelayLine → Prop where
  | kept : Accessed cap l l
  | advanced : Accessed cap l (delayReadAdvance l)
  | written (v : F32) (off : Nat) : Accessed cap l (delayWrite cap l v off)

theorem DelayLine.Accessed.size_eq {cap : Nat} {l l' : DelayLine} (h : l.Accessed cap l') : l'.size = l.size := by
  cases h <;> rfl

theorem DelayLine.Accessed.wf {cap : Nat} {l l' : DelayLine} (h : l.Accessed cap l') (hl : l.wf cap)
    (h1 : 1 ≤ l.size) (h2 : l.size ≤ cap) : l'.wf cap := by
  cases h with
  | kept => exact hl
  | advanced => exact delayReadAdvance_wf hl h1 h2
  | written v off => exact delayWrite_wf v off hl h1 h2

/-! ### The operation of an instruction -/

/-- The operations of the 19 instructions: two shapes of writes shared by fourteen of them, and the others by name (R156). -/
inductive OperationShape (l : Sources) : Instr → Prop where
  | saturating {i : Instr} (t : F64) (hop : operationOf i l = saturating i.opnds.r t) (hcc : saturates i = true)
      (hacc : ∀ s, writesAcc i s = true) (hdest : ∀ s, destination i s = some i.opnds.r) : OperationShape l i
  | storing {i : Instr} (v : F32) (hop : operationOf i l = storing i.opnds.r v) (hcc : saturates i = false)
      (hacc : ∀ s, writesAcc i s = true) (hdest : ∀ s, destination i s = some i.opnds.r) : OperationShape l i
  | macmv (f : IoFlags) (o : Opnds) : OperationShape l (.macmv f o)
  | andxor (f : IoFlags) (o : Opnds) : OperationShape l (.andxor f o)
  | skip (f : IoFlags) (o : Opnds) : OperationShape l (.skip f o)
  | endPass : OperationShape l .endPass
  | idelay (f : IoFlags) (o : Opnds) : OperationShape l (.idelay f o)
  | xdelay (f : IoFlags) (o : Opnds) : OperationShape l (.xdelay f o)

theorem operationShape (l : Sources) : (i : Instr) → OperationShape l i
  | .mac _ _ | .macn _ _ | .macint _ _ | .acc3 _ _ => .saturating _ rfl rfl (fun _ => rfl) (fun _ => rfl)
  | .macw _ _ | .macintw _ _ | .macwn _ _ | .tstneg _ _ | .limit _ _ | .limitn _ _ | .log _ _ | .exp _ _
  | .interp _ _ => .storing _ rfl rfl (fun _ => rfl) (fun _ => rfl)
  | .macmv f o => .macmv f o
  | .andxor f o => .andxor f o
  | .skip f o => .skip f o
  | .endPass => .endPass
  | .idelay f o => .idelay f o
  | .xdelay f o => .xdelay f o

/-- SKIP's operation: the skip counter is replaced when the mask is the condition code (R220). -/
theorem operationOf_skip (f : IoFlags) (o : Opnds) (l : Sources) (s : State) :
    operationOf (.skip f o) l s = s.setSkip (if int32 l.x = s.cc.code then int32 l.y else s.skipcnt) := by
  simp only [operationOf]
  split <;> rfl

/-- What the operation of an instruction may write when it takes a state `s` to `t`: registers, `acc`, `cc`, the skip
counter and the delay lines, each under the conditions of R24, R26, R27 and R236. -/
structure OperationEffect (i : Instr) (s t : State) : Prop where
  frame : t = { s with gpr := t.gpr, acc := t.acc, cc := t.cc, skipcnt := t.skipcnt, itram := t.itram, xtram := t.xtram }
  gpr : t.gpr = s.gpr ∨ ∃ d v, destination i s = some d ∧ t.gpr = writeValue s.gpr d.toNat v
  acc : writesAcc i s = false → t.acc = s.acc
  cc : saturates i = false → t.cc = s.cc
  itram : s.itram.Accessed Config.itramCap t.itram
  xtram : s.xtram.Accessed Config.xtramCap t.xtram

theorem operationOf_effect (i : Instr) (l : Sources) (s : State) : OperationEffect i s (operationOf i l s) := by
  cases operationShape l i with
  | saturating t hop hcc hacc hdest =>
    rw [hop]
    exact ⟨rfl, .inr ⟨_, _, hdest s, rfl⟩, by simp [hacc], by simp [hcc], .kept, .kept⟩
  | storing v hop hcc hacc hdest =>
    rw [hop]
    exact ⟨rfl, .inr ⟨_, _, hdest s, rfl⟩, by simp [hacc], fun _ => rfl, .kept, .kept⟩
  | macmv f o => exact ⟨rfl, .inr ⟨o.r, l.a, rfl, rfl⟩, fun h => (nomatch h), fun _ => rfl, .kept, .kept⟩
  | andxor f o => exact ⟨rfl, .inr ⟨o.r, andXor l, rfl, rfl⟩, fun _ => rfl, fun _ => rfl, .kept, .kept⟩
  | skip f o =>
    rw [operationOf_skip]
    exact ⟨rfl, .inl rfl, fun _ => rfl, fun _ => rfl, .kept, .kept⟩
  | endPass => exact ⟨rfl, .inl rfl, fun _ => rfl, fun _ => rfl, .kept, .kept⟩
  | idelay f o =>
    simp only [operationOf]
    rcases delayAccess_cases Config.itramCap State.itram State.setItram o l s with ⟨hk, v, h⟩ | ⟨-, off, h⟩ | ⟨-, h⟩
    · rw [h]
      exact ⟨rfl, .inr ⟨o.a, v, if_pos hk, rfl⟩, by simp [writesAcc, hk], fun _ => rfl, .advanced, .kept⟩
    · rw [h]
      exact ⟨rfl, .inl rfl, fun _ => rfl, fun _ => rfl, .written _ _, .kept⟩
    · rw [h]
      exact ⟨rfl, .inl rfl, fun _ => rfl, fun _ => rfl, .kept, .kept⟩
  | xdelay f o =>
    simp only [operationOf]
    rcases delayAccess_cases Config.xtramCap State.xtram State.setXtram o l s with ⟨hk, v, h⟩ | ⟨-, off, h⟩ | ⟨-, h⟩
    · rw [h]
      exact ⟨rfl, .inr ⟨o.a, v, if_pos hk, rfl⟩, by simp [writesAcc, hk], fun _ => rfl, .kept, .advanced⟩
    · rw [h]
      exact ⟨rfl, .inl rfl, fun _ => rfl, fun _ => rfl, .kept, .written _ _⟩
    · rw [h]
      exact ⟨rfl, .inl rfl, fun _ => rfl, fun _ => rfl, .kept, .kept⟩

/-- No operation but MACMV's reads `acc` (R156, R203). -/
theorem operationOf_setAcc {i : Instr} (hi : ∀ f o, i ≠ .macmv f o) (l : Sources) (s : State) (v : F64) :
    operationOf i l (s.setAcc v) =
      (operationOf i l s).setAcc (if writesAcc i s then (operationOf i l s).acc else v) := by
  cases operationShape l i with
  | saturating t hop _ hacc _ =>
    rw [hop, hacc]
    rfl
  | storing w hop _ hacc _ =>
    rw [hop, hacc]
    rfl
  | macmv f o => exact absurd rfl (hi f o)
  | andxor f o => rfl
  | skip f o =>
    rw [operationOf_skip, operationOf_skip]
    rfl
  | endPass => rfl
  | idelay f o => simpa [operationOf, writesAcc] using delayAccess_setAcc _ o l s v rfl fun _ => rfl
  | xdelay f o => simpa [operationOf, writesAcc] using delayAccess_setAcc _ o l s v rfl fun _ => rfl

/-- No operation but SKIP's reads `cc` (R295). -/
theorem operationOf_setCc {i : Instr} (hi : ∀ f o, i ≠ .skip f o) (l : Sources) (s : State) (c : CondCode) :
    operationOf i l (s.setCc c) =
      (operationOf i l s).setCc (if saturates i then (operationOf i l s).cc else c) := by
  cases operationShape l i with
  | saturating t hop hcc _ _ =>
    rw [hop, hcc]
    rfl
  | storing v hop hcc _ _ =>
    rw [hop, hcc]
    rfl
  | macmv f o => rfl
  | andxor f o => rfl
  | skip f o => exact absurd rfl (hi f o)
  | endPass => rfl
  | idelay f o => exact delayAccess_setCc _ o l s c rfl fun _ => rfl
  | xdelay f o => exact delayAccess_setCc _ o l s c rfl fun _ => rfl

/-! ### A completed instruction -/

/-- A completed instruction is its operation between the injections and the count and publication; END has no operation, and
ends the pass (R142, R223). -/
theorem exec_next {i : Instr} {s t : State} (h : exec i s = .next t) :
    t = { (operationOf i (sourcesOf s i.flags i.opnds) (s.inject i.flags i.opnds)).count.publish i.flags i.opnds with
      ended := t.ended } := by
  by_cases hi : i = .endPass
  · subst hi
    rw [← Host.Outcome.next.inj h]
    rfl
  · rw [exec_executed i hi] at h
    obtain ⟨_, ht⟩ := executed_next h
    rw [State.inject_eq, ← ht]

/-- Injections keep the kinds that decide what an instruction writes (R21, R236). -/
theorem destination_inject (i : Instr) (s : State) (f : IoFlags) (o : Opnds) :
    destination i (s.inject f o) = destination i s := by
  cases i <;> simp only [destination, State.inject_eq, State.kind_injected]

theorem writesAcc_inject (i : Instr) (s : State) (f : IoFlags) (o : Opnds) :
    writesAcc i (s.inject f o) = writesAcc i s := by
  cases i <;> simp only [writesAcc, State.inject_eq, State.kind_injected]

/-- What a completed instruction may change: nothing else than registers, `acc`, `cc`, the end of the pass, the skip counter,
the instruction counter, the delay lines, the noise position and the output buffer. -/
structure InstrEffect (i : Instr) (s t : State) : Prop where
  frame : t = { s with
    gpr := t.gpr, acc := t.acc, cc := t.cc, ended := t.ended, skipcnt := t.skipcnt, icount := t.icount, itram := t.itram,
    xtram := t.xtram, noisePos := noiseAfter s i.flags, outBuf := t.outBuf }
  gpr : t.gpr = injectedRegs s i.flags i.opnds ∨
    ∃ d v, destination i s = some d ∧ t.gpr = writeValue (injectedRegs s i.flags i.opnds) d.toNat v
  acc : writesAcc i s = false → t.acc = s.acc
  cc : saturates i = false → t.cc = s.cc
  itram : s.itram.Accessed Config.itramCap t.itram
  xtram : s.xtram.Accessed Config.xtramCap t.xtram
  outBuf_length : t.outBuf.length = s.outBuf.length

theorem exec_effect {i : Instr} {s t : State} (h : exec i s = .next t) : InstrEffect i s t := by
  have heff := operationOf_effect i (sourcesOf s i.flags i.opnds) (s.inject i.flags i.opnds)
  have ht := exec_next h
  revert heff ht
  generalize operationOf i (sourcesOf s i.flags i.opnds) (s.inject i.flags i.opnds) = u
  rw [State.publish_eq]
  rintro ⟨hframe, hgpr, hacc, hcc, hitram, hxtram⟩ ht
  rw [destination_inject] at hgpr
  rw [writesAcc_inject] at hacc
  rw [State.inject_eq] at hframe hgpr hacc hcc hitram hxtram
  rw [ht]
  refine ⟨?_, hgpr, hacc, hcc, hitram, hxtram, ?_⟩
  · rw [hframe]
    rfl
  · have hout : u.outBuf = s.outBuf := (congrArg State.outBuf hframe :)
    dsimp only [State.count]
    split <;> simp [hout]

/-! ### Registers -/

/-- The noise samples lie in [-1, 1) (R38). -/
theorem noiseStream_range (n : Nat) : le32 negOne32 (noiseStream n) = true ∧ lt32 (noiseStream n) one32 = true := by
  unfold noiseStream
  split
  · next h => exact Bool.and_eq_true_iff.mp h
  · decide

/-- The registers after the injections: those at A, X and Y, by their kind (R146, R147). -/
theorem getElem?_injectedRegs {s : State} {j : Nat} {r : RegRecord} (f : IoFlags) (o : Opnds) (h : s.gpr[j]? = some r) :
    (injectedRegs s f o)[j]? = some
      (if (j = o.a.toNat ∨ j = o.x.toNat ∨ j = o.y.toNat) ∧ f.hi ∧ r.kind = .input then
        { r with value := s.inBuf.getD r.io zero32 }
      else if (j = o.a.toNat ∨ j = o.x.toNat ∨ j = o.y.toNat) ∧ f.hn ∧ r.kind = .noise then
        { r with value := noiseStream s.noisePos }
      else r) := by
  simp only [injectedRegs, List.getElem?_mapIdx, h, Option.map_some, injectedValue]
  by_cases hp : j = o.a.toNat ∨ j = o.x.toNat ∨ j = o.y.toNat
  · simp only [hp, true_and, if_true]
    split
    · rfl
    · split <;> rfl
  · simp only [hp, false_and, if_false]

/-- Kinds and channels of registers never change (R21). -/
theorem exec_kind_io {i : Instr} {s t : State} (h : exec i s = .next t) (j : Nat) :
    (t.gpr[j]?).map (fun r => (r.kind, r.io)) = (s.gpr[j]?).map (fun r => (r.kind, r.io)) := by
  rcases (exec_effect h).gpr with hg | ⟨d, v, -, hg⟩
  · rw [hg, getElem?_injectedRegs_kind_io]
  · rw [hg, getElem?_writeValue_kind_io, getElem?_injectedRegs_kind_io]

/-- A register that is not the destination holds what the injections leave in it (R24). -/
theorem exec_gpr_of_ne_destination {i : Instr} {s t : State} (h : exec i s = .next t) {j : Nat}
    (hj : (destination i s).map BitVec.toNat ≠ some j) : t.gpr[j]? = (injectedRegs s i.flags i.opnds)[j]? := by
  rcases (exec_effect h).gpr with hg | ⟨d, v, hd, hg⟩
  · rw [hg]
  · have hne : d.toNat ≠ j := fun e => hj (by rw [hd, Option.map_some, e])
    rw [hg, getElem?_writeValue]
    simp [hne]

/-- Settles O25: the injections first, then at most one write, to the destination. -/
theorem registerFrame : Obligations.RegisterFrame := by
  unfold Obligations.RegisterFrame
  intro i s t h
  have heff := exec_effect h
  refine ⟨?_, exec_kind_io h, fun j r hr hj => ?_, ?_, noiseStream_range _⟩
  · rcases heff.gpr with hg | ⟨d, v, -, hg⟩ <;> simp [hg]
  · rw [exec_gpr_of_ne_destination h hj]
    exact getElem?_injectedRegs i.flags i.opnds hr
  · have hn : t.noisePos = noiseAfter s i.flags := congrArg State.noisePos heff.frame
    rw [hn, noiseAfter]
    split <;> rfl

/-! ### The accumulator and the condition code -/

@[simp] theorem State.publish_acc (s : State) (f : IoFlags) (o : Opnds) : (s.publish f o).acc = s.acc := by
  rw [State.publish_eq]

@[simp] theorem State.publish_cc (s : State) (f : IoFlags) (o : Opnds) : (s.publish f o).cc = s.cc := by
  rw [State.publish_eq]

theorem State.publish_setAcc (s : State) (v : F64) (f : IoFlags) (o : Opnds) :
    (s.setAcc v).publish f o = (s.publish f o).setAcc v := by
  rw [State.publish_eq, State.publish_eq]
  rfl

theorem State.publish_setCc (s : State) (c : CondCode) (f : IoFlags) (o : Opnds) :
    (s.setCc c).publish f o = (s.publish f o).setCc c := by
  rw [State.publish_eq, State.publish_eq]
  rfl

theorem State.inject_setAcc (s : State) (v : F64) (f : IoFlags) (o : Opnds) :
    (s.setAcc v).inject f o = (s.inject f o).setAcc v := by
  rw [State.inject_eq, State.inject_eq]
  rfl

theorem State.inject_setCc (s : State) (c : CondCode) (f : IoFlags) (o : Opnds) :
    (s.setCc c).inject f o = (s.inject f o).setCc c := by
  rw [State.inject_eq, State.inject_eq]
  rfl

/-- From another `acc` an instruction other than MACMV completes too, in the same state but for an `acc` it keeps. -/
theorem exec_setAcc {i : Instr} {s t : State} (h : exec i s = .next t) (hi : ∀ f o, i ≠ .macmv f o) (v : F64) :
    exec i (s.setAcc v) = .next (t.setAcc (if writesAcc i s then t.acc else v)) := by
  by_cases hend : i = .endPass
  · subst hend
    rw [← Host.Outcome.next.inj h]
    rfl
  · rw [exec_executed i hend] at h ⊢
    obtain ⟨hready, rfl⟩ := executed_next h
    have hready' : (s.setAcc v).Ready i.flags i.opnds := hready
    rw [executed_ready hready', ← State.inject_eq, ← State.inject_eq, State.inject_setAcc, operationOf_setAcc hi,
      writesAcc_inject, State.publish_acc, State.count_acc]
    exact congrArg Host.Outcome.next (State.publish_setAcc (State.count _) ..)

/-- From another `cc` an instruction other than SKIP completes too, in the same state but for a `cc` it keeps. -/
theorem exec_setCc {i : Instr} {s t : State} (h : exec i s = .next t) (hi : ∀ f o, i ≠ .skip f o) (c : CondCode) :
    exec i (s.setCc c) = .next (t.setCc (if saturates i then t.cc else c)) := by
  by_cases hend : i = .endPass
  · subst hend
    rw [← Host.Outcome.next.inj h]
    rfl
  · rw [exec_executed i hend] at h ⊢
    obtain ⟨hready, rfl⟩ := executed_next h
    have hready' : (s.setCc c).Ready i.flags i.opnds := hready
    rw [executed_ready hready', ← State.inject_eq, ← State.inject_eq, State.inject_setCc, operationOf_setCc hi,
      State.publish_cc, State.count_cc]
    exact congrArg Host.Outcome.next (State.publish_setCc (State.count _) ..)

/-- Settles O27: what the operation writes, and two runs that differ in `acc` side by side. -/
theorem accumulatorReadByMacmvOnly : Obligations.AccumulatorReadByMacmvOnly := by
  unfold Obligations.AccumulatorReadByMacmvOnly
  exact fun i s t h => ⟨(exec_effect h).acc, exec_setAcc h⟩

/-- Settles O28: what the operation writes, and two runs that differ in `cc` side by side. -/
theorem conditionCodeReadBySkipOnly : Obligations.ConditionCodeReadBySkipOnly := by
  unfold Obligations.ConditionCodeReadBySkipOnly
  exact fun i s t h => ⟨(exec_effect h).cc, exec_setCc h⟩

end Sys2Proof.Machine
end

section
/-! What a slot of a tick keeps: the program, the input samples and the host's side. -/

namespace Sys2Proof.Machine

/-- The kinds and channels of the register file, fixed at load (R21). -/
def State.layout (s : State) : List (Kind × Nat) := s.gpr.map fun r => (r.kind, r.io)

/-- `t` holds the program of `s`, but for the values of its registers, the input samples of `s`, and its host's side without
the answers. -/
structure State.SameProgram (s t : State) : Prop where
  numChannels : t.numChannels = s.numChannels
  imem : t.imem = s.imem
  layout : t.layout = s.layout
  itramSize : t.itram.size = s.itram.size
  xtramSize : t.xtram.size = s.xtram.size
  inBuf : t.inBuf = s.inBuf
  ctrlList : t.ctrlList = s.ctrlList
  symbols : t.symbols = s.symbols
  loadedOk : t.loadedOk = s.loadedOk
  errors : t.errors = s.errors
  hostQueue : t.hostQueue = s.hostQueue
  freeCount : t.freeCount = s.freeCount

theorem exec_sameProgram {i : Instr} {s t : State} (h : exec i s = .next t) : s.SameProgram t := by
  have heff := exec_effect h
  have hframe := heff.frame
  constructor
  case layout =>
    apply List.ext_getElem?
    intro j
    rw [State.layout, State.layout, List.getElem?_map, List.getElem?_map, exec_kind_io h]
  case itramSize => exact heff.itram.size_eq
  case xtramSize => exact heff.xtram.size_eq
  all_goals
    rw [hframe]

/-- What follows an executed instruction leaves all of it (R142, R151). -/
theorem State.SameProgram.afterExec {s t : State} (h : s.SameProgram t) : s.SameProgram t.afterExec := by
  unfold State.afterExec
  split <;> exact { h with }

theorem State.sameProgram_skipSlot (s : State) : s.SameProgram s.skipSlot := by
  constructor <;> rfl

theorem step_sameProgram {s t : State} (ht : s.inTick = true) (h : step s = .next t) : s.SameProgram t := by
  obtain ⟨w, -, ⟨-, rfl⟩ | ⟨-, i, u, -, hx, rfl⟩⟩ := step_inTick_next ht h
  · exact s.sameProgram_skipSlot
  · exact (exec_sameProgram hx).afterExec

/-- In a tick only its end answers, with `OUT` (R151). -/
theorem step_replies {s t : State} (ht : s.inTick = true) (h : step s = .next t) :
    t.replies = if t.inTick then s.replies else s.replies ++ [.output t.outBuf] := by
  obtain ⟨w, -, ⟨-, rfl⟩ | ⟨-, i, u, -, hx, rfl⟩⟩ := step_inTick_next ht h
  · exact (if_pos ht).symm
  · have hframe := (exec_effect hx).frame
    have hu : u.replies = s.replies := by rw [hframe]
    have hut : u.inTick = true := by rw [hframe, ← ht]
    unfold State.afterExec
    split
    · exact congrArg (· ++ [HostReply.output u.outBuf]) hu
    · exact hu.trans (if_pos hut).symm

/-- Settles O26: what follows a slot changes no more than the slot itself. -/
theorem tickKeepsProgram : Obligations.TickKeepsProgram := by
  unfold Obligations.TickKeepsProgram
  intro s t ht h
  have hsame := step_sameProgram ht h
  exact ⟨hsame.numChannels, hsame.imem, hsame.layout, hsame.itramSize, hsame.xtramSize, hsame.inBuf, hsame.ctrlList,
    hsame.symbols, hsame.loadedOk, hsame.errors, hsame.hostQueue, hsame.freeCount, step_replies ht h⟩

end Sys2Proof.Machine
end

section
/-! The loader's images: what the words it packs decode to, and that every image it accepts is well-formed (R112). -/

namespace Sys2Proof

/-! ### Packed words -/

theorem fieldFlags_packWord (op : BitVec 5) (f : IoFlags) (o : Opnds) : fieldFlags (packWord op f o) = f := by
  simp only [fieldFlags, packWord, BitVec.getLsbD_append]
  simp

theorem fieldOpnds_packWord (op : BitVec 5) (f : IoFlags) (o : Opnds) : fieldOpnds (packWord op f o) = o := by
  obtain ⟨r, a, x, y⟩ := o
  simp only [fieldOpnds, packWord, Opnds.mk.injEq]
  refine ⟨?_, ?_, ?_, ?_⟩ <;>
  · apply BitVec.eq_of_getLsbD_eq
    intro i hi
    simp only [BitVec.getLsbD_extractLsb', BitVec.getLsbD_append]
    interval_cases i <;> simp

/-- The opcode numbers of the 18 instructions that take operands (R92). -/
def takesOperands (op : BitVec 5) : Prop := op.toNat ≤ 18 ∧ op.toNat ≠ 16

/-- Each of these numbers has an instruction with the given fields (R92). -/
theorem instrOf_takesOperands {op : BitVec 5} (h : takesOperands op) (f : IoFlags) (o : Opnds) :
    ∃ i, instrOf op.toNat f o = some i ∧ i ≠ .endPass ∧ i.flags = f ∧ i.opnds = o := by
  obtain ⟨hle, hne⟩ := h
  generalize op.toNat = n at hle hne
  obtain hlt | rfl | rfl : n < 16 ∨ n = 17 ∨ n = 18 := by omega
  · interval_cases n <;> exact ⟨_, rfl, Instr.noConfusion, rfl, rfl⟩
  all_goals exact ⟨_, rfl, Instr.noConfusion, rfl, rfl⟩

theorem decode_packWord {op : BitVec 5} (h : takesOperands op) (f : IoFlags) (o : Opnds) :
    ∃ i, decode (packWord op f o) = .ok i ∧ i ≠ .endPass ∧ i.flags = f ∧ i.opnds = o := by
  obtain ⟨i, hi, hne, hf, ho⟩ := instrOf_takesOperands h f o
  refine ⟨i, ?_, hne, hf, ho⟩
  unfold decode
  rw [fieldRsv_packWord, fieldOp_packWord, fieldFlags_packWord, fieldOpnds_packWord, hi, if_neg (not_not.mpr rfl)]
  cases i with
  | endPass => exact absurd rfl hne
  | _ => rfl

theorem wordWf_packWord {op : BitVec 5} (h : takesOperands op) {kinds : List Kind} {o : Opnds}
    (hrange : o.inRange kinds = true) (hdest : o.destOk kinds = true) :
    wordWf kinds (packWord op (flagsOf kinds o) o) = true := by
  obtain ⟨i, hdec, -, hf, ho⟩ := decode_packWord h (flagsOf kinds o) o
  simp [wordWf, hdec, Instr.wf, hf, ho, hrange, hdest]

/-- A well-formed image passes every check (R112). -/
theorem ProgramImage.wf_iff (n : Nat) (img : ProgramImage) :
    img.wf n = true ↔ img.checkLength = true ∧ img.checkRegisters = true ∧ img.checkWords = true ∧
      img.checkChannels n = true ∧ img.checkFinalEnd = true ∧ img.checkSizes = true ∧ img.checkNames = true := by
  simp only [ProgramImage.wf, Bool.and_eq_true, and_assoc]

theorem wordWf_endWord (kinds : List Kind) : wordWf kinds endWord = true := by
  have hdec : decode endWord = .ok .endPass := by decide
  simp [wordWf, hdec, Instr.wf]

/-! ### More registers -/

theorem Opnds.inRange_iff (kinds : List Kind) (o : Opnds) :
    o.inRange kinds = true ↔ o.r.toNat < kinds.length ∧ o.a.toNat < kinds.length ∧ o.x.toNat < kinds.length ∧
      o.y.toNat < kinds.length := by
  simp [Opnds.inRange, and_assoc]

theorem kindAt_append {kinds : List Kind} {i : RegIdx} (h : i.toNat < kinds.length) (more : List Kind) :
    kindAt (kinds ++ more) i = kindAt kinds i :=
  List.getElem?_append_left h

/-- A word stays well-formed when registers are added after those it names. -/
theorem wordWf_append {kinds : List Kind} {w : InstrWord} (h : wordWf kinds w = true) (more : List Kind) :
    wordWf (kinds ++ more) w = true := by
  unfold wordWf at h ⊢
  cases hdec : decode w with
  | error e => simp [hdec] at h
  | ok i =>
    simp only [hdec, Instr.wf, Bool.or_eq_true, decide_eq_true_eq, Bool.and_eq_true] at h ⊢
    refine h.imp_right ?_
    rintro ⟨⟨hrange, hdest⟩, hflags⟩
    obtain ⟨hr, ha, hx, hy⟩ := (Opnds.inRange_iff _ _).mp hrange
    have hr' := kindAt_append hr more
    have ha' := kindAt_append ha more
    have hx' := kindAt_append hx more
    have hy' := kindAt_append hy more
    refine ⟨⟨(Opnds.inRange_iff _ _).mpr ?_, ?_⟩, ?_⟩
    · simp only [List.length_append]
      omega
    · rwa [Opnds.destOk, hr']
    · rw [hflags, flagsOf, flagsOf, hr', ha', hx', hy']

end Sys2Proof

namespace Sys2Proof.Machine

/-! ### Names and lines -/

theorem mem_of_lookupText {α : Type} {l : List (Text × α)} {t : Text} {v : α} (h : lookupText l t = some v) :
    (t, v) ∈ l := by
  induction l with
  | nil => cases h
  | cons p ps ih =>
    unfold lookupText at h
    split at h
    · next hp =>
      obtain rfl := Option.some.inj h
      exact hp ▸ List.mem_cons_self
    · exact List.mem_cons_of_mem _ (ih h)

theorem not_mem_of_lookupText {α : Type} {l : List (Text × α)} {t : Text} (h : lookupText l t = none) :
    t ∉ l.map Prod.fst := by
  induction l with
  | nil => simp
  | cons p ps ih =>
    unfold lookupText at h
    split at h
    · cases h
    · next hp =>
      simp only [List.map_cons, List.mem_cons, not_or]
      exact ⟨fun e => hp e.symm, ih h⟩

theorem exists_of_parseDecl {t : Text} {l : Line} (h : parseDecl t = some l) :
    ∃ k name number, l = .decl k name number := by
  unfold parseDecl at h
  dsimp only at h
  split at h
  · cases h
  · split at h
    · split at h
      · exact ⟨_, _, _, (Option.some.inj h).symm⟩
      · cases h
    · cases h

theorem exists_of_parseTram {t : Text} {l : Line} (h : parseTram t = some l) :
    ∃ long size, l = .tramSize long size := by
  unfold parseTram at h
  dsimp only at h
  split at h
  · split at h
    · exact ⟨_, _, (Option.some.inj h).symm⟩
    · split at h
      · exact ⟨_, _, (Option.some.inj h).symm⟩
      · cases h
  · cases h

theorem exists_of_parseInstruction {t : Text} {l : Line} (h : parseInstruction t = some l) :
    ∃ op r a x y, takesOperands op ∧ l = .instruction op r a x y := by
  have hall : ∀ p ∈ mnemonics, p.2.toNat ≤ 18 ∧ p.2.toNat ≠ 16 := by decide
  unfold parseInstruction at h
  dsimp only at h
  split at h
  · next hop _ =>
    split at h
    · exact ⟨_, _, _, _, _, hall _ (mem_of_lookupText hop), (Option.some.inj h).symm⟩
    · cases h
  · cases h

/-- An instruction line has the number of one of the 18 mnemonics (R110). -/
theorem takesOperands_of_classify {t r a x y : Text} {op : BitVec 5} (h : classify t = .instruction op r a x y) :
    takesOperands op := by
  unfold classify at h
  split at h
  · next l hl =>
    obtain ⟨_, _, _, rfl⟩ := exists_of_parseDecl hl
    cases h
  · split at h
    · cases h
    · split at h
      · next l hl =>
        obtain ⟨_, _, rfl⟩ := exists_of_parseTram hl
        cases h
      · split at h
        · next l hl =>
          obtain ⟨_, _, _, _, _, hop, rfl⟩ := exists_of_parseInstruction hl
          obtain ⟨rfl, -⟩ := Line.instruction.inj h
          exact hop
        · split at h <;> cases h

/-! ### A load in progress -/

/-- What the loader keeps of the image it builds, with the diagnostics so far: the channels are those of an image without a
diagnostic, and the words those of an image whose indices fit their 12 bits (R91, log 14). -/
structure Building (numChannels : Nat) (img : ProgramImage) (errors : List ErrorRecord) : Prop where
  pseudo : pseudoRegisters <+: img.gpr
  names : (img.symbols.map Prod.fst).Nodup
  indices : ∀ p ∈ img.symbols, p.2 < img.gpr.length
  sizes : img.checkSizes = true
  channels : errors = sentinelOnly → ∀ r ∈ img.gpr, recordWf numChannels r = true
  words : img.gpr.length ≤ Config.regCap → ∀ w ∈ img.imem, wordWf img.kinds w = true

variable {n : Nat} {l : Loading}

theorem building_start : Building n Loading.start.img Loading.start.errors where
  pseudo := List.prefix_rfl
  names := by decide
  indices := by decide
  sizes := by decide
  channels := fun _ r hr => by
    simp only [Loading.start, pseudoRegisters, List.mem_cons, List.not_mem_nil, or_false] at hr
    rcases hr with rfl | rfl | rfl | rfl <;> rfl
  words := fun _ w hw => nomatch hw

/-- A raised diagnostic stays: the list is not the sentinel alone. -/
theorem Loading.raise_errors_ne (l : Loading) (kind : Diagnostic) (row : Nat) :
    (l.raise kind row).errors ≠ sentinelOnly := by
  intro h
  have hlast := congrArg List.getLast? h
  simp [Loading.raise, sentinelOnly] at hlast

theorem Building.raise (h : Building n l.img l.errors) (kind : Diagnostic) (row : Nat) :
    Building n (l.raise kind row).img (l.raise kind row).errors :=
  { h with channels := fun he => absurd he (l.raise_errors_ne kind row) }

/-- A new name for a new register at the next free index (R106, R107). -/
theorem Building.addRegister (h : Building n l.img l.errors) {name : Text} {r : RegRecord}
    (hname : lookupText l.img.symbols name = none) (hr : l.errors = sentinelOnly → recordWf n r = true) :
    Building n (l.addRegister name r).img (l.addRegister name r).errors where
  pseudo := h.pseudo.trans (List.prefix_append _ _)
  names := by
    simpa [Loading.addRegister] using h.names.concat (not_mem_of_lookupText hname)
  indices := fun p hp => by
    simp only [Loading.addRegister, List.mem_append, List.mem_singleton, List.length_append, List.length_singleton] at hp ⊢
    rcases hp with hp | rfl
    · exact Nat.lt_succ_of_lt (h.indices p hp)
    · exact Nat.lt_succ_self _
  sizes := h.sizes
  channels := fun he r' hr' => by
    rcases List.mem_append.mp hr' with hr' | hr'
    · exact h.channels he r' hr'
    · exact List.mem_singleton.mp hr' ▸ hr he
  words := fun hlen w hw => by
    simp only [Loading.addRegister, List.length_append, List.length_singleton] at hlen
    have hkinds : (l.addRegister name r).img.kinds = l.img.kinds ++ [r.kind] := by
      simp [Loading.addRegister, ProgramImage.kinds]
    rw [hkinds]
    exact wordWf_append (h.words (by omega) w hw) _

theorem Building.addWord (h : Building n l.img l.errors) {w : InstrWord}
    (hw : l.img.gpr.length ≤ Config.regCap → wordWf l.img.kinds w = true) :
    Building n (l.addWord w).img (l.addWord w).errors :=
  { h with
    words := fun hlen w' hw' => by
      rcases List.mem_append.mp hw' with hw' | hw'
      · exact h.words hlen w' hw'
      · exact List.mem_singleton.mp hw' ▸ hw hlen }

theorem lt_of_declaredChannel {number : Option Decimal} {c : Nat} (h : declaredChannel n number = some c) : c < n := by
  unfold declaredChannel at h
  split at h
  · split at h
    · next hlt => exact Option.some.inj h ▸ hlt
    · cases h
  · cases h

/-- A declaration's channel exists, or the declaration is diagnosed; every other kind has channel 0 (R106). -/
theorem Building.newRegister (h : Building n l.img l.errors) (row : Nat) (k : Kind) {name : Text}
    (number : Option Decimal) (hname : lookupText l.img.symbols name = none) :
    Building n (l.newRegister n row k name number).img (l.newRegister n row k name number).errors := by
  unfold Loading.newRegister
  split
  · next hk =>
    split
    · next c hc =>
      exact h.addRegister hname fun _ => by simp [recordWf, hk, lt_of_declaredChannel hc]
    · exact (h.raise .ioIndexOutOfRange row).addRegister hname fun he => absurd he (l.raise_errors_ne _ row)
  · next hk =>
    have hreg := h.addRegister (r := ⟨k, declaredValue k number, 0⟩) hname fun _ => by simp [recordWf, hk]
    dsimp only
    split
    · exact { hreg with }
    · exact hreg

theorem Building.declare (h : Building n l.img l.errors) (row : Nat) (k : Kind) (name : Text) (number : Option Decimal) :
    Building n (l.declare n row k name number).img (l.declare n row k name number).errors := by
  unfold Loading.declare
  split
  · exact h.raise ..
  · next hname => exact h.newRegister row k number hname

/-- The check W9 speaks of the two declared sizes only. -/
theorem checkSizes_iff (img : ProgramImage) :
    img.checkSizes = true ↔ 1 ≤ img.itramSize ∧ img.itramSize ≤ Config.itramCap ∧ 1 ≤ img.xtramSize ∧
      img.xtramSize ≤ Config.xtramCap := by
  simp [ProgramImage.checkSizes, and_assoc]

theorem Building.tramSize (h : Building n l.img l.errors) (row : Nat) (long : Bool) (size : Nat) :
    Building n (l.tramSize row long size).img (l.tramSize row long size).errors := by
  obtain ⟨hi1, hi2, hx1, hx2⟩ := (checkSizes_iff _).mp h.sizes
  unfold Loading.tramSize
  split
  · exact h.raise ..
  · next hsize =>
    have hpos : 1 ≤ size := Nat.one_le_iff_ne_zero.mpr hsize
    split <;> split
    · exact h.raise ..
    · next hcap => exact { h with sizes := (checkSizes_iff _).mpr ⟨hi1, hi2, hpos, not_lt.mp hcap⟩ }
    · exact h.raise ..
    · next hcap => exact { h with sizes := (checkSizes_iff _).mpr ⟨hpos, not_lt.mp hcap, hx1, hx2⟩ }

/-- An operand resolves to an index of the register file, which it may lengthen by one register (R108). -/
theorem Building.resolve (h : Building n l.img l.errors) {row : Nat} {token : Text} {i? : Option Nat} {l' : Loading}
    (hres : l.resolve row token = (i?, l')) :
    Building n l'.img l'.errors ∧ l.img.gpr.length ≤ l'.img.gpr.length ∧
      ∀ i, i? = some i → i < l'.img.gpr.length := by
  unfold Loading.resolve at hres
  split at hres
  · next i hi =>
    obtain ⟨rfl, rfl⟩ := Prod.mk.inj hres
    refine ⟨h, le_rfl, fun j hj => ?_⟩
    obtain rfl := Option.some.inj hj
    exact h.indices _ (mem_of_lookupText hi)
  · next hname =>
    split at hres
    · next d _ =>
      obtain ⟨rfl, rfl⟩ := Prod.mk.inj hres
      refine ⟨h.addRegister hname fun _ => rfl, ?_, fun j hj => ?_⟩
      · simp [Loading.addRegister]
      · simp [Loading.addRegister, ← Option.some.inj hj]
    · obtain ⟨rfl, rfl⟩ := Prod.mk.inj hres
      exact ⟨h.raise .., le_rfl, fun j hj => nomatch hj⟩

/-- The word of an instruction line whose operands exist and whose R is no Input (R93, R110). -/
theorem wordWf_of_resolved {kinds : List Kind} {op : BitVec 5} (hop : takesOperands op) {r a x y : Nat}
    (hcap : kinds.length ≤ Config.regCap) (hr : r < kinds.length) (ha : a < kinds.length) (hx : x < kinds.length)
    (hy : y < kinds.length) (hdest : kinds[r]? ≠ some .input) :
    let o : Opnds := ⟨BitVec.ofNat 12 r, BitVec.ofNat 12 a, BitVec.ofNat 12 x, BitVec.ofNat 12 y⟩
    wordWf kinds (packWord op (flagsOf kinds o) o) = true := by
  have hidx : ∀ {i : Nat}, i < kinds.length → (BitVec.ofNat 12 i).toNat = i := fun hi =>
    (BitVec.toNat_ofNat ..).trans (Nat.mod_eq_of_lt (hi.trans_le hcap))
  refine wordWf_packWord hop ((Opnds.inRange_iff _ _).mpr ?_) ?_
  · rw [hidx hr, hidx ha, hidx hx, hidx hy]
    exact ⟨hr, ha, hx, hy⟩
  · rw [Opnds.destOk, kindAt, hidx hr]
    simpa using hdest

theorem Building.instruction (h : Building n l.img l.errors) (row : Nat) {op : BitVec 5} (hop : takesOperands op)
    (r a x y : Text) :
    Building n (l.instruction row op r a x y).img (l.instruction row op r a x y).errors := by
  unfold Loading.instruction
  rcases hr : l.resolve row r with ⟨ri, l1⟩
  rcases ha : l1.resolve row a with ⟨ai, l2⟩
  rcases hx : l2.resolve row x with ⟨xi, l3⟩
  rcases hy : l3.resolve row y with ⟨yi, l4⟩
  obtain ⟨h1, -, hri⟩ := h.resolve hr
  obtain ⟨h2, hlen2, hai⟩ := h1.resolve ha
  obtain ⟨h3, hlen3, hxi⟩ := h2.resolve hx
  obtain ⟨h4, hlen4, hyi⟩ := h3.resolve hy
  simp only [ha, hx, hy]
  split
  · next r a x y =>
    have hr := hri r rfl
    have ha := hai a rfl
    have hx := hxi x rfl
    have hy := hyi y rfl
    have hk : l4.img.kinds.length = l4.img.gpr.length := List.length_map _
    split
    · exact h4.raise ..
    · next hdest =>
      exact h4.addWord fun hcap =>
        wordWf_of_resolved hop (hk.trans_le hcap) (by omega) (by omega) (by omega) (by omega) hdest
  · exact h4

/-- One line keeps the image under construction in form (R105). -/
theorem Building.line (h : Building n l.img l.errors) (row : Nat) (t : Text) :
    Building n (l.line n row (classify t)).img (l.line n row (classify t)).errors := by
  cases hc : classify t with
  | blank => exact h
  | decl k name number => exact h.declare row k name number
  | tramSize long size => exact h.tramSize row long size
  | instruction op r a x y => exact h.instruction row (takesOperands_of_classify hc) r a x y
  | terminator => exact h.addWord fun _ => wordWf_endWord _
  | invalid => exact h.raise ..

theorem Building.lines (ts : List Text) (row : Nat) (h : Building n l.img l.errors) :
    Building n (Loading.lines n row ts l).img (Loading.lines n row ts l).errors := by
  induction ts generalizing row l with
  | nil => exact h
  | cons t ts ih => exact ih (row + 1) (h.line row (normalLine t))

/-- When the last line that is not blank is an `end` line, the last word is END (R116). -/
def Loading.EndMarked (l : Loading) : Prop := l.lastIsEnd = true → l.img.imem.getLast? = some endWord

theorem Loading.EndMarked.line (h : l.EndMarked) (n row : Nat) (c : Line) : (l.line n row c).EndMarked := by
  cases c with
  | blank => exact h
  | terminator => exact fun _ => List.getLast?_concat ..
  | decl | tramSize | instruction | invalid => exact fun he => nomatch he

theorem Loading.EndMarked.lines (ts : List Text) (row : Nat) (h : l.EndMarked) :
    (Loading.lines n row ts l).EndMarked := by
  induction ts generalizing row l with
  | nil => exact h
  | cons t ts ih => exact ih (row + 1) (h.line n row _)

/-- The check W2 of a file that begins with the pseudo-registers (R23). -/
theorem checkRegisters_of_prefix {img : ProgramImage} (h : pseudoRegisters <+: img.gpr)
    (hcap : img.gpr.length ≤ Config.regCap) : img.checkRegisters = true := by
  have hlen : 4 ≤ img.gpr.length := h.length_le
  obtain ⟨rest, hrest⟩ := h
  have hkinds : img.kinds.take 4 = [.ccr, .read, .write, .atMark] := by
    rw [ProgramImage.kinds, ← hrest]
    rfl
  simp [ProgramImage.checkRegisters, hlen, hcap, hkinds]

/-- Every image the loader accepts passes the checks of R112. -/
theorem wf_of_assemble {text : Text} {img : ProgramImage} (h : assemble n text = .accepted img) : img.wf n = true := by
  unfold assemble at h
  have hbuild := building_start.lines (n := n) (splitOnChar '\n' text) 1
  have hend := Loading.EndMarked.lines (n := n) (l := .start) (splitOnChar '\n' text) 1 (fun he => nomatch he)
  generalize Loading.lines n 1 (splitOnChar '\n' text) Loading.start = l at h hbuild hend
  dsimp only at h
  split at h
  · cases h
  · next hfits =>
    split at h
    · next herr =>
      obtain rfl := LoadResult.accepted.inj h
      unfold Loading.finish at hfits herr ⊢
      split at herr
      · next hlast =>
        rw [if_pos hlast] at hfits ⊢
        simp only [ProgramImage.exceeds, Bool.or_eq_true, decide_eq_true_eq, not_or, not_lt] at hfits
        obtain ⟨⟨hregs, hwords⟩, -⟩ := hfits
        have hfinal := hend hlast
        have hpos : 1 ≤ l.img.imem.length := by
          rw [Nat.one_le_iff_ne_zero, ne_eq, List.length_eq_zero_iff]
          intro hnil
          simp [hnil] at hfinal
        have hlength : l.img.checkLength = true := by simp [ProgramImage.checkLength, hpos, hwords]
        exact (ProgramImage.wf_iff _ _).mpr ⟨hlength, checkRegisters_of_prefix hbuild.pseudo hregs,
          List.all_eq_true.mpr (hbuild.words hregs), List.all_eq_true.mpr (hbuild.channels herr), decide_eq_true hfinal,
          hbuild.sizes, decide_eq_true hbuild.names⟩
      · exact absurd herr (l.raise_errors_ne _ _)
    · cases h

end Sys2Proof.Machine
end

section
/-! The invariant: the state after reset has it, and every step of a tick and of the host keeps it. -/

namespace Sys2Proof.Machine

/-! ### States with the invariant -/

/-- Buffers of one element a channel, empty delay lines, no program. -/
theorem State.inv_construct {n : Nat} (hn : 1 ≤ n) : (State.construct n).Inv where
  channels := hn
  inBuf := List.length_replicate
  outBuf := List.length_replicate
  itram := ⟨Memory.wf_nil, fun _ hc => (nomatch hc), Nat.zero_lt_succ _, Nat.zero_lt_succ _⟩
  xtram := ⟨Memory.wf_nil, fun _ hc => (nomatch hc), Nat.zero_lt_succ _, Nat.zero_lt_succ _⟩
  image := fun h => nomatch h
  tick := fun h => nomatch h

/-- Settles O53: `State.reset` is the constructed state of one channel. -/
theorem resetHasInvariant : Obligations.ResetHasInvariant := by
  unfold Obligations.ResetHasInvariant
  exact ⟨State.inv_construct (by decide), fun _ hn => State.inv_construct hn⟩

/-- The invariant does not speak of the host's side (log 3). -/
theorem State.Inv.withHost {s : State} (h : s.Inv) (queue : List HostCmd) (replies : List HostReply) (count : Nat) :
    State.Inv { s with hostQueue := queue, replies := replies, freeCount := count } :=
  ⟨h.channels, h.inBuf, h.outBuf, h.itram, h.xtram, h.image, h.tick⟩

theorem State.Inv.answer {s : State} (h : s.Inv) (r : HostReply) : (s.answer r).Inv := h.withHost _ _ _

theorem State.Inv.dequeue {s : State} (h : s.Inv) : s.dequeue.Inv := h.withHost _ _ _

/-- The checks of R112 read the kinds and channels of the registers, not their values (R21). -/
theorem wf_eq_of_layout {n : Nat} {img img' : ProgramImage}
    (hlayout : img'.gpr.map (fun r => (r.kind, r.io)) = img.gpr.map fun r => (r.kind, r.io))
    (himem : img'.imem = img.imem) (hitram : img'.itramSize = img.itramSize) (hxtram : img'.xtramSize = img.xtramSize)
    (hsymbols : img'.symbols = img.symbols) : img'.wf n = img.wf n := by
  have hlength : img'.gpr.length = img.gpr.length := by simpa using congrArg List.length hlayout
  have hkinds : img'.kinds = img.kinds := by
    simpa [ProgramImage.kinds, Function.comp_def] using congrArg (List.map Prod.fst) hlayout
  have hchannels : img'.checkChannels n = img.checkChannels n := by
    have hall := congrArg (List.all · fun p => recordWf n ⟨p.1, 0#32, p.2⟩) hlayout
    rwa [List.all_map, List.all_map] at hall
  unfold ProgramImage.wf
  rw [hchannels]
  unfold ProgramImage.checkLength ProgramImage.checkRegisters ProgramImage.checkWords ProgramImage.checkFinalEnd
    ProgramImage.checkSizes ProgramImage.checkNames
  rw [himem, hlength, hkinds, hitram, hxtram, hsymbols]

theorem State.SameProgram.imageWf_eq {s t : State} (h : s.SameProgram t) : t.imageWf = s.imageWf := by
  unfold State.imageWf
  rw [h.numChannels]
  exact wf_eq_of_layout h.layout h.imem h.itramSize h.xtramSize h.symbols

/-- A change that keeps the program keeps the invariant when the parts it may change stay in form. -/
theorem State.SameProgram.inv {s t : State} (h : s.SameProgram t) (hs : s.Inv)
    (hout : t.outBuf.length = s.outBuf.length) (hitram : t.itram.wf Config.itramCap)
    (hxtram : t.xtram.wf Config.xtramCap)
    (htick : t.inTick = true → s.inTick = true ∧ t.pc < s.imem.length ∧ t.ended = false) : t.Inv where
  channels := h.numChannels ▸ hs.channels
  inBuf := by rw [h.inBuf, h.numChannels, hs.inBuf]
  outBuf := by rw [hout, h.numChannels, hs.outBuf]
  itram := hitram
  xtram := hxtram
  image := fun hl => h.imageWf_eq.trans (hs.image (h.loadedOk ▸ hl))
  tick := fun ht => by
    obtain ⟨hst, hpc, hended⟩ := htick ht
    obtain ⟨hl, -, -⟩ := hs.tick hst
    exact ⟨h.loadedOk.trans hl, h.imem ▸ hpc, hended⟩

/-- The sizes a well-formed image declares (W9). -/
theorem State.sizes_of_imageWf {s : State} (h : s.imageWf = true) :
    1 ≤ s.itram.size ∧ s.itram.size ≤ Config.itramCap ∧ 1 ≤ s.xtram.size ∧ s.xtram.size ≤ Config.xtramCap := by
  obtain ⟨-, -, -, -, -, hsizes, -⟩ := (ProgramImage.wf_iff _ _).mp h
  exact (checkSizes_iff _).mp hsizes

/-- A well-formed image has a word (W1). -/
theorem State.imem_pos_of_imageWf {s : State} (h : s.imageWf = true) : 0 < s.imem.length := by
  obtain ⟨hlength, -⟩ := (ProgramImage.wf_iff _ _).mp h
  exact of_decide_eq_true (Bool.and_eq_true_iff.mp hlength).1

/-! ### Steps of a tick -/

theorem State.Inv.skipSlot {s : State} (h : s.Inv) (ht : s.inTick = true) : s.skipSlot.Inv := by
  obtain ⟨-, hpc, hended⟩ := h.tick ht
  exact s.sameProgram_skipSlot.inv h rfl h.itram h.xtram fun _ => ⟨ht, nextPc_lt hpc, hended⟩

/-- An executed instruction and what follows it: the delay lines stay in form, and the pass goes on inside the list or the
tick ends (R36, R142, R145). -/
theorem State.Inv.afterExec {s u : State} {i : Instr} (h : s.Inv) (ht : s.inTick = true) (hx : exec i s = .next u) :
    u.afterExec.Inv := by
  obtain ⟨hl, hpc, -⟩ := h.tick ht
  obtain ⟨hi1, hi2, hx1, hx2⟩ := State.sizes_of_imageWf (h.image hl)
  have heff := exec_effect hx
  have hframe := heff.frame
  have hitram := heff.itram.wf h.itram hi1 hi2
  have hxtram := heff.xtram.wf h.xtram hx1 hx2
  have hsame := (exec_sameProgram hx).afterExec
  unfold State.afterExec at hsame ⊢
  split at hsame
  · next hend =>
    rw [if_pos hend]
    exact hsame.inv h heff.outBuf_length hitram hxtram fun he => nomatch he
  · next hend =>
    rw [if_neg hend]
    refine hsame.inv h heff.outBuf_length hitram hxtram fun _ => ⟨ht, ?_, Bool.eq_false_iff.mpr hend⟩
    have hupc : u.pc = s.pc := by rw [hframe]
    have huimem : u.imem = s.imem := by rw [hframe]
    change nextPc u.imem.length u.pc < s.imem.length
    rw [hupc, huimem]
    exact nextPc_lt hpc

/-! ### Steps of the host -/

theorem State.sameProgram_hostWrite (s : State) (i : Nat) (v : F32) : s.SameProgram (s.hostWrite i v) := by
  constructor
  case layout =>
    apply List.ext_getElem?
    intro j
    rw [State.layout, State.layout, List.getElem?_map, List.getElem?_map]
    exact getElem?_writeValue_kind_io s.gpr i j v
  all_goals rfl

theorem inv_portWrite {s t : State} {i : Nat} {v : F32} (hs : s.Inv) (h : portWrite i v s = .next t) : t.Inv := by
  unfold portWrite at h
  split at h
  · rw [← Host.Outcome.next.inj h]
    exact ((s.sameProgram_hostWrite i v).inv hs rfl hs.itram hs.xtram fun ht => ⟨ht, (hs.tick ht).2⟩).answer _
  · cases h

theorem inv_portRead {s t : State} {i : Nat} (hs : s.Inv) (h : portRead i s = .next t) : t.Inv := by
  unfold portRead at h
  split at h
  · rw [← Host.Outcome.next.inj h]
    exact hs.answer _
  · cases h

theorem inv_construct {s t : State} {n : Nat} (h : construct n s = .next t) : t.Inv := by
  unfold construct at h
  split at h
  · cases h
  · next hn =>
    rw [← Host.Outcome.next.inj h]
    exact ((State.inv_construct (Nat.one_le_iff_ne_zero.mpr hn)).withHost _ _ _).answer _

/-- A load moves no cursor and writes no delay element (R285). -/
theorem State.Inv.loadSucceeded {s : State} (h : s.Inv) (ht : s.inTick = false) {img : ProgramImage}
    (hwf : img.wf s.numChannels = true) : (s.loadSucceeded img).Inv :=
  ⟨h.channels, h.inBuf, h.outBuf, h.itram, h.xtram, fun _ => hwf, fun he => absurd (ht.symm.trans he) (by decide)⟩

/-- Whatever a failed load leaves in the program is not accepted (R256, log 11). -/
theorem State.Inv.loadFailed {s : State} (h : s.Inv) (ht : s.inTick = false) (errors : List ErrorRecord) :
    (s.loadFailed errors).Inv :=
  ⟨h.channels, h.inBuf, h.outBuf, h.itram, h.xtram, fun he => (nomatch he),
    fun he => absurd (ht.symm.trans he) (by decide)⟩

theorem inv_loadText {s t : State} {text : Text} (hs : s.Inv) (ht : s.inTick = false) (h : loadText text s = .next t) :
    t.Inv := by
  unfold loadText at h
  split at h
  · next himg =>
    rw [← Host.Outcome.next.inj h]
    exact (hs.loadSucceeded ht (wf_of_assemble himg)).answer _
  · rw [← Host.Outcome.next.inj h]
    exact (hs.loadFailed ht _).answer _
  · cases h

theorem inv_loadImage {s t : State} {raw : RawImage} (hs : s.Inv) (ht : s.inTick = false)
    (h : loadImage raw s = .next t) : t.Inv := by
  unfold loadImage at h
  split at h
  · split at h
    · next hwf =>
      rw [← Host.Outcome.next.inj h]
      exact (hs.loadSucceeded ht hwf).answer _
    · cases h
  · cases h

/-- A tick starts on an accepted, well-formed program with one sample a channel, at the first word (R140, R141). -/
theorem inv_startTick {s t : State} {samples : List F32} (hs : s.Inv) (h : startTick samples s = .next t) : t.Inv := by
  unfold startTick at h
  split at h
  · cases h
  · next hl =>
    split at h
    · cases h
    · next hwf =>
      split at h
      · cases h
      · next hlen =>
        simp only [Bool.not_eq_true', Bool.not_eq_false] at hl hwf
        rw [← Host.Outcome.next.inj h]
        exact ⟨hs.channels, not_not.mp hlen, hs.outBuf, hs.itram, hs.xtram, fun _ => hwf,
          fun _ => ⟨hl, State.imem_pos_of_imageWf hwf, rfl⟩⟩

/-- Every transaction of the host keeps the invariant. -/
theorem inv_perform {s t : State} {c : HostCmd} (hs : s.Inv) (ht : s.inTick = false) (h : perform c s = .next t) :
    t.Inv := by
  cases c with
  | reset n => exact inv_construct h
  | loadText text => exact inv_loadText hs ht h
  | loadImage raw => exact inv_loadImage hs ht h
  | tick samples => exact inv_startTick hs h
  | write i v => exact inv_portWrite hs h
  | read i => exact inv_portRead hs h
  | setByName name v =>
    simp only [perform] at h
    split at h
    · exact inv_portWrite hs h
    · rw [← Host.Outcome.next.inj h]
      exact hs.answer _
  | getByName name =>
    simp only [perform] at h
    split at h
    · exact inv_portRead hs h
    · rw [← Host.Outcome.next.inj h]
      exact hs.answer _
  | getCounter | getControls | getErrors =>
    rw [← Host.Outcome.next.inj h]
    exact hs.answer _

theorem inv_hostStep {s t : State} (hs : s.Inv) (ht : s.inTick = false) (h : hostStep s = .next t) : t.Inv := by
  unfold hostStep at h
  split at h
  · exact Host.Outcome.next.inj h ▸ hs
  · exact inv_perform hs.dequeue ht h

/-- Settles O54: a skipped slot, an executed instruction, or a transaction of the host. -/
theorem stepKeepsInvariant : Obligations.StepKeepsInvariant := by
  unfold Obligations.StepKeepsInvariant
  intro s t hs h
  cases ht : s.inTick with
  | true =>
    obtain ⟨w, -, ⟨-, rfl⟩ | ⟨-, i, u, -, hx, rfl⟩⟩ := step_inTick_next ht h
    · exact hs.skipSlot ht
    · exact hs.afterExec ht hx
  | false =>
    rw [step_idle ht] at h
    exact inv_hostStep hs ht h

end Sys2Proof.Machine
end

section
/-! When an instruction does not complete, and the range of every index formed from data. -/

namespace Sys2Proof.Machine

/-! ### Refusals -/

theorem executed_of_operandsExist_false {s : State} {f : IoFlags} {o : Opnds} (h : s.operandsExist o = false)
    (operation : Sources → State → State) : executed f o operation s = .refused .operandIndexOutOfRange := by
  simp [executed, h]

theorem executed_of_channelsExist_false {s : State} {f : IoFlags} {o : Opnds} (ho : s.operandsExist o = true)
    (hc : s.channelsExist f o = false) (operation : Sources → State → State) :
    executed f o operation s = .refused .channelOutOfRange := by
  simp [executed, ho, hc]

/-- The outcome of the common steps tells which of the two checks fails first (W4 before W7). -/
theorem executed_outcome_iff (f : IoFlags) (o : Opnds) (operation : Sources → State → State) (s : State) :
    (executed f o operation s = .refused .operandIndexOutOfRange ↔ s.operandsExist o = false) ∧
    (executed f o operation s = .refused .channelOutOfRange ↔
      s.operandsExist o = true ∧ s.channelsExist f o = false) ∧
    ((∃ t, executed f o operation s = .next t) ↔ s.Ready f o) := by
  unfold State.Ready
  cases ho : s.operandsExist o with
  | false => simp [executed_of_operandsExist_false ho]
  | true =>
    cases hc : s.channelsExist f o with
    | false => simp [executed_of_channelsExist_false ho hc]
    | true => simp [executed_ready ⟨ho, hc⟩]

/-- Settles O24: every instruction but END is the common steps around its operation. -/
theorem instructionStops : Obligations.InstructionStops := by
  unfold Obligations.InstructionStops
  intro i s hi
  rw [exec_executed i hi]
  exact executed_outcome_iff i.flags i.opnds (operationOf i) s

/-! ### Indices formed from data -/

theorem clamp_eq_max_min (v : Int) {lo hi : Int} (h : lo ≤ hi) : clamp v lo hi = max lo (min v hi) := by
  unfold clamp
  split
  · omega
  · split <;> omega

/-- The offset of a delay access as an integer (R230). -/
theorem delayOffset_eq_max_min {n : Nat} (hn : 1 ≤ n) (y : F32) :
    (delayOffset n y : Int) = max 0 (min (int32 y) (n - 1)) := by
  rw [delayOffset, clamp_eq_max_min _ (by omega)]
  omega

theorem int32_of_isNan32 {v : F32} (h : isNan32 v = true) : int32 v = 0 := by
  rw [int32, (isNan32_iff v).mp h]
  rfl

theorem tableExponent_bounds (x : F32) : 1 ≤ tableExponent x ∧ tableExponent x ≤ 31 := by
  have h : (1 : Int) ≤ clamp (int32 x) 1 31 ∧ clamp (int32 x) 1 31 ≤ 31 := clamp_bounds (by decide)
  change 1 ≤ (clamp (int32 x) 1 31).toNat ∧ (clamp (int32 x) 1 31).toNat ≤ 31
  omega

theorem interpIndex_le (a : F32) : interpIndex a ≤ 62 := by
  have h : (0 : Int) ≤ clamp (int64 (interpPosition a)) 0 62 ∧ clamp (int64 (interpPosition a)) 0 62 ≤ 62 :=
    clamp_bounds (by decide)
  change (clamp (int64 (interpPosition a)) 0 62).toNat ≤ 62
  omega

/-- Settles O36: each index is clamped, or a remainder by the capacity. -/
theorem dynamicIndicesInRange : Obligations.DynamicIndicesInRange := by
  unfold Obligations.DynamicIndicesInRange
  refine ⟨tableExponent_bounds, fun a => Nat.lt_succ_of_le (Nat.succ_le_succ (interpIndex_le a)), fun n y hn => ?_,
    fun cap off l hcap => ⟨writeAddress_lt hcap l off, readAddress_lt hcap l off⟩⟩
  have hoff := delayOffset_eq_max_min hn y
  refine ⟨delayOffset_lt hn y, fun hnan => ?_, fun hneg => ?_, fun hhigh => ?_, fun h0 hlt => ?_⟩
  · have hzero := int32_of_isNan32 hnan
    omega
  · omega
  · omega
  · omega

end Sys2Proof.Machine
end

section
/-! The host's register port, its reads and its calls by name. -/

namespace Sys2Proof.Machine

/-- Between ticks a step performs the first pending transaction (R74). -/
theorem step_pending {s : State} {c : HostCmd} {rest : List HostCmd} (ht : s.inTick = false)
    (hq : s.hostQueue = c :: rest) : step s = perform c { s with hostQueue := rest } :=
  (step_idle ht).trans (hostStep_cons hq)

/-! ### The register port -/

/-- A write to an existing register replaces its record by one of the same kind and channel (R21). -/
theorem writeValue_eq_set {gpr : List RegRecord} {i : Nat} {r : RegRecord} (h : gpr[i]? = some r) (v : F32) :
    writeValue gpr i v = gpr.set i { r with value := v } := by
  simp [writeValue, List.modify_eq_set, h]

theorem portWrite_of_getElem? {s : State} {i : Nat} {r : RegRecord} (h : s.gpr[i]? = some r) (v : F32) :
    portWrite i v s = .next (State.answer { s with gpr := s.gpr.set i { r with value := v } } .written) := by
  have hlt : i < s.gpr.length := (List.getElem?_eq_some_iff.mp h).1
  rw [portWrite, if_pos hlt, State.hostWrite, writeValue_eq_set h]

theorem portRead_of_getElem? {s : State} {i : Nat} {r : RegRecord} (h : s.gpr[i]? = some r) :
    portRead i s = .next (s.answer (.value r.value)) := by
  simp [portRead, h]

/-- A pending transaction that comes to a port write sets one value, and the queue and the answers move on (R75, log 3). -/
theorem step_of_perform_portWrite {s : State} {c : HostCmd} {rest : List HostCmd} {i : Nat} {v : F32} {r : RegRecord}
    (ht : s.inTick = false) (hq : s.hostQueue = c :: rest)
    (hc : perform c { s with hostQueue := rest } = portWrite i v { s with hostQueue := rest }) (hr : s.gpr[i]? = some r) :
    step s = .next { s with
      gpr := s.gpr.set i { r with value := v }, hostQueue := rest, replies := s.replies ++ [.written] } :=
  (step_pending ht hq).trans (hc.trans (portWrite_of_getElem? (s := { s with hostQueue := rest }) hr v))

/-- A pending transaction that comes to a port read answers with the value, and nothing else changes (R76, log 3). -/
theorem step_of_perform_portRead {s : State} {c : HostCmd} {rest : List HostCmd} {i : Nat} {r : RegRecord}
    (ht : s.inTick = false) (hq : s.hostQueue = c :: rest)
    (hc : perform c { s with hostQueue := rest } = portRead i { s with hostQueue := rest }) (hr : s.gpr[i]? = some r) :
    step s = .next { s with hostQueue := rest, replies := s.replies ++ [.value r.value] } :=
  (step_pending ht hq).trans (hc.trans (portRead_of_getElem? (s := { s with hostQueue := rest }) hr))

/-- Settles O45: the write is the first pending transaction. -/
theorem hostWriteSetsValue : Obligations.HostWriteSetsValue := by
  unfold Obligations.HostWriteSetsValue
  exact fun s i v r rest ht hq hr => step_of_perform_portWrite ht hq rfl hr

/-- Settles O46: each read is an answer alone, and an empty queue leaves the state as it is. -/
theorem hostReadsChangeNothing : Obligations.HostReadsChangeNothing := by
  unfold Obligations.HostReadsChangeNothing
  intro s rest ht
  refine ⟨fun i r hq hr => step_of_perform_portRead ht hq rfl hr, fun hq => step_pending ht hq,
    fun hq => step_pending ht hq, fun hq => step_pending ht hq, fun hq => ?_⟩
  rw [step_idle ht, hostStep, hq]

/-! ### Calls by name -/

theorem perform_setByName_of_some {s : State} {name : Text} {i : Nat} (h : s.indexOf name = some i) (v : F32) :
    perform (.setByName name v) s = portWrite i v s := by
  simp [perform, h]

theorem perform_getByName_of_some {s : State} {name : Text} {i : Nat} (h : s.indexOf name = some i) :
    perform (.getByName name) s = portRead i s := by
  simp [perform, h]

theorem perform_setByName_of_none {s : State} {name : Text} (h : s.indexOf name = none) (v : F32) :
    perform (.setByName name v) s = .next (s.answer .notFound) := by
  simp [perform, h]

theorem perform_getByName_of_none {s : State} {name : Text} (h : s.indexOf name = none) :
    perform (.getByName name) s = .next (s.answer .notFound) := by
  simp [perform, h]

/-- Settles O47: a known name is the port's call at its index, an unknown one an answer alone. -/
theorem namedHostCalls : Obligations.NamedHostCalls := by
  unfold Obligations.NamedHostCalls
  intro s name v rest ht
  refine ⟨fun i r hname hr => ?_, fun hname hq => ?_⟩
  · have hindex : State.indexOf { s with hostQueue := rest } name = some i := hname
    exact ⟨fun hq => step_of_perform_portWrite ht hq (perform_setByName_of_some hindex v) hr,
      fun hq => step_of_perform_portRead ht hq (perform_getByName_of_some hindex) hr⟩
  · have hindex : State.indexOf { s with hostQueue := rest } name = none := hname
    rcases hq with hq | hq
    · exact (step_pending ht hq).trans (perform_setByName_of_none hindex v)
    · exact (step_pending ht hq).trans (perform_getByName_of_none hindex)

end Sys2Proof.Machine
end

section
/-! The encoding: what the decoder answers in terms of the fields of a word, that the encoder is its inverse (R98), and the
same for the register records (R100, R101). -/

namespace Sys2Proof

/-! ### The opcode numbers (R92) -/

/-- An instruction is the one of its own opcode number, flags and operands. -/
theorem instrOf_opcode (i : Instr) : instrOf i.opcode.toNat i.flags i.opnds = some i := by
  cases i <;> rfl

theorem instrOf_eq_none_iff (op : Nat) (f : IoFlags) (o : Opnds) : instrOf op f o = none ↔ 18 < op := by
  rcases Nat.lt_or_ge 18 op with h | h
  · refine iff_of_true ?_ h
    unfold instrOf
    split
    case h_20 => rfl
    all_goals omega
  · refine iff_of_false ?_ h.not_gt
    interval_cases op <;> exact Option.some_ne_none _

theorem le_of_instrOf {op : Nat} {f : IoFlags} {o : Opnds} {i : Instr} (h : instrOf op f o = some i) : op ≤ 18 := by
  refine Nat.le_of_not_lt fun hlt => ?_
  rw [(instrOf_eq_none_iff op f o).mpr hlt] at h
  cases h

/-- The instruction of a number has that number, and the given fields unless it is END (R95). -/
theorem fields_of_instrOf {op : Nat} {f : IoFlags} {o : Opnds} {i : Instr} (h : instrOf op f o = some i) :
    i.opcode.toNat = op ∧ (i ≠ .endPass → i.flags = f ∧ i.opnds = o) := by
  have hle := le_of_instrOf h
  obtain rfl | hlt | rfl | rfl : op = 16 ∨ op < 16 ∨ op = 17 ∨ op = 18 := by omega
  · obtain rfl := Option.some.inj h
    exact ⟨rfl, fun hne => absurd rfl hne⟩
  · interval_cases op <;> obtain rfl := Option.some.inj h <;> exact ⟨rfl, fun _ => ⟨rfl, rfl⟩⟩
  all_goals
    obtain rfl := Option.some.inj h
    exact ⟨rfl, fun _ => ⟨rfl, rfl⟩⟩

theorem opcode_eq_end_iff (i : Instr) : i.opcode.toNat = 16 ↔ i = .endPass := by
  cases i <;> simp [Instr.opcode]

/-! ### The decoder -/

theorem decode_of_rsv_ne {w : InstrWord} (h : fieldRsv w ≠ 0) : decode w = .error .reservedBits := if_pos h

theorem decode_of_instrOf_none {w : InstrWord} (hrsv : fieldRsv w = 0)
    (h : instrOf (fieldOp w).toNat (fieldFlags w) (fieldOpnds w) = none) : decode w = .error .illegalOpcode := by
  unfold decode
  rw [if_neg (not_not.mpr hrsv), h]

theorem decode_of_instrOf {w : InstrWord} {i : Instr} (hrsv : fieldRsv w = 0)
    (h : instrOf (fieldOp w).toNat (fieldFlags w) (fieldOpnds w) = some i) :
    decode w = if i = .endPass ∧ w ≠ endWord then .error .endFields else .ok i := by
  unfold decode
  rw [if_neg (not_not.mpr hrsv), h]
  cases i with
  | endPass => simp
  | _ => rfl

/-- A word gives an instruction exactly when the reserved field is 0, the opcode has one, and END is the END word (R98). -/
theorem decode_eq_ok_iff (w : InstrWord) (i : Instr) :
    decode w = .ok i ↔ fieldRsv w = 0 ∧ instrOf (fieldOp w).toNat (fieldFlags w) (fieldOpnds w) = some i ∧
      (i = .endPass → w = endWord) := by
  by_cases hrsv : fieldRsv w = 0
  · cases hop : instrOf (fieldOp w).toNat (fieldFlags w) (fieldOpnds w) with
    | none => simp [decode_of_instrOf_none hrsv hop]
    | some j =>
      rw [decode_of_instrOf hrsv hop]
      split
      · next hend =>
        refine iff_of_false (fun he => nomatch he) ?_
        rintro ⟨-, hj, hw⟩
        obtain rfl := Option.some.inj hj
        exact hend.2 (hw hend.1)
      · next hend =>
        simp only [Except.ok.injEq, Option.some.injEq, hrsv, true_and]
        refine ⟨?_, And.left⟩
        rintro rfl
        exact ⟨rfl, fun hj => not_not.mp fun hw => hend ⟨hj, hw⟩⟩
  · rw [decode_of_rsv_ne hrsv]
    exact iff_of_false (fun he => nomatch he) fun h => hrsv h.1

/-- The three kinds of invalid word (R98). -/
theorem decode_error_iff (w : InstrWord) :
    (∃ e, decode w = .error e) ↔
      18 < (fieldOp w).toNat ∨ fieldRsv w ≠ 0 ∨ ((fieldOp w).toNat = 16 ∧ w ≠ endWord) := by
  by_cases hrsv : fieldRsv w = 0
  · cases hop : instrOf (fieldOp w).toNat (fieldFlags w) (fieldOpnds w) with
    | none => exact iff_of_true ⟨_, decode_of_instrOf_none hrsv hop⟩ (.inl ((instrOf_eq_none_iff _ _ _).mp hop))
    | some i =>
      have hend : (fieldOp w).toNat = 16 ↔ i = .endPass := by rw [← (fields_of_instrOf hop).1, opcode_eq_end_iff]
      rw [decode_of_instrOf hrsv hop, hend]
      split
      · next hbad => exact iff_of_true ⟨_, rfl⟩ (.inr (.inr hbad))
      · next hgood =>
        refine iff_of_false (fun ⟨_, he⟩ => nomatch he) ?_
        rintro (hlt | hne | hbad)
        exacts [(le_of_instrOf hop).not_gt hlt, hne hrsv, hgood hbad]
  · exact iff_of_true ⟨_, decode_of_rsv_ne hrsv⟩ (.inr (.inl hrsv))

/-- A decoded instruction is made of the fields of its word; the END word's are those of END, all 0 (R95, R98). -/
theorem fields_of_decode {w : InstrWord} {i : Instr} (h : decode w = .ok i) :
    i.opcode = fieldOp w ∧ i.flags = fieldFlags w ∧ i.opnds = fieldOpnds w := by
  obtain ⟨-, hop, hend⟩ := (decode_eq_ok_iff w i).mp h
  obtain ⟨hnum, hfields⟩ := fields_of_instrOf hop
  refine ⟨BitVec.eq_of_toNat_eq hnum, ?_⟩
  by_cases hi : i = .endPass
  · obtain rfl := hend hi
    subst hi
    decide
  · exact hfields hi

/-! ### The encoder -/

/-- A flag bit as a field of width 1. -/
theorem ofBool_getLsbD (w : InstrWord) (i : Nat) : BitVec.ofBool (w.getLsbD i) = w.extractLsb' i 1 := by
  ext j hj
  obtain rfl : j = 0 := by omega
  simp

/-- Packing the fields of a word gives the word back when its reserved field is 0 (R91, R94). -/
theorem packWord_fields {w : InstrWord} (h : fieldRsv w = 0) : packWord (fieldOp w) (fieldFlags w) (fieldOpnds w) = w := by
  change fieldRsv w = 0#8 at h
  simp only [packWord, ← h, fieldOp, fieldFlags, fieldRsv, fieldOpnds, ofBool_getLsbD,
    BitVec.extractLsb'_append_extractLsb'_eq_extractLsb', BitVec.extractLsb'_eq_self]

/-- The encoder's formula (R98): the packed word is the OR of the shifted fields. -/
theorem packWord_eq_or (op : BitVec 5) (f : IoFlags) (o : Opnds) :
    packWord op f o = op.setWidth 64 <<< 59 ||| Machine.fieldBits f o := by
  rw [← BitVec.setWidth_eq (packWord op f o), packWord, Machine.fieldBits]
  simp only [BitVec.setWidth_append_eq_shiftLeft_setWidth_or, BitVec.shiftLeft_or_distrib, ← BitVec.shiftLeft_add,
    BitVec.or_assoc]
  simp

/-- Settles O1: the fields of a packed word are those packed, and the instruction of an instruction's own fields is itself. -/
theorem decodeOfEncode : Obligations.DecodeOfEncode := by
  unfold Obligations.DecodeOfEncode
  intro i
  refine (decode_eq_ok_iff _ _).mpr ⟨fieldRsv_packWord _ _ _, ?_, ?_⟩
  · rw [encode, fieldOp_packWord, fieldFlags_packWord, fieldOpnds_packWord]
    exact instrOf_opcode i
  · rintro rfl
    decide

/-- Settles O2: the invalid words, the fields read, and the packing of the fields read. -/
theorem decoderReadsLayout : Obligations.DecoderReadsLayout := by
  unfold Obligations.DecoderReadsLayout
  intro w
  refine ⟨decode_error_iff w, fun i h => ?_⟩
  obtain ⟨hop, hflags, hopnds⟩ := fields_of_decode h
  have hencode : encode i = w := by
    rw [encode, hop, hflags, hopnds]
    exact packWord_fields ((decode_eq_ok_iff w i).mp h).1
  exact ⟨hop, hflags, hopnds, hencode, hencode.symm.trans (packWord_eq_or _ _ _)⟩

/-- Settles O3: each word is decoded. -/
theorem specWordsDecode : Obligations.SpecWordsDecode := by
  unfold Obligations.SpecWordsDecode
  decide

/-! ### Register records (R100, R101) -/

theorem kindOfCode_code (k : Kind) : kindOfCode k.code.toNat = some k := by
  cases k <;> rfl

theorem kindOfCode_eq_none_iff (c : Nat) : kindOfCode c = none ↔ 10 < c := by
  rcases Nat.lt_or_ge 10 c with h | h
  · refine iff_of_true ?_ h
    unfold kindOfCode
    split
    case h_12 => rfl
    all_goals omega
  · refine iff_of_false ?_ h.not_gt
    interval_cases c <;> exact Option.some_ne_none _

/-- The layout of a record whose channel fits its field (R100). -/
theorem encodeRecord_toNat {r : RegRecord} (h : r.io < 2 ^ 16) :
    (encodeRecord r).toNat = r.kind.code.toNat * 2 ^ 60 + r.io * 2 ^ 32 + r.value.toNat := by
  have hv : r.value.toNat < 2 ^ 32 := r.value.isLt
  simp only [encodeRecord, BitVec.toNat_append, BitVec.toNat_ofNat, Nat.mod_eq_of_lt h, Nat.zero_mod, Nat.or_zero]
  rw [← Nat.shiftLeft_add_eq_or_of_lt h, ← Nat.shiftLeft_add_eq_or_of_lt hv]
  simp only [Nat.shiftLeft_eq]
  omega

/-- A record is in its word (R100). -/
theorem decodeRecord_encodeRecord {r : RegRecord} (h : r.io < 2 ^ 16) : decodeRecord (encodeRecord r) = some r := by
  have hword := encodeRecord_toNat h
  have hv : r.value.toNat < 2 ^ 32 := r.value.isLt
  have hrsv : (encodeRecord r).extractLsb' 48 12 = 0 := BitVec.eq_of_toNat_eq <| by
    simp only [BitVec.extractLsb'_toNat, Nat.shiftRight_eq_div_pow, hword, BitVec.ofNat_eq_ofNat, BitVec.toNat_ofNat]
    omega
  have hkind : ((encodeRecord r).extractLsb' 60 4).toNat = r.kind.code.toNat := by
    have hk : r.kind.code.toNat < 2 ^ 4 := r.kind.code.isLt
    simp only [BitVec.extractLsb'_toNat, Nat.shiftRight_eq_div_pow, hword]
    omega
  have hvalue : (encodeRecord r).extractLsb' 0 32 = r.value := BitVec.eq_of_toNat_eq <| by
    simp only [BitVec.extractLsb'_toNat, Nat.shiftRight_eq_div_pow, hword]
    omega
  have hio : ((encodeRecord r).extractLsb' 32 16).toNat = r.io := by
    simp only [BitVec.extractLsb'_toNat, Nat.shiftRight_eq_div_pow, hword]
    omega
  rw [decodeRecord, if_neg (not_not.mpr hrsv), hkind, hvalue, hio, kindOfCode_code]

/-- The words that carry no record (R100, R101). -/
theorem decodeRecord_eq_none_iff (w : RecordWord) :
    decodeRecord w = none ↔ 10 < (w.extractLsb' 60 4).toNat ∨ w.extractLsb' 48 12 ≠ 0 := by
  rw [← kindOfCode_eq_none_iff, decodeRecord]
  split
  · next hrsv => exact iff_of_true rfl (.inr hrsv)
  · next hrsv => cases kindOfCode (w.extractLsb' 60 4).toNat <;> simp [not_not.mp hrsv]

/-- Settles O4: the layout, the round trip and the refused words; the codes are evaluated. -/
theorem recordEncoding : Obligations.RecordEncoding := by
  unfold Obligations.RecordEncoding
  exact ⟨fun r h => ⟨encodeRecord_toNat h, decodeRecord_encodeRecord h⟩, decodeRecord_eq_none_iff, rfl⟩

end Sys2Proof

namespace Sys2Proof.Machine

/-- An accepted image is inside the capacities (log 14). -/
theorem exceeds_of_assemble {n : Nat} {text : Text} {img : ProgramImage} (h : assemble n text = .accepted img) :
    ProgramImage.exceeds img = false := by
  unfold assemble at h
  dsimp only at h
  split at h
  · cases h
  · next hfits =>
    split at h
    · obtain rfl := LoadResult.accepted.inj h
      exact Bool.eq_false_of_not_eq_true hfits
    · cases h

/-- Every channel number of an image inside the capacities fits the record's field (R100, log 14). -/
theorem io_lt_of_exceeds {img : ProgramImage} (h : ProgramImage.exceeds img = false) {r : RegRecord} (hr : r ∈ img.gpr) :
    r.io < 2 ^ 16 := by
  simp only [ProgramImage.exceeds, Bool.or_eq_false_iff, List.any_eq_false, decide_eq_true_eq, not_le] at h
  exact h.2 r hr

/-- Settles O50: the checks are those of `wf_of_assemble`, and the refusal of great channel numbers gives the words of W10. -/
theorem acceptedImageIsWellFormed : Obligations.AcceptedImageIsWellFormed := by
  unfold Obligations.AcceptedImageIsWellFormed
  exact fun n text img h =>
    ⟨wf_of_assemble h, fun r hr => decodeRecord_encodeRecord (io_lt_of_exceeds (exceeds_of_assemble h) hr)⟩

end Sys2Proof.Machine
end

section
/-! The slots of a tick: what every executed instruction counts and publishes, its start, and that a tick of a program
without SKIP comes to its end. -/

namespace Sys2Proof.Machine

/-! ### The count and the publication -/

/-- Every executed instruction counts once, END included (R149). -/
theorem exec_icount {i : Instr} {s t : State} (h : exec i s = .next t) : t.icount = s.icount + 1 := by
  have hframe := (operationOf_effect i (sourcesOf s i.flags i.opnds) (s.inject i.flags i.opnds)).frame
  rw [exec_next h, State.publish_eq, hframe, State.inject_eq]
  rfl

/-- Settles O29: an executed instruction counts by `exec_icount`, and a skipped slot is no instruction. -/
theorem executedInstructionsCount : Obligations.ExecutedInstructionsCount := by
  unfold Obligations.ExecutedInstructionsCount
  refine ⟨fun i s t h => ?_, fun s t ht hk h => ?_⟩
  · rw [exec_icount h, BitVec.toNat_add]
    rfl
  · obtain ⟨w, -, ⟨-, rfl⟩ | ⟨h0, -⟩⟩ := step_inTick_next ht h
    · rfl
    · exact absurd h0 hk

/-- The channel of a register never changes (R21). -/
theorem exec_reg_io {i : Instr} {s t : State} (h : exec i s = .next t) (j : RegIdx) : (t.reg j).io = (s.reg j).io := by
  rw [State.reg_eq t]
  exact s.io_of_same j t.gpr (exec_kind_io h j.toNat)

/-- The output buffer after an executed instruction: R's register, as the next state has it, is published (R150). -/
theorem exec_outBuf {i : Instr} {s t : State} (h : exec i s = .next t) :
    t.outBuf = if i.flags.ho then s.outBuf.set (t.reg i.opnds.r).io (t.value i.opnds.r) else s.outBuf := by
  have hframe := (operationOf_effect i (sourcesOf s i.flags i.opnds) (s.inject i.flags i.opnds)).frame
  rw [exec_next h, State.publish_eq, hframe, State.inject_eq]
  rfl

/-- Settles O30: what is published is R's value in the next state, on the channel R has in both. -/
theorem onlyDestinationPublishes : Obligations.OnlyDestinationPublishes := by
  unfold Obligations.OnlyDestinationPublishes
  intro i s t h
  rw [exec_outBuf h, exec_reg_io h]

/-! ### A step of a tick -/

theorem step_of_skipcnt_ne_zero {s : State} {w : InstrWord} (ht : s.inTick = true) (hk : s.skipcnt ≠ 0)
    (hf : s.fetch = some w) : step s = .next s.skipSlot := by
  rw [step_inTick ht hf, if_pos hk]

theorem step_of_decode {s : State} {w : InstrWord} {i : Instr} (ht : s.inTick = true) (hk : s.skipcnt = 0)
    (hf : s.fetch = some w) (hd : decode w = .ok i) : step s = settle (exec i s) := by
  rw [step_inTick ht hf, if_neg (not_not.mpr hk), hd]

/-- Settles O39: the step is the instruction's outcome, and then the end of the tick or the advance. -/
theorem stepRunsDecodedInstruction : Obligations.StepRunsDecodedInstruction := by
  unfold Obligations.StepRunsDecodedInstruction
  intro s w i ht hk hf hd
  have hstep := step_of_decode ht hk hf hd
  refine ⟨fun t hx => ?_, fun r hx => ?_⟩
  · rw [hstep, hx]
    rfl
  · rw [hstep, hx]
    rfl

/-- Settles O40: the skipped slot and the advance of the pass position. -/
theorem skippedSlotDoesNothingElse : Obligations.SkippedSlotDoesNothingElse := by
  unfold Obligations.SkippedSlotDoesNothingElse
  exact fun s w ht hk hf => step_of_skipcnt_ne_zero ht hk hf

theorem startTick_of_accepted {s : State} {samples : List F32} (hl : s.loadedOk = true) (hwf : s.imageWf = true)
    (hn : samples.length = s.numChannels) : startTick samples s = .next (s.beginTick samples) := by
  simp [startTick, hl, hwf, hn]

/-- Settles O41: the tick is the first pending transaction, and none of its refusals applies. -/
theorem tickStart : Obligations.TickStart := by
  unfold Obligations.TickStart
  exact fun s samples rest ht hq hl hwf hn =>
    (step_pending ht hq).trans (startTick_of_accepted (s := { s with hostQueue := rest }) hl hwf hn)

/-! ### The words of an accepted program execute -/

/-- The word of a tick's slot passes the checks W3 to W6 (R112, R145). -/
theorem State.Inv.fetch_wf {s : State} (h : s.Inv) (ht : s.inTick = true) :
    ∃ w i, s.fetch = some w ∧ w ∈ s.imem ∧ decode w = .ok i ∧ i.wf s.kinds = true := by
  obtain ⟨hl, hpc, -⟩ := h.tick ht
  obtain ⟨-, -, hwords, -⟩ := (ProgramImage.wf_iff _ _).mp (h.image hl)
  have hmem := List.getElem_mem hpc
  have hw : wordWf s.kinds s.imem[s.pc] = true := List.all_eq_true.mp hwords _ hmem
  unfold wordWf at hw
  split at hw
  · next i hd => exact ⟨_, i, List.getElem?_eq_getElem hpc, hmem, hd, hw⟩
  · cases hw

/-- A register of kind Input or Output of an accepted program has an existing channel (W7). -/
theorem State.Inv.io_lt {s : State} (h : s.Inv) (hl : s.loadedOk = true) {p : RegIdx} (hp : p.toNat < s.gpr.length)
    (hk : (s.reg p).kind = .input ∨ (s.reg p).kind = .output) : (s.reg p).io < s.numChannels := by
  obtain ⟨-, -, -, hchannels, -⟩ := (ProgramImage.wf_iff _ _).mp (h.image hl)
  have hreg : s.reg p = s.gpr[p.toNat] := by rw [State.reg_eq, List.getElem?_eq_getElem hp, Option.getD_some]
  have hrec : recordWf s.numChannels (s.reg p) = true :=
    List.all_eq_true.mp hchannels _ (hreg ▸ List.getElem_mem hp)
  rw [recordWf, if_pos hk] at hrec
  exact of_decide_eq_true hrec

theorem State.Inv.inChannelExists {s : State} (h : s.Inv) (hl : s.loadedOk = true) {p : RegIdx}
    (hp : p.toNat < s.gpr.length) : s.inChannelExists p = true := by
  simp only [State.inChannelExists, Bool.or_eq_true, decide_eq_true_eq]
  refine or_iff_not_imp_left.mpr fun hk => ?_
  rw [h.inBuf]
  exact h.io_lt hl hp (.inl (not_not.mp hk))

theorem State.kindAt_kinds {s : State} {p : RegIdx} (hp : p.toNat < s.gpr.length) :
    kindAt s.kinds p = some (s.reg p).kind := by
  rw [kindAt, State.kinds, List.getElem?_map, State.reg_eq, List.getElem?_eq_getElem hp]
  rfl

/-- A well-formed instruction of an accepted program has its operands and channels (W4, W6, W7). -/
theorem State.Inv.ready {s : State} (h : s.Inv) (hl : s.loadedOk = true) {i : Instr} (hi : i ≠ .endPass)
    (hwf : i.wf s.kinds = true) : s.Ready i.flags i.opnds := by
  simp only [Instr.wf, hi, decide_false, Bool.false_or, Bool.and_eq_true, decide_eq_true_eq] at hwf
  obtain ⟨⟨hrange, -⟩, hflags⟩ := hwf
  rw [Opnds.inRange_iff, State.kinds, List.length_map] at hrange
  obtain ⟨hr, ha, hx, hy⟩ := hrange
  constructor
  · simp only [State.operandsExist, Bool.and_eq_true, State.hasReg_iff]
    exact ⟨⟨⟨hr, ha⟩, hx⟩, hy⟩
  · simp only [State.channelsExist, h.inChannelExists hl ha, h.inChannelExists hl hx, h.inChannelExists hl hy,
      Bool.and_self, Bool.or_true, Bool.true_and, Bool.or_eq_true, Bool.not_eq_true', decide_eq_true_eq]
    refine or_iff_not_imp_left.mpr fun hho => ?_
    rw [Bool.not_eq_false, hflags, flagsOf, State.kindAt_kinds hr, beq_iff_eq, Option.some.injEq] at hho
    rw [h.outBuf]
    exact h.io_lt hl hr (.inr hho)

/-- A well-formed instruction of an accepted program completes. -/
theorem State.Inv.exec_completes {s : State} (h : s.Inv) (hl : s.loadedOk = true) {i : Instr}
    (hwf : i.wf s.kinds = true) : ∃ u, exec i s = .next u := by
  by_cases hi : i = .endPass
  · subst hi
    exact ⟨_, rfl⟩
  · exact ⟨_, (exec_executed i hi s).trans (executed_ready (h.ready hl hi hwf) _)⟩

/-! ### The end of a tick -/

theorem delayAccess_skipcnt (cap : Nat) {line : State → DelayLine} {put : State → DelayLine → State}
    (hput : ∀ s d, (put s d).skipcnt = s.skipcnt) (o : Opnds) (l : Sources) (s : State) :
    (delayAccess cap line put o l s).skipcnt = s.skipcnt := by
  rcases delayAccess_cases cap line put o l s with ⟨-, v, h⟩ | ⟨-, off, h⟩ | ⟨-, h⟩
  · rw [h, State.setAcc_skipcnt, State.setValue_skipcnt, hput]
  · rw [h, hput]
  · rw [h]

/-- SKIP alone writes the skip counter (R31, R220). -/
theorem operationOf_skipcnt {i : Instr} (hi : ∀ f o, i ≠ .skip f o) (l : Sources) (s : State) :
    (operationOf i l s).skipcnt = s.skipcnt := by
  cases operationShape l i with
  | saturating t hop _ _ _ =>
    rw [hop]
    rfl
  | storing v hop _ _ _ =>
    rw [hop]
    rfl
  | skip f o => exact absurd rfl (hi f o)
  | macmv f o | andxor f o | endPass => rfl
  | idelay f o => exact delayAccess_skipcnt _ (put := State.setItram) (fun _ _ => rfl) o l s
  | xdelay f o => exact delayAccess_skipcnt _ (put := State.setXtram) (fun _ _ => rfl) o l s

theorem exec_skipcnt {i : Instr} {s t : State} (h : exec i s = .next t) (hi : ∀ f o, i ≠ .skip f o) :
    t.skipcnt = s.skipcnt := by
  rw [exec_next h, State.publish_eq]
  exact (operationOf_skipcnt hi _ _).trans (by rw [State.inject_eq])

theorem ne_skip_of_decode {w : InstrWord} {i : Instr} (hd : decode w = .ok i) (hw : isSkip w = false) :
    ∀ f o, i ≠ .skip f o := by
  rintro f o rfl
  simp [isSkip, hd] at hw

/-- The last word of an accepted program is END (W8). -/
theorem State.Inv.fetch_last {s : State} (h : s.Inv) (hl : s.loadedOk = true) (hpc : s.pc + 1 = s.imem.length) :
    s.fetch = some endWord := by
  obtain ⟨-, -, -, -, hend, -⟩ := (ProgramImage.wf_iff _ _).mp (h.image hl)
  have hlast : s.imem.getLast? = some endWord := of_decide_eq_true hend
  rwa [List.getLast?_eq_getElem?, ← hpc, Nat.add_sub_cancel] at hlast

/-- A slot that holds no SKIP, with nothing being skipped: the tick ends there, or the next slot of the list follows, for the
last slot holds END (R142, R143). -/
theorem State.Inv.step_without_skip {s : State} (h : s.Inv) (ht : s.inTick = true) (hk : s.skipcnt = 0)
    (hw : ∀ w ∈ s.imem, isSkip w = false) :
    ∃ t, step s = .next t ∧ (t.inTick = false ∨
      (t.inTick = true ∧ t.skipcnt = 0 ∧ t.pc = s.pc + 1)) := by
  obtain ⟨hl, hpc, -⟩ := h.tick ht
  obtain ⟨w, i, hf, hmem, hd, hwf⟩ := h.fetch_wf ht
  obtain ⟨u, hx⟩ := h.exec_completes hl hwf
  have hframe := (exec_effect hx).frame
  refine ⟨u.afterExec, ?_, ?_⟩
  · rw [step_of_decode ht hk hf hd, hx]
    rfl
  · cases hended : u.ended with
    | true => exact .inl (by simp [State.afterExec, hended, State.finishTick])
    | false =>
      have hne : s.pc + 1 ≠ s.imem.length := by
        intro hlast
        obtain rfl := Option.some.inj (hf.symm.trans (h.fetch_last hl hlast))
        obtain rfl : i = .endPass := Except.ok.inj (hd.symm.trans (by decide))
        obtain rfl := Host.Outcome.next.inj hx
        cases hended
      have hadvance : u.afterExec = u.advance := if_neg (by simp [hended])
      have hupc : u.pc = s.pc := by rw [hframe]
      have huimem : u.imem = s.imem := by rw [hframe]
      have hutick : u.inTick = true := by rw [hframe, ← ht]
      rw [hadvance]
      refine .inr ⟨hutick, (exec_skipcnt hx (ne_skip_of_decode hd (hw w hmem))).trans hk, ?_⟩
      change nextPc u.imem.length u.pc = s.pc + 1
      rw [hupc, huimem, nextPc, if_neg hne]

theorem run_succ (M : Host.Core) {s t : M.State} (h : M.step s = .next t) (k : Nat) : M.run (k + 1) s = M.run k t := by
  rw [Host.Core.run, h]

/-- A tick with `n` slots from the pass position to the end of the list ends within them, by induction on `n`. -/
theorem State.Inv.tick_ends (n : Nat) {s : State} (h : s.Inv) (ht : s.inTick = true) (hk : s.skipcnt = 0)
    (hw : ∀ w ∈ s.imem, isSkip w = false) (hn : s.imem.length - s.pc = n) :
    ∃ (k : Nat) (t : State), 1 ≤ k ∧ k ≤ n ∧ Sys2Proof.core.run k s = .next t ∧ t.inTick = false ∧
      t.replies = s.replies ++ [.output t.outBuf] := by
  induction n generalizing s with
  | zero =>
    obtain ⟨-, hpc, -⟩ := h.tick ht
    omega
  | succ n ih =>
    obtain ⟨t, hstep, hcase⟩ := h.step_without_skip ht hk hw
    have hreplies := step_replies ht hstep
    rcases hcase with hend | ⟨htt, hkt, hpct⟩
    · rw [if_neg (by simp [hend])] at hreplies
      exact ⟨1, t, le_rfl, by omega, run_succ Sys2Proof.core hstep 0, hend, hreplies⟩
    · have himem := (step_sameProgram ht hstep).imem
      obtain ⟨k, v, -, hkn, hrun, hv, hvr⟩ :=
        ih (stepKeepsInvariant s t h hstep) htt hkt (himem ▸ hw) (by rw [himem, hpct]; omega)
      rw [if_pos htt] at hreplies
      exact ⟨k + 1, v, by omega, by omega, (run_succ Sys2Proof.core hstep k).trans hrun, hv, hreplies ▸ hvr⟩

/-- Settles O43: induction on the slots left in the list. -/
theorem tickWithoutSkipEnds : Obligations.TickWithoutSkipEnds := by
  unfold Obligations.TickWithoutSkipEnds
  exact fun s h ht hk hw => h.tick_ends _ ht hk hw rfl

end Sys2Proof.Machine
end

section
/-! The primitives of the saturating ALU (R152 to R154): `cc_of` of every pattern, where `wrap` folds to, and what a
saturating instruction leaves in R. -/

namespace Sys2Proof.Machine

/-! ### Patterns and their numbers -/

theorem value64_of_num64 {v : F64} {s : Bool} {m : Nat} {e : Int} {x : ℚ} (h : num64 v = .fin s m e)
    (hx : (Num.fin s m e).value = x) : finite64 v = true ∧ value64 v = x := by
  rcases num64_spec v with ⟨-, hv⟩ | ⟨-, hv⟩ | ⟨hf, m', e', hv, hval⟩
  · cases h.symm.trans hv
  · cases h.symm.trans hv
  · rw [h] at hv
    cases hv
    exact ⟨hf, hval.trans hx⟩

theorem value32_of_num32 {v : F32} {s : Bool} {m : Nat} {e : Int} {x : ℚ} (h : num32 v = .fin s m e)
    (hx : (Num.fin s m e).value = x) : finite32 v = true ∧ value32 v = x := by
  rcases num32_spec v with ⟨-, hv⟩ | ⟨-, hv⟩ | ⟨hf, m', e', hv, hval⟩
  · cases h.symm.trans hv
  · cases h.symm.trans hv
  · rw [h] at hv
    cases hv
    exact ⟨hf, hval.trans hx⟩

theorem value64_one64 : finite64 one64 = true ∧ value64 one64 = 1 :=
  value64_of_num64 (s := false) (m := 2 ^ 52) (e := -52) (by decide) (by norm_num [Num.value])

theorem value64_negOne64 : finite64 negOne64 = true ∧ value64 negOne64 = -1 :=
  value64_of_num64 (s := true) (m := 2 ^ 52) (e := -52) (by decide) (by norm_num [Num.value])

theorem value64_two64 : finite64 two64 = true ∧ value64 two64 = 2 :=
  value64_of_num64 (s := false) (m := 2 ^ 52) (e := -51) (by decide) (by norm_num [Num.value])

theorem value64_three : finite64 0x4008000000000000#64 = true ∧ value64 0x4008000000000000#64 = 3 :=
  value64_of_num64 (s := false) (m := 3 * 2 ^ 51) (e := -51) (by decide) (by norm_num [Num.value])

theorem value64_negThree : finite64 0xC008000000000000#64 = true ∧ value64 0xC008000000000000#64 = -3 :=
  value64_of_num64 (s := true) (m := 3 * 2 ^ 51) (e := -51) (by decide) (by norm_num [Num.value])

theorem value32_zero32 : finite32 zero32 = true ∧ value32 zero32 = 0 :=
  value32_of_num32 (s := false) (m := 0) (e := -149) (by decide) (by norm_num [Num.value])

theorem value32_one32 : finite32 one32 = true ∧ value32 one32 = 1 :=
  value32_of_num32 (s := false) (m := 2 ^ 23) (e := -23) (by decide) (by norm_num [Num.value])

theorem value32_negOne32 : finite32 negOne32 = true ∧ value32 negOne32 = -1 :=
  value32_of_num32 (s := true) (m := 2 ^ 23) (e := -23) (by decide) (by norm_num [Num.value])

/-- The absolute number of a pattern is the number of its magnitude's units. -/
theorem Format.abs_value (F : Format) (w : Nat) : |F.value w| = (F.units (F.magnitude w) : ℚ) / F.perOne := by
  have hsign : |if F.isNeg w then (-1 : ℚ) else 1| = 1 := by split <;> norm_num
  rw [Format.value, abs_mul, hsign, one_mul, abs_of_nonneg (div_nonneg (Nat.cast_nonneg _) F.perOne_pos.le)]

/-- Patterns are ordered by their magnitudes as their absolute numbers are. -/
theorem Format.abs_value_le_iff (F : Format) (w u : Nat) :
    |F.value w| ≤ |F.value u| ↔ F.magnitude w ≤ F.magnitude u := by
  rw [F.abs_value, F.abs_value, div_le_div_iff_of_pos_right F.perOne_pos, Nat.cast_le, F.units_strictMono.le_iff_le]

/-- Below the overflow bound a number rounds to a finite pattern, no farther from it than any other. -/
theorem Format.Rounded.nearest {F : Format} {x : ℚ} {w : Nat} (h : F.Rounded x w) (hx : |x| < F.overflow) :
    F.finite w = true ∧ ∀ u, F.finite u = true → |F.value w - x| ≤ |F.value u - x| := by
  obtain ⟨-, -, hfin, -⟩ := h
  obtain ⟨hw, hnear⟩ := hfin hx
  exact ⟨hw, fun u hu => (hnear u hu).1⟩

/-- Rounding keeps every number that has a pattern as a lower bound. -/
theorem Format.Rounded.le_value {F : Format} {x : ℚ} {w u : Nat} (h : F.Rounded x w) (hx : |x| < F.overflow)
    (hu : F.finite u = true) (hle : F.value u ≤ x) : F.value u ≤ F.value w := by
  have hnear := (h.nearest hx).2 u hu
  rw [abs_sub_comm (F.value u), abs_of_nonneg (sub_nonneg.mpr hle)] at hnear
  linarith [neg_le_abs (F.value w - x)]

/-- Rounding keeps every number that has a pattern as an upper bound. -/
theorem Format.Rounded.value_le {F : Format} {x : ℚ} {w u : Nat} (h : F.Rounded x w) (hx : |x| < F.overflow)
    (hu : F.finite u = true) (hle : x ≤ F.value u) : F.value w ≤ F.value u := by
  have hnear := (h.nearest hx).2 u hu
  rw [abs_of_nonneg (sub_nonneg.mpr hle)] at hnear
  linarith [le_abs_self (F.value w - x)]

/-! ### Comparisons with finite data -/

theorem compare32_finite {a b : F32} (ha : finite32 a = true) (hb : finite32 b = true) :
    lt32 a b = decide (value32 a < value32 b) ∧ le32 a b = decide (value32 a ≤ value32 b) ∧
    eq32 a b = decide (value32 a = value32 b) := by
  obtain ⟨m, e, hma, hva⟩ := num32_of_finite ha
  obtain ⟨n, k, hmb, hvb⟩ := num32_of_finite hb
  rw [lt32, le32, eq32, hma, hmb, hva, hvb]
  exact ⟨Num.lt_fin .., Num.le_fin .., Num.eqv_fin ..⟩

theorem isNan64_eq_false_of_finite {v : F64} (h : finite64 v = true) : isNan64 v = false := by
  obtain ⟨m, e, hv, -⟩ := num64_of_finite h
  simp [isNan64, hv]

theorem compare64_of_isNan64 {a b : F64} (h : isNan64 a = true ∨ isNan64 b = true) :
    lt64 a b = false ∧ le64 a b = false := by
  obtain ⟨-, -, -, hlt, hle⟩ := arithmetic_nan h
  exact ⟨hlt, hle⟩

theorem infinite64_inf64 (s : Bool) : infinite64 (inf64 s) = true := by cases s <;> decide
theorem msb_inf64 (s : Bool) : (inf64 s).msb = s := by cases s <;> decide
@[simp] theorem finite64_inf64 (s : Bool) : finite64 (inf64 s) = false := by cases s <;> decide
@[simp] theorem inf64_inj (s t : Bool) : inf64 s = inf64 t ↔ s = t := by cases s <;> cases t <;> decide

/-- A binary64 datum is a NaN, one of the two infinities, or finite. -/
theorem class64 (v : F64) : isNan64 v = true ∨ (∃ s, v = inf64 s) ∨ finite64 v = true := by
  cases hn : isNan64 v with
  | true => exact .inl rfl
  | false =>
    rcases finite64_or_infinite64 hn with hf | hi
    · exact .inr (.inr hf)
    · exact .inr (.inl ⟨v.msb, eq_inf64 hi⟩)

/-- Above a finite datum lie greater numbers and +infinity, below it smaller ones and -infinity. -/
theorem compare64_of_finite {a : F64} (ha : finite64 a = true) (v : F64) :
    (le64 a v = true ↔ v = inf64 false ∨ finite64 v = true ∧ value64 a ≤ value64 v) ∧
    (lt64 v a = true ↔ v = inf64 true ∨ finite64 v = true ∧ value64 v < value64 a) := by
  rcases class64 v with hn | ⟨s, rfl⟩ | hf
  · have hf : finite64 v = false :=
      Bool.eq_false_iff.mpr fun hf => absurd (hn.symm.trans (isNan64_eq_false_of_finite hf)) (by decide)
    have hne : ∀ s, v ≠ inf64 s := by
      rintro s rfl
      simp [isNan64] at hn
    simp [(compare64_of_isNan64 (a := a) (.inr hn)).2, (compare64_of_isNan64 (b := a) (.inl hn)).1, hf, hne]
  · obtain ⟨hlt, -, -, hle⟩ := compare64_infinite_finite (infinite64_inf64 s) ha
    rw [hlt, hle, msb_inf64]
    simp
  · have hne : ∀ s, v ≠ inf64 s := by
      rintro s rfl
      simp at hf
    simp [(compare64_finite ha hf).2, (compare64_finite hf ha).1, hf, hne]

/-- What lies between two finite data is finite. -/
theorem between64_iff {a b : F64} (ha : finite64 a = true) (hb : finite64 b = true) (v : F64) :
    (le64 a v = true ∧ lt64 v b = true) ↔ finite64 v = true ∧ value64 a ≤ value64 v ∧ value64 v < value64 b := by
  rw [(compare64_of_finite ha v).1, (compare64_of_finite hb v).2]
  constructor
  · rintro ⟨rfl | ⟨hf, hle⟩, hlt⟩
    · simp at hlt
    · rcases hlt with rfl | ⟨-, hlt⟩
      · simp at hf
      · exact ⟨hf, hle, hlt⟩
  · exact fun ⟨hf, hle, hlt⟩ => ⟨.inr ⟨hf, hle⟩, .inr ⟨hf, hlt⟩⟩

/-- What is below -1.0 is not at or above 1.0. -/
theorem le64_one64_of_lt64_negOne64 {v : F64} (h : lt64 v negOne64 = true) : le64 one64 v = false := by
  refine Bool.eq_false_iff.mpr fun hle => ?_
  obtain ⟨-, hge, hlt⟩ := (between64_iff value64_one64.1 value64_negOne64.1 v).mp ⟨hle, h⟩
  rw [value64_one64.2] at hge
  rw [value64_negOne64.2] at hlt
  linarith

/-- What is at most another reading is not above it. -/
theorem Num.lt_eq_false_of_le {x y : Num} (h : x.le y = true) : y.lt x = false := by
  cases x with
  | nan => exact y.lt_nan
  | inf s => cases y with
    | nan => rfl
    | inf t =>
      revert h
      cases s <;> cases t <;> decide
    | fin t n k => cases s with
      | false => cases h
      | true => rfl
  | fin s m e => cases y with
    | nan => rfl
    | inf t => cases t with
      | false => rfl
      | true => cases h
    | fin t n k =>
      rw [Num.le_fin, decide_eq_true_iff] at h
      rw [Num.lt_fin]
      exact decide_eq_false h.not_gt

theorem lt64_eq_false_of_le64 {a b : F64} (h : le64 a b = true) : lt64 b a = false := Num.lt_eq_false_of_le h

/-! ### `cc_of` (R153) -/

theorem ccOf_of_isNan32 {r : F32} (h : isNan32 r = true) : ccOf r = .nonzero := by
  have hr := (isNan32_iff r).mp h
  simp [ccOf, eq32, lt32, le32, hr, Num.eqv, Num.nan_lt, Num.lt_nan, Num.nan_le, Num.le_nan]

theorem ccOf_inf32 (s : Bool) : ccOf (inf32 s) = .sat := by
  cases s <;> decide

/-- `cc_of` of a finite datum, by its number. -/
theorem ccOf_of_finite32 {r : F32} (h : finite32 r = true) :
    ccOf r = if value32 r = 0 then .zero else if 1 ≤ |value32 r| then .sat
      else if value32 r < 0 then .neg else .pos := by
  obtain ⟨h0, v0⟩ := value32_zero32
  obtain ⟨h1, v1⟩ := value32_one32
  obtain ⟨hn, vn⟩ := value32_negOne32
  rw [ccOf, satThreshold_eq, neg32_one32, (compare32_finite h h0).2.2, (compare32_finite h h0).1,
    (compare32_finite h0 h).1, (compare32_finite hn h).1, (compare32_finite h h1).1, (compare32_finite h hn).2.1,
    (compare32_finite h1 h).2.1, v0, v1, vn]
  simp only [decide_eq_true_eq, ← Bool.decide_and, ← Bool.decide_or]
  generalize value32 r = x
  by_cases hzero : x = 0
  · rw [if_pos hzero, if_pos hzero]
  rw [if_neg hzero, if_neg hzero]
  by_cases hsat : 1 ≤ |x|
  · have hin : ¬ (-1 < x ∧ x < 1) := fun hc => (abs_lt.mpr hc).not_ge hsat
    rw [if_pos hsat, if_neg fun hc => hin ⟨hc.1, hc.2.trans one_pos⟩,
      if_neg fun hc => hin ⟨neg_one_lt_zero.trans hc.1, hc.2⟩, if_pos (le_abs'.mp hsat)]
  · obtain ⟨hlo, hhi⟩ := abs_lt.mp (not_le.mp hsat)
    rw [if_neg hsat]
    by_cases hneg : x < 0
    · rw [if_pos hneg, if_pos ⟨hlo, hneg⟩]
    · have hpos : 0 < x := lt_of_le_of_ne (not_lt.mp hneg) (Ne.symm hzero)
      rw [if_neg hneg, if_neg fun hc => hneg hc.2, if_pos ⟨hpos, hhi⟩]

/-- A finite pattern that is no zero has the sign of its number. -/
theorem Format.value_neg_iff (F : Format) {w : Nat} (h0 : F.value w ≠ 0) : F.value w < 0 ↔ F.isNeg w = true := by
  have habs : F.value w = (if F.isNeg w then -1 else 1) * |F.value w| := by rw [F.abs_value, Format.value]
  have hpos := abs_pos.mpr h0
  rw [habs]
  cases F.isNeg w <;> simp [h0]

/-- Settles O31: the NaNs, the infinities, and the finite data by their numbers, which are ordered as the magnitudes are. -/
theorem conditionCodeOfPattern : Obligations.ConditionCodeOfPattern := by
  unfold Obligations.ConditionCodeOfPattern
  intro r m
  rcases num32_spec r with ⟨hmag, hv⟩ | ⟨hmag, hv⟩ | ⟨hf, -⟩
  · have hmag' : 0x7F800000 < m := hmag
    rw [ccOf_of_isNan32 ((isNan32_iff r).mpr hv), if_neg (by omega), if_pos hmag']
  · have hmag' : m = 0x7F800000 := hmag
    rw [if_neg (by omega), if_neg (by omega), if_pos (by omega)]
    exact (congrArg ccOf (eq_inf32 hmag)).trans (ccOf_inf32 _)
  · have hmag : m < 0x7F800000 := of_decide_eq_true hf
    have hzero : value32 r = 0 ↔ m = 0 := b32.value_eq_zero_iff r.toNat
    have hsat : 1 ≤ |value32 r| ↔ 0x3F800000 ≤ m := by
      have hle := b32.abs_value_le_iff one32.toNat r.toNat
      rwa [show b32.value one32.toNat = 1 from value32_one32.2, abs_one] at hle
    rw [ccOf_of_finite32 hf, if_neg (show ¬ 0x7F800000 < m by omega)]
    simp only [hzero, hsat]
    by_cases h0 : m = 0
    · rw [if_pos h0, if_pos h0]
    · have hneg : value32 r < 0 ↔ 2 ^ 31 ≤ r.toNat :=
        (b32.value_neg_iff (mt hzero.mp h0)).trans decide_eq_true_iff
      simp only [hneg]

/-! ### `wrap` (R154) -/

theorem wrap_of_le {v : F64} (h : le64 one64 v = true) : wrap v = sub64 v two64 := if_pos h

theorem wrap_of_lt {v : F64} (h : lt64 v negOne64 = true) : wrap v = add64 v two64 := by
  simp [wrap, le64_one64_of_lt64_negOne64 h, h]

theorem wrap_of_inside {v : F64} (hle : le64 one64 v = false) (hlt : lt64 v negOne64 = false) : wrap v = v := by
  simp [wrap, hle, hlt]

theorem add64_exact {a b u : F64} (ha : finite64 a = true) (hb : finite64 b = true) (hu : finite64 u = true)
    (h : value64 u = value64 a + value64 b) :
    finite64 (add64 a b) = true ∧ value64 (add64 a b) = value64 a + value64 b :=
  (add64_finite ha hb).1.exact (h ▸ b64.abs_value_lt_overflow b64_sane hu) hu h

theorem sub64_exact {a b u : F64} (ha : finite64 a = true) (hb : finite64 b = true) (hu : finite64 u = true)
    (h : value64 u = value64 a - value64 b) :
    finite64 (sub64 a b) = true ∧ value64 (sub64 a b) = value64 a - value64 b :=
  (sub64_finite ha hb).1.exact (h ▸ b64.abs_value_lt_overflow b64_sane hu) hu h

/-- A multiple of 2^-52 of magnitude at most 1 is a binary64 number. -/
theorem exists_value64_of_grid {y : Int} (hy : |(y : ℚ) * 2 ^ (-52 : Int)| ≤ 1) :
    ∃ u : F64, finite64 u = true ∧ value64 u = (y : ℚ) * 2 ^ (-52 : Int) := by
  have hlt : y.natAbs < 2 ^ 53 := by
    rw [abs_mul, abs_of_pos (show (0 : ℚ) < 2 ^ (-52 : Int) by positivity), zpow_neg, ← div_eq_mul_inv,
      div_le_one (by positivity)] at hy
    have hy' : ((y.natAbs : Nat) : ℚ) ≤ 2 ^ 52 := by rwa [Nat.cast_natAbs, Int.cast_abs]
    have hy'' : y.natAbs ≤ 2 ^ 52 := by exact_mod_cast hy'
    omega
  obtain ⟨hf, hval⟩ := round64_exact (decide (y < 0)) (m := y.natAbs) (e := -52) (hlt.trans_eq (by decide)) (by decide)
    (lt_overflow64 hlt (by decide))
  exact ⟨_, hf, by rw [hval, ← mul_assoc, sign_mul_natAbs]⟩

/-- A finite number of magnitude 1 or more is a multiple of 2^-52: its fraction has 52 bits. -/
theorem exists_grid_of_one_le {v : F64} (hf : finite64 v = true) (h : 1 ≤ |value64 v|) :
    ∃ z : Int, value64 v = (z : ℚ) * 2 ^ (-52 : Int) := by
  obtain ⟨m, e, hv, hval⟩ := num64_of_finite hf
  have hm : m < 2 ^ 53 := (unpack_bounds b64 hv).1
  have he : -52 ≤ e := by
    by_contra hlt
    have habs : |value64 v| = (m : ℚ) * 2 ^ e := by
      rw [hval, Num.value_fin, abs_mul, abs_of_nonneg (show (0 : ℚ) ≤ m * 2 ^ e by positivity)]
      cases v.msb <;> simp
    have hm' : (m : ℚ) < 2 ^ 53 := by exact_mod_cast hm
    have hsmall : (m : ℚ) * 2 ^ e < 1 := by
      calc (m : ℚ) * 2 ^ e ≤ m * 2 ^ (-53 : Int) :=
            mul_le_mul_of_nonneg_left (zpow_le_zpow_right₀ (by norm_num) (by omega)) (Nat.cast_nonneg m)
        _ < 2 ^ 53 * 2 ^ (-53 : Int) := mul_lt_mul_of_pos_right hm' (by positivity)
        _ = 1 := by norm_num
    linarith
  exact ⟨scaled v.msb m e (-52), by rw [hval, scaled_mul _ _ he, Num.value_fin]⟩

/-- An integer added to a number of magnitude 1 or more, with a result in [-1, 1], needs no rounding. -/
theorem exists_value64_add_int {v : F64} (hf : finite64 v = true) (h : 1 ≤ |value64 v|) {c : Int}
    (hc : |value64 v + c| ≤ 1) : ∃ u : F64, finite64 u = true ∧ value64 u = value64 v + c := by
  obtain ⟨z, hz⟩ := exists_grid_of_one_le hf h
  have hsum : value64 v + c = ((z + c * 2 ^ 52 : Int) : ℚ) * 2 ^ (-52 : Int) := by
    rw [hz]
    push_cast
    norm_num
    ring
  rw [hsum] at hc ⊢
  exact exists_value64_of_grid hc

/-- The fold from above is exact, and lands in [-1, 1) (R154). -/
theorem wrap_from_above {v : F64} (hle : le64 one64 v = true) (hlt : lt64 v 0x4008000000000000#64 = true) :
    le64 negOne64 (wrap v) = true ∧ lt64 (wrap v) one64 = true := by
  obtain ⟨hf, h1, h3⟩ := (between64_iff value64_one64.1 value64_three.1 v).mp ⟨hle, hlt⟩
  rw [value64_one64.2] at h1
  rw [value64_three.2] at h3
  obtain ⟨u, hu, huv⟩ := exists_value64_add_int hf (h1.trans (le_abs_self _)) (c := -2)
    (abs_le.mpr ⟨by push_cast; linarith, by push_cast; linarith⟩)
  obtain ⟨hfin, hval⟩ := sub64_exact hf value64_two64.1 hu (by rw [huv, value64_two64.2]; push_cast; ring)
  rw [wrap_of_le hle, between64_iff value64_negOne64.1 value64_one64.1, hval, value64_two64.2, value64_one64.2,
    value64_negOne64.2]
  exact ⟨hfin, by linarith, by linarith⟩

/-- The fold from below is exact, and lands in [-1, 1) (R154). -/
theorem wrap_from_below {v : F64} (hle : le64 0xC008000000000000#64 v = true) (hlt : lt64 v negOne64 = true) :
    le64 negOne64 (wrap v) = true ∧ lt64 (wrap v) one64 = true := by
  obtain ⟨hf, h3, h1⟩ := (between64_iff value64_negThree.1 value64_negOne64.1 v).mp ⟨hle, hlt⟩
  rw [value64_negThree.2] at h3
  rw [value64_negOne64.2] at h1
  obtain ⟨u, hu, huv⟩ := exists_value64_add_int hf (le_abs'.mpr (.inl h1.le)) (c := 2)
    (abs_le.mpr ⟨by push_cast; linarith, by push_cast; linarith⟩)
  obtain ⟨hfin, hval⟩ := add64_exact hf value64_two64.1 hu (by rw [huv, value64_two64.2]; push_cast; ring)
  rw [wrap_of_lt hlt, between64_iff value64_negOne64.1 value64_one64.1, hval, value64_two64.2, value64_one64.2,
    value64_negOne64.2]
  exact ⟨hfin, by linarith, by linarith⟩

/-- A number no greater in magnitude than a finite datum is below the overflow bound. -/
theorem lt_overflow64_of_abs_le {v : F64} (hf : finite64 v = true) {x : ℚ} (h : |x| ≤ |value64 v|) :
    |x| < b64.overflow :=
  h.trans_lt (b64.abs_value_lt_overflow b64_sane hf)

/-- From 3 on, the folded value stays at 1 or more: rounding keeps the bound 1 (R154). -/
theorem le64_one_wrap {v : F64} (h : le64 0x4008000000000000#64 v = true) : le64 one64 (wrap v) = true := by
  rw [(compare64_of_finite value64_three.1 v).1, value64_three.2] at h
  have hle : le64 one64 v = true := by
    rw [(compare64_of_finite value64_one64.1 v).1, value64_one64.2]
    exact h.imp_right fun ⟨hf, h3⟩ => ⟨hf, by linarith⟩
  rw [wrap_of_le hle, (compare64_of_finite value64_one64.1 _).1, value64_one64.2]
  rcases h with rfl | ⟨hf, h3⟩
  · exact .inl (arithmetic_infinite_finite (infinite64_inf64 false) value64_two64.1).2.2.1
  · have hround := (sub64_finite hf value64_two64.1).1
    rw [value64_two64.2] at hround
    have hx : |value64 v - 2| < b64.overflow := by
      apply lt_overflow64_of_abs_le hf
      rw [abs_of_nonneg (by linarith), abs_of_nonneg (by linarith)]
      linarith
    have hone := hround.le_value hx value64_one64.1 (value64_one64.2.trans_le (by linarith))
    exact .inr ⟨(hround.nearest hx).1, value64_one64.2.symm.trans_le hone⟩

/-- The datum below -3.0 nearest to it is -(3 + 2^-51), so that the folded value stays below -1 after rounding. -/
theorem value64_le_of_lt_negThree {v : F64} (h : value64 v < -3) : value64 v ≤ -(3 + 2 ^ (-51 : Int)) := by
  have hnext : value64 0xC008000000000001#64 = -(3 + 2 ^ (-51 : Int)) :=
    (value64_of_num64 (s := true) (m := 3 * 2 ^ 51 + 1) (e := -51) (by decide) (by norm_num [Num.value])).2
  have hv : |value64 v| = -value64 v := abs_of_neg (show value64 v < 0 by linarith)
  have hmag : ¬ b64.magnitude v.toNat ≤ b64.magnitude (0xC008000000000000#64 : F64).toNat := by
    rw [← b64.abs_value_le_iff]
    change ¬ |value64 v| ≤ |value64 0xC008000000000000#64|
    rw [hv, value64_negThree.2, abs_neg, abs_of_pos three_pos]
    linarith
  have hle : |value64 0xC008000000000001#64| ≤ |value64 v| :=
    (b64.abs_value_le_iff _ _).mpr (Nat.lt_of_not_le hmag)
  rw [hv, hnext, abs_neg, abs_of_pos (by positivity)] at hle
  linarith

/-- Below -3, the folded value stays below -1 (R154). -/
theorem lt64_wrap_negOne {v : F64} (h : lt64 v 0xC008000000000000#64 = true) : lt64 (wrap v) negOne64 = true := by
  rw [(compare64_of_finite value64_negThree.1 v).2, value64_negThree.2] at h
  have hlt : lt64 v negOne64 = true := by
    rw [(compare64_of_finite value64_negOne64.1 v).2, value64_negOne64.2]
    exact h.imp_right fun ⟨hf, h3⟩ => ⟨hf, by linarith⟩
  rw [wrap_of_lt hlt, (compare64_of_finite value64_negOne64.1 _).2, value64_negOne64.2]
  rcases h with rfl | ⟨hf, h3⟩
  · exact .inl (arithmetic_infinite_finite (infinite64_inf64 true) value64_two64.1).1
  · have hround := (add64_finite hf value64_two64.1).1
    rw [value64_two64.2] at hround
    have hx : |value64 v + 2| < b64.overflow := by
      apply lt_overflow64_of_abs_le hf
      rw [abs_of_neg (by linarith), abs_of_neg (by linarith)]
      linarith
    obtain ⟨hbound, hboundVal⟩ := value64_of_num64 (v := 0xBFF0000000000002#64) (x := -(1 + 2 ^ (-51 : Int)))
      (s := true) (m := 2 ^ 52 + 2) (e := -52) (by decide) (by norm_num [Num.value])
    have hnext := value64_le_of_lt_negThree h3
    have hle := hround.value_le hx hbound
      ((show value64 v + 2 ≤ -(1 + 2 ^ (-51 : Int)) by linarith).trans_eq hboundVal.symm)
    refine .inr ⟨(hround.nearest hx).1, (hle.trans_eq hboundVal).trans_lt ?_⟩
    norm_num

theorem wrap_of_isNan64 {v : F64} (h : isNan64 v = true) : wrap v = v :=
  wrap_of_inside (compare64_of_isNan64 (.inr h)).2 (compare64_of_isNan64 (.inl h)).1

/-- Settles O32: the three branches of `wrap`, and where each interval's fold lands. -/
theorem wrapFolds : Obligations.WrapFolds := by
  unfold Obligations.WrapFolds
  refine ⟨fun v => ⟨wrap_of_le, wrap_of_lt, wrap_of_inside, ?_, le64_one_wrap, lt64_wrap_negOne, wrap_of_isNan64⟩,
    by decide, by decide⟩
  rintro (⟨hle, hlt⟩ | ⟨hle, hlt⟩)
  · exact wrap_from_above hle hlt
  · exact wrap_from_below hle hlt

/-! ### The result of a saturating instruction (R152, R155) -/

/-- `sat` clips at 1.0 and -1.0 (R152). -/
theorem sat_eq (v : F64) : sat v = if lt64 one64 v then one64 else if lt64 v negOne64 then negOne64 else v := by
  rw [sat, satThreshold64_eq, neg64_one64]

/-- The operation of a saturating instruction. -/
theorem operationOf_saturates {i : Instr} (hi : saturates i = true) (l : Sources) :
    ∃ v, operationOf i l = saturating i.opnds.r v := by
  cases operationShape l i with
  | saturating v hop _ _ _ => exact ⟨v, hop⟩
  | storing v _ hcc _ _ => exact absurd (hcc.symm.trans hi) (by decide)
  | macmv f o | andxor f o | skip f o | endPass | idelay f o | xdelay f o => cases hi

/-- R holds the accumulator, clipped and narrowed (R170 to R173). -/
theorem exec_saturates {i : Instr} {s t : State} (hi : saturates i = true) (h : exec i s = .next t) :
    t.value i.opnds.r = narrow (sat t.acc) := by
  have hend : i ≠ .endPass := by
    rintro rfl
    cases hi
  rw [exec_executed i hend] at h
  obtain ⟨⟨hoperands, -⟩, rfl⟩ := executed_next h
  obtain ⟨v, hop⟩ := operationOf_saturates hi (sourcesOf s i.flags i.opnds)
  rw [hop, State.publish_eq, State.value, State.reg_eq]
  exact congrArg (fun r => (Option.getD r absentRecord).value) (getElem?_dest hoperands (narrow (sat v)))

theorem isNan32_eq_false_of_finite {v : F32} (h : finite32 v = true) : isNan32 v = false := by
  obtain ⟨m, e, hv, -⟩ := num32_of_finite h
  simp [isNan32, hv]

/-- Narrowing keeps the bounds -1.0 and 1.0, which both formats have. -/
theorem narrow_range {v : F64} (hf : finite64 v = true) (hlo : -1 ≤ value64 v) (hhi : value64 v ≤ 1) :
    isNan32 (narrow v) = false ∧ le32 negOne32 (narrow v) = true ∧ le32 (narrow v) one32 = true := by
  obtain ⟨h1, v1⟩ := value32_one32
  obtain ⟨hn, vn⟩ := value32_negOne32
  have hround := (narrow_finite hf).1
  have hone : |value32 one32| < b32.overflow := b32.abs_value_lt_overflow b32_sane h1
  rw [v1, abs_one] at hone
  have hx : |value64 v| < b32.overflow := (abs_le.mpr ⟨hlo, hhi⟩).trans_lt hone
  have hfin : finite32 (narrow v) = true := (hround.nearest hx).1
  have hle := hround.value_le hx h1 (hhi.trans_eq v1.symm)
  have hge := hround.le_value hx hn (vn.trans_le hlo)
  rw [(compare32_finite hn hfin).2.1, (compare32_finite hfin h1).2.1]
  exact ⟨isNan32_eq_false_of_finite hfin, decide_eq_true hge, decide_eq_true hle⟩

theorem sat_of_above {v : F64} (h : lt64 one64 v = true) : sat v = one64 := by
  rw [sat_eq, if_pos h]

theorem sat_of_below {v : F64} (h : lt64 v negOne64 = true) : sat v = negOne64 := by
  have hle := le64_one64_of_lt64_negOne64 h
  have hlt : lt64 one64 v = false := (Bool.or_eq_false_iff.mp hle).1
  simp [sat_eq, hlt, h]

theorem sat_of_inside {v : F64} (hlo : lt64 v negOne64 = false) (hhi : lt64 one64 v = false) : sat v = v := by
  simp [sat_eq, hlo, hhi]

theorem sat_of_isNan64 {v : F64} (h : isNan64 v = true) : sat v = v :=
  sat_of_inside (compare64_of_isNan64 (.inl h)).1 (compare64_of_isNan64 (.inr h)).1

/-- A clipped datum is a number from -1 to 1. -/
theorem sat_range {v : F64} (hn : isNan64 v = false) :
    finite64 (sat v) = true ∧ -1 ≤ value64 (sat v) ∧ value64 (sat v) ≤ 1 := by
  obtain ⟨h1, v1⟩ := value64_one64
  obtain ⟨hm, vm⟩ := value64_negOne64
  cases hhi : lt64 one64 v with
  | true =>
    rw [sat_of_above hhi, v1]
    exact ⟨h1, by norm_num⟩
  | false =>
    cases hlo : lt64 v negOne64 with
    | true =>
      rw [sat_of_below hlo, vm]
      exact ⟨hm, by norm_num⟩
    | false =>
      rw [sat_of_inside hlo hhi]
      rcases class64 v with hnan | ⟨s, rfl⟩ | hf
      · exact absurd (hn.symm.trans hnan) (by decide)
      · revert hlo hhi
        cases s <;> decide
      · have hlo' := mt (compare64_finite hf hm).1.mpr (by simp [hlo])
        have hhi' := mt (compare64_finite h1 hf).1.mpr (by simp [hhi])
        rw [vm] at hlo'
        rw [v1] at hhi'
        exact ⟨hf, not_lt.mp hlo', not_lt.mp hhi'⟩

/-- What R receives is a NaN exactly when the sum is one. -/
theorem isNan32_narrow_sat (v : F64) : isNan32 (narrow (sat v)) = isNan64 v := by
  cases hn : isNan64 v with
  | true =>
    rw [sat_of_isNan64 hn]
    exact isNan32_narrow_of_nan hn
  | false =>
    obtain ⟨hf, hlo, hhi⟩ := sat_range hn
    exact (narrow_range hf hlo hhi).1

/-- Settles O34: R is the clipped accumulator narrowed, and narrowing keeps the range. -/
theorem saturatedResultInRange : Obligations.SaturatedResultInRange := by
  unfold Obligations.SaturatedResultInRange
  intro i s t hi h v
  have hv : v = narrow (sat t.acc) := exec_saturates hi h
  clear_value v
  subst hv
  rw [isNan32_narrow_sat]
  refine ⟨fun hlo hhi => ?_, fun hhi => ?_, fun hlo => ?_, fun hn => ?_, Iff.rfl, fun hn => ?_⟩
  · rw [sat_of_inside (lt64_eq_false_of_le64 hlo) (lt64_eq_false_of_le64 hhi)]
  · rw [sat_of_above hhi]
    decide
  · rw [sat_of_below hlo]
    decide
  · rw [sat_of_isNan64 hn]
  · obtain ⟨hf, hlo, hhi⟩ := sat_range hn
    exact (narrow_range hf hlo hhi).2

end Sys2Proof.Machine
end

section
/-! The saturating family (`41_saturating_mac.md`): MAC, MACN, MACINT and ACC3, each as its word and one whole next state. -/

namespace Sys2Proof.Machine

/-- The word of an opcode number `op`, placed in its field, and of given fields decodes to their instruction (R98). -/
theorem decode_or_fieldBits {i : Instr} {op : InstrWord} (h : i.opcode.setWidth 64 <<< 59 = op) :
    decode (op ||| fieldBits i.flags i.opnds) = .ok i := by
  rw [← h, ← packWord_eq_or]
  exact decodeOfEncode i

/-- A state whose register file differs from the injected one by a write of `v` to R publishes `v` on R's channel (R150). -/
theorem State.publish_of_wroteDest {s u : State} {f : IoFlags} {o : Opnds} {v : F32} (h : s.operandsExist o = true)
    (hgpr : u.gpr = writeValue (injectedRegs s f o) o.r.toNat v) (hout : u.outBuf = s.outBuf) :
    u.publish f o = { u with outBuf := publishedOut s f o v } := by
  have hreg : u.reg o.r = { s.reg o.r with value := v } := by
    rw [State.reg_eq, hgpr, getElem?_dest h, Option.getD_some]
  rw [State.publish_eq, State.value, hreg, hout, publishedOut]

/-- The next state of an instruction whose operation is the saturating write of the sum `t` (R170 to R173). -/
theorem exec_of_saturating {i : Instr} {s : State} {t : F64} (hi : i ≠ .endPass)
    (hop : operationOf i (sourcesOf s i.flags i.opnds) = saturating i.opnds.r t) (hr : s.Ready i.flags i.opnds) :
    exec i s = .next { wroteDest s i.flags i.opnds (narrow (sat t)) with acc := t, cc := ccOf (narrow (sat t)) } := by
  rw [exec_executed i hi, executed_ready hr, hop]
  exact congrArg Host.Outcome.next (State.publish_of_wroteDest (v := narrow (sat t)) hr.1 rfl rfl)

/-- Settles O5: the operation of MAC is the saturating write of a + x*y. -/
theorem macResult : Obligations.MacResult := by
  unfold Obligations.MacResult
  refine fun f o => ⟨decode_or_fieldBits (i := .mac f o) (by simp [Instr.opcode]), fun s hr => ?_⟩
  exact exec_of_saturating (i := .mac f o) nofun rfl hr

/-- Settles O6: the operation of MACN is the saturating write of a - x*y. -/
theorem macnResult : Obligations.MacnResult := by
  unfold Obligations.MacnResult
  refine fun f o => ⟨decode_or_fieldBits (i := .macn f o) (by simp [Instr.opcode]), fun s hr => ?_⟩
  exact exec_of_saturating (i := .macn f o) nofun rfl hr

/-- Settles O7: the operation of MACINT is that of MAC. -/
theorem macintResult : Obligations.MacintResult := by
  unfold Obligations.MacintResult
  refine fun f o => ⟨decode_or_fieldBits (i := .macint f o) (by simp [Instr.opcode]), fun s hr => ?_⟩
  exact exec_of_saturating (i := .macint f o) nofun rfl hr

/-- Settles O8: the operation of ACC3 is the saturating write of (a + x) + y. -/
theorem acc3Result : Obligations.Acc3Result := by
  unfold Obligations.Acc3Result
  refine fun f o => ⟨decode_or_fieldBits (i := .acc3 f o) (by simp [Instr.opcode]), fun s hr => ?_⟩
  exact exec_of_saturating (i := .acc3 f o) nofun rfl hr

end Sys2Proof.Machine
end

section
/-! LOG and EXP (`42_log_exp.md`): each as its word and one whole next state, the interpolation written out (R186). -/

namespace Sys2Proof.Machine

/-- The next state of an instruction whose operation stores `v` in R and in the accumulator (R155). -/
theorem exec_of_storing {i : Instr} {s : State} {v : F32} (hi : i ≠ .endPass)
    (hop : operationOf i (sourcesOf s i.flags i.opnds) = storing i.opnds.r v) (hr : s.Ready i.flags i.opnds) :
    exec i s = .next { wroteDest s i.flags i.opnds v with acc := widen v } := by
  rw [exec_executed i hi, executed_ready hr, hop]
  exact congrArg Host.Outcome.next (State.publish_of_wroteDest (v := v) hr.1 rfl rfl)

/-- The operand of an interpolation is clipped as a saturating instruction's sum is (R186, R152). -/
theorem interpOperand_eq_sat (a : F32) : interpOperand a = sat (widen a) := by
  rw [interpOperand, sat_eq]
  by_cases h : lt64 one64 (widen a) = true
  · rw [if_pos h, if_pos h]
    exact if_neg (by decide)
  · rw [if_neg h, if_neg h]

/-- R186 written out: the clipped operand `u`, its position `p` on the table, and the left neighbour `i`. -/
theorem interpolate_eq (T : Nat → F64) (a : F32) :
    interpolate T a =
      let u := if lt64 one64 (widen a) then one64 else if lt64 (widen a) negOne64 then negOne64 else widen a
      let p := mul64 (add64 u one64) 0x403F800000000000#64
      let i := (clamp (int64 p) 0 62).toNat
      add64 (T i) (mul64 (sub64 p (float64Of i)) (sub64 (T (i + 1)) (T i))) := by
  have hp : interpPosition a = mul64 (add64 (sat (widen a)) one64) 0x403F800000000000#64 := by
    rw [interpPosition, interpOperand_eq_sat, halfSpan64_eq]
  have hi : interpIndex a = (clamp (int64 (interpPosition a)) 0 62).toNat := rfl
  rw [interpolate, hi, hp, sat_eq]

/-- Settles O18: the operation of LOG stores the interpolated entry of the root's table. -/
theorem logResult : Obligations.LogResult := by
  unfold Obligations.LogResult
  refine fun f o => ⟨decode_or_fieldBits (i := .log f o) (by simp [Instr.opcode]), fun s hr => ?_⟩
  exact exec_of_storing (i := .log f o) nofun (congrArg (fun t => storing o.r (narrow t)) (interpolate_eq _ _)) hr

/-- Settles O19: the operation of EXP stores the interpolated entry of the power's table. -/
theorem expResult : Obligations.ExpResult := by
  unfold Obligations.ExpResult
  refine fun f o => ⟨decode_or_fieldBits (i := .exp f o) (by simp [Instr.opcode]), fun s hr => ?_⟩
  exact exec_of_storing (i := .exp f o) nofun (congrArg (fun t => storing o.r (narrow t)) (interpolate_eq _ _)) hr

end Sys2Proof.Machine
end

section
/-! The nominal tables (`42_log_exp.md` R180 to R183): every raw sample is the binary64 nearest to a root or a power, and what
a table has from that. -/

namespace Sys2Proof.Machine

/-! ### Normal numbers -/

/-- The reading of a normal pattern. -/
theorem unpack_normal (F : Format) {k sig : Nat} (hlo : 2 ^ F.fracBits ≤ sig) (hhi : sig < 2 * 2 ^ F.fracBits)
    (hk : k + 2 < 2 ^ F.expBits) : unpack F (k * 2 ^ F.fracBits + sig) = .fin false sig (F.minExp + k) := by
  have hP : 0 < 2 ^ F.fracBits := by positivity
  obtain ⟨frac, rfl⟩ := Nat.exists_eq_add_of_le hlo
  have hw : k * 2 ^ F.fracBits + (2 ^ F.fracBits + frac) = frac + 2 ^ F.fracBits * (k + 1) := by ring
  have hfrac : (frac + 2 ^ F.fracBits * (k + 1)) % 2 ^ F.fracBits = frac := by
    rw [Nat.add_mul_mod_self_left, Nat.mod_eq_of_lt (by omega)]
  have hdiv : (frac + 2 ^ F.fracBits * (k + 1)) / 2 ^ F.fracBits = k + 1 := by
    rw [Nat.add_mul_div_left _ _ hP, Nat.div_eq_of_lt (by omega), Nat.zero_add]
  have hsign : (frac + 2 ^ F.fracBits * (k + 1)) / F.signBit = 0 := by
    rw [Format.signBit, pow_add, ← Nat.div_div_eq_div_mul, hdiv, Nat.div_eq_of_lt (by omega)]
  rw [hw]
  unfold unpack
  simp only [hfrac, hdiv, hsign, Nat.mod_eq_of_lt (show k + 1 < 2 ^ F.expBits by omega)]
  rw [if_neg (by omega), if_neg (Nat.succ_ne_zero k), Nat.cast_succ, ← add_assoc, add_sub_cancel_right]
  rfl

/-- The carry of a rounded significand goes to the next exponent. -/
theorem exists_normal_of_carry (F : Format) {k sig : Nat} (hlo : 2 ^ F.fracBits ≤ sig) (hhi : sig ≤ 2 * 2 ^ F.fracBits) :
    ∃ j m, 2 ^ F.fracBits ≤ m ∧ m < 2 * 2 ^ F.fracBits ∧ j * 2 ^ F.fracBits + m = k * 2 ^ F.fracBits + sig ∧
      m * 2 ^ j = sig * 2 ^ k ∧ k ≤ j ∧ j ≤ k + 1 := by
  have hP : 0 < 2 ^ F.fracBits := by positivity
  rcases hhi.lt_or_eq with h | rfl
  · exact ⟨k, sig, hlo, h, rfl, rfl, le_rfl, Nat.le_succ k⟩
  · exact ⟨k + 1, 2 ^ F.fracBits, le_rfl, by omega, by ring, by ring, Nat.le_succ k, le_rfl⟩

/-- A positive number well inside the normal range is rounded to a significand `sig` of full width or just past it, counted
from an exponent `k` inside the range. -/
theorem roundMag_normal {M : Nat} {e : Int} (hlo : (2 : ℚ) ^ (-1000 : Int) ≤ M * 2 ^ e) (hhi : (M : ℚ) * 2 ^ e ≤ 2) :
    ∃ (k sig : Nat) (z : ℚ), roundMag b64 M e = k * 2 ^ b64.fracBits + sig ∧ NearestEven z sig ∧
      (M : ℚ) * 2 ^ e = z * 2 ^ (b64.minExp + k) ∧ 2 ^ 52 ≤ sig ∧ sig ≤ 2 * 2 ^ 52 ∧ k ≤ 1023 := by
  have two : (2 : ℚ) ≠ 0 := two_ne_zero
  have hM : M ≠ 0 := by
    rintro rfl
    simp only [Nat.cast_zero, zero_mul] at hlo
    exact absurd hlo (not_le.mpr (by positivity))
  obtain ⟨k, sig, z, hmag, hsig, hz, hk, hz'⟩ := roundMag_spec b64 M e hM
  have hx : (M : ℚ) * 2 ^ e = z * 2 ^ (b64.minExp + k) := by
    rw [zpow_add₀ two, zpow_natCast, mul_left_comm, hz, zpow_sub₀ two]
    field_simp
  rw [hx] at hlo hhi ⊢
  have hunit : (0 : ℚ) < 2 ^ (b64.minExp + k) := by positivity
  have hz52 : (2 : ℚ) ^ (52 : Int) ≤ z := by
    refine hk.resolve_left ?_
    rintro rfl
    refine lt_irrefl ((2 : ℚ) ^ (-1000 : Int)) ?_
    calc (2 : ℚ) ^ (-1000 : Int) ≤ z * 2 ^ (b64.minExp + (0 : Nat)) := hlo
      _ < 2 ^ (53 : Int) * 2 ^ (b64.minExp + (0 : Nat)) :=
        mul_lt_mul_of_pos_right (hz'.trans_eq (by norm_num [b64])) hunit
      _ = 2 ^ ((53 : Int) + (b64.minExp + (0 : Nat))) := (zpow_add₀ two _ _).symm
      _ ≤ 2 ^ (-1000 : Int) := zpow_le_zpow_right₀ one_le_two (by decide)
  have hk1023 : (52 : Int) + (b64.minExp + k) ≤ 1 := by
    refine (zpow_le_zpow_iff_right₀ (one_lt_two (α := ℚ))).mp ?_
    rw [zpow_add₀ two, zpow_one]
    exact (mul_le_mul_of_nonneg_right hz52 hunit.le).trans hhi
  rw [show b64.minExp = -1074 from rfl] at hk1023
  have hk' : k ≤ 1023 := by omega
  have hslo : 2 ^ 52 ≤ sig := hsig.le_of_le (by push_cast; exact hz52)
  have hshi : sig ≤ 2 * 2 ^ 52 := hsig.le_of_lt (hz'.trans_eq (by norm_num [b64]))
  refine ⟨k, sig, z, hmag.trans (Nat.min_eq_left ?_), hsig, rfl, hslo, hshi, hk'⟩
  simp only [b64, Format.infBits]
  omega

/-- So it reads as a significand of full width, half a unit of the last place away at most. -/
theorem num64_round64_normal {M : Nat} {e : Int} (hlo : (2 : ℚ) ^ (-1000 : Int) ≤ M * 2 ^ e) (hhi : (M : ℚ) * 2 ^ e ≤ 2) :
    ∃ m q : Nat, num64 (round64 false M e) = .fin false m (-(q : Int)) ∧ 2 ^ 52 ≤ m ∧ m < 2 ^ 53 ∧
      |(m : ℚ) * 2 ^ (-(q : Int)) - M * 2 ^ e| ≤ 2 ^ (-(q : Int) - 1) := by
  have two : (2 : ℚ) ≠ 0 := two_ne_zero
  obtain ⟨k, sig, z, hmag, hsig, hx, hslo, hshi, hk⟩ := roundMag_normal hlo hhi
  obtain ⟨j, m, hm, hm', hpat, hval, hkj, hjk⟩ := exists_normal_of_carry b64 (k := k) hslo hshi
  have hnum : num64 (round64 false M e) = .fin false m (b64.minExp + j) := by
    rw [num64, round64_toNat, hmag, ← hpat]
    simpa [withSign] using unpack_normal b64 hm hm' (show j + 2 < 2 ^ 11 by omega)
  have hvalue : (m : ℚ) * 2 ^ (b64.minExp + j) = sig * 2 ^ (b64.minExp + k) := by
    have : (m : ℚ) * 2 ^ j = sig * 2 ^ k := by exact_mod_cast hval
    rw [zpow_add₀ two, zpow_add₀ two, zpow_natCast, zpow_natCast, mul_left_comm, this, mul_left_comm]
  have hunit : (0 : ℚ) < 2 ^ (b64.minExp + k) := by positivity
  have hnear : |(m : ℚ) * 2 ^ (b64.minExp + j) - M * 2 ^ e| ≤ 2 ^ (b64.minExp + j - 1) := calc
    _ = |(sig : ℚ) - z| * 2 ^ (b64.minExp + k) := by rw [hvalue, hx, ← sub_mul, abs_mul, abs_of_pos hunit]
    _ ≤ 1 / 2 * 2 ^ (b64.minExp + k) := mul_le_mul_of_nonneg_right hsig.1 hunit.le
    _ = 2 ^ (b64.minExp + k - 1) := by rw [zpow_sub_one₀ two]; ring
    _ ≤ 2 ^ (b64.minExp + j - 1) := zpow_le_zpow_right₀ one_le_two (by omega)
  have hq : b64.minExp + j = -((1074 - j : Nat) : Int) := by
    rw [show b64.minExp = -1074 from rfl]
    omega
  rw [hq] at hnum hnear
  exact ⟨m, 1074 - j, hnum, hm, hm', hnear⟩

/-! ### Samples nearest to a root -/

/-- `v` has full width and lies within half a unit of its last place of the `n`-th root of N/c, raised to whole numbers. -/
def NearestRoot (n c N : Nat) (v : F64) : Prop :=
  ∃ m q : Nat, num64 v = .fin false m (-(q : Int)) ∧ 2 ^ 52 ≤ m ∧
    (2 * m - 1) ^ n * c ≤ N * 2 ^ (n * (q + 1)) ∧ N * 2 ^ (n * (q + 1)) ≤ (2 * m + 1) ^ n * c

/-- Half a unit of the last place, counted in the finer unit 2^-(d + q + 2). -/
theorem half_unit_bounds {m M d q : Nat} (hm : 1 ≤ m)
    (h : |(m : ℚ) * 2 ^ (-(q : Int)) - M * 2 ^ (-(((d + q + 1 : Nat) : Int) + 1))| ≤ 2 ^ (-(q : Int) - 1)) :
    (2 * m - 1) * (2 * 2 ^ d) ≤ M ∧ M ≤ (2 * m + 1) * (2 * 2 ^ d) := by
  have two : (2 : ℚ) ≠ 0 := two_ne_zero
  have hfine : (0 : ℚ) < 2 ^ (-(((d + q + 1 : Nat) : Int) + 1)) := by positivity
  have hhalf : (2 : ℚ) ^ (-(q : Int) - 1) = 2 * 2 ^ d * 2 ^ (-(((d + q + 1 : Nat) : Int) + 1)) := by
    rw [← pow_succ', ← zpow_natCast, ← zpow_add₀ two]
    congr 1
    push_cast
    ring
  have hunit : (2 : ℚ) ^ (-(q : Int)) = 2 * 2 ^ (-(q : Int) - 1) := by rw [zpow_sub_one₀ two]; ring
  have hcount : |(m : ℚ) * (2 * (2 * 2 ^ d)) - M| ≤ 2 * 2 ^ d := by
    rwa [hunit, hhalf, ← mul_assoc 2, ← mul_assoc (m : ℚ), ← sub_mul, abs_mul, abs_of_pos hfine,
      mul_le_mul_iff_left₀ hfine] at h
  obtain ⟨hupper, hlower⟩ := abs_le.mp hcount
  constructor
  · have : ((2 * m - 1 : Nat) : ℚ) * (2 * 2 ^ d) ≤ M := by
      rw [Nat.cast_sub (by omega)]
      push_cast
      linarith
    exact_mod_cast this
  · have : (M : ℚ) ≤ (2 * m + 1) * (2 * 2 ^ d) := by linarith
    exact_mod_cast this

/-- A root cut to `t` binary places, with a sticky bit `s` below them that says whether it was exact, rounds to the nearest: the
bounds of half a unit are even in the sticky bit's unit, so the bit cannot pass them. -/
theorem exists_num64_sticky {p s t : Nat} (hs : s ≤ 1) (ht : t ≤ 999) (hlo : 2 ^ 53 ≤ p) (hhi : 2 * p + s ≤ 2 ^ (t + 2)) :
    ∃ m d q : Nat, num64 (round64 false (2 * p + s) (-((t : Int) + 1))) = .fin false m (-(q : Int)) ∧ 2 ^ 52 ≤ m ∧
      t = d + q + 1 ∧ (2 * m - 1) * 2 ^ d ≤ p ∧ p + s ≤ (2 * m + 1) * 2 ^ d := by
  have two : (2 : ℚ) ≠ 0 := two_ne_zero
  have hpos : ∀ n : Int, (0 : ℚ) < 2 ^ n := fun n => by positivity
  have hM : (2 : ℚ) ^ (54 : Int) ≤ (2 * p + s : Nat) := by
    rw [zpow_ofNat]
    exact_mod_cast (show 2 ^ 54 ≤ 2 * p + s by omega)
  have hM' : ((2 * p + s : Nat) : ℚ) ≤ 2 ^ ((t : Int) + 2) := by exact_mod_cast hhi
  have hxlo : (2 : ℚ) ^ ((54 : Int) + -((t : Int) + 1)) ≤ (2 * p + s : Nat) * 2 ^ (-((t : Int) + 1)) := by
    rw [zpow_add₀ two]
    exact mul_le_mul_of_nonneg_right hM (hpos _).le
  have hxhi : ((2 * p + s : Nat) : ℚ) * 2 ^ (-((t : Int) + 1)) ≤ 2 := calc
    _ ≤ (2 : ℚ) ^ ((t : Int) + 2) * 2 ^ (-((t : Int) + 1)) := mul_le_mul_of_nonneg_right hM' (hpos _).le
    _ = 2 ^ (1 : Int) := by rw [← zpow_add₀ two]; congr 1; ring
    _ = 2 := zpow_one 2
  obtain ⟨m, q, hnum, hm, hm', habs⟩ :=
    num64_round64_normal ((zpow_le_zpow_right₀ one_le_two (by omega)).trans hxlo) hxhi
  -- the last place lies above the root's
  have hqt : (54 : Int) + -((t : Int) + 1) < 54 + (-(q : Int) - 1) := by
    refine (zpow_lt_zpow_iff_right₀ (one_lt_two (α := ℚ))).mp (hxlo.trans_lt ?_)
    have hunit : (2 : ℚ) ^ (-(q : Int)) = 2 * 2 ^ (-(q : Int) - 1) := by rw [zpow_sub_one₀ two]; ring
    have hmQ : (m : ℚ) + 1 ≤ 2 ^ 53 := by exact_mod_cast hm'
    rw [zpow_add₀ two, zpow_ofNat]
    nlinarith [hpos (-(q : Int) - 1), (abs_le.mp habs).1]
  obtain ⟨d, rfl⟩ : ∃ d, t = d + q + 1 := ⟨t - (q + 1), by omega⟩
  obtain ⟨hlower, hupper⟩ := half_unit_bounds (by omega) habs
  rw [mul_left_comm] at hlower hupper
  exact ⟨m, d, q, hnum, hm, rfl, by omega, by omega⟩

/-- What is computed from a root cut to `t` binary places and its sticky bit is the sample nearest to the root. -/
theorem nearestRoot_round64 {n c N p s t : Nat} (hn : n ≠ 0) (ht : 53 ≤ t) (ht' : t ≤ 999) (hs : s ≤ 1) (hNc : N ≤ c)
    (hc : c < N * 2 ^ (n * (t - 53))) (hlo : p ^ n * c ≤ N * 2 ^ (n * t)) (hhi : N * 2 ^ (n * t) ≤ (p + s) ^ n * c) :
    NearestRoot n c N (round64 false (2 * p + s) (-((t : Int) + 1))) := by
  have hc0 : 0 < c := by
    rcases Nat.eq_zero_or_pos c with rfl | h
    · simp [Nat.le_zero.mp hNc] at hc
    · exact h
  have hpt : p ≤ 2 ^ t := by
    refine le_of_not_gt fun h => absurd hlo (not_le.mpr ?_)
    calc N * 2 ^ (n * t) ≤ c * (2 ^ t) ^ n := by rw [← pow_mul, mul_comm t]; exact Nat.mul_le_mul_right _ hNc
      _ < p ^ n * c := by
        rw [mul_comm]
        exact Nat.mul_lt_mul_of_pos_right (Nat.pow_lt_pow_left h hn) hc0
  have hp53 : 2 ^ 53 ≤ p := by
    refine le_of_not_gt fun h => absurd hhi (not_le.mpr ?_)
    calc (p + s) ^ n * c ≤ (2 ^ 53) ^ n * c := Nat.mul_le_mul_right _ (Nat.pow_le_pow_left (by omega) n)
      _ < (2 ^ 53) ^ n * (N * 2 ^ (n * (t - 53))) := Nat.mul_lt_mul_of_pos_left hc (by positivity)
      _ = N * 2 ^ (n * t) := by
        rw [mul_left_comm, ← pow_mul, ← pow_add, mul_comm 53, ← mul_add, Nat.add_sub_cancel' ht]
  have hsum : 2 * p + s ≤ 2 ^ (t + 2) := by
    have : 1 ≤ 2 ^ t := Nat.one_le_two_pow
    rw [pow_add]
    omega
  obtain ⟨m, d, q, hnum, hm, rfl, hmp, hpm⟩ := exists_num64_sticky hs ht' hp53 hsum
  have hsplit : N * 2 ^ (n * (d + q + 1)) = N * 2 ^ (n * (q + 1)) * (2 ^ d) ^ n := by
    rw [← pow_mul, mul_assoc, ← pow_add]
    congr 2
    ring
  have hscale : ∀ x : Nat, (x * 2 ^ d) ^ n * c = x ^ n * c * (2 ^ d) ^ n := fun x => by rw [mul_pow]; ring
  have hd : 0 < (2 ^ d) ^ n := by positivity
  refine ⟨m, q, hnum, hm, Nat.le_of_mul_le_mul_right ?_ hd, Nat.le_of_mul_le_mul_right ?_ hd⟩
  · rw [← hscale, ← hsplit]
    exact (Nat.mul_le_mul_right c (Nat.pow_le_pow_left hmp n)).trans hlo
  · rw [← hscale, ← hsplit]
    exact hhi.trans (Nat.mul_le_mul_right c (Nat.pow_le_pow_left hpm n))

/-! ### The raw samples -/

/-- The search finds the root that its bounds enclose. -/
theorem rootSearch_spec (steps e bound : Nat) {n m : Nat} (hlo : m ^ e * steps ≤ bound)
    (hhi : bound < (m + 2 ^ n) ^ e * steps) :
    rootSearch steps e bound n m ^ e * steps ≤ bound ∧ bound < (rootSearch steps e bound n m + 1) ^ e * steps := by
  induction n generalizing m with
  | zero => exact ⟨hlo, hhi⟩
  | succ n ih =>
    rw [rootSearch]
    split
    · next h => exact ih h (by rwa [add_assoc, ← two_mul, ← pow_succ'])
    · next h => exact ih hlo (not_le.mp h)

/-- The root that a LOG sample is computed from, cut to 64 binary places (R180). -/
theorem rootSearch_rawLog {e k : Nat} (he : 1 ≤ e) (hk : k ≤ 31) :
    rootSearch 31 e (k * 2 ^ (64 * e)) 65 0 ^ e * 31 ≤ k * 2 ^ (64 * e) ∧
      k * 2 ^ (64 * e) < (rootSearch 31 e (k * 2 ^ (64 * e)) 65 0 + 1) ^ e * 31 := by
  refine rootSearch_spec 31 e _ (by simp [Nat.one_le_iff_ne_zero.mp he]) ?_
  rw [Nat.zero_add, ← pow_mul, mul_comm k]
  calc 2 ^ (64 * e) * k ≤ 2 ^ (64 * e) * 31 := Nat.mul_le_mul_left _ hk
    _ < 2 ^ (65 * e) * 31 := Nat.mul_lt_mul_of_pos_right (Nat.pow_lt_pow_right one_lt_two (by omega)) (by norm_num)

/-- A LOG sample is nearest to the e-th root of k/31 (R180). -/
theorem nearestRoot_rawLog {e k : Nat} (he : 1 ≤ e) (hk : 1 ≤ k) (hk' : k ≤ 31) : NearestRoot e 31 k (rawLog e k) := by
  obtain ⟨hlo, hhi⟩ := rootSearch_rawLog he hk'
  unfold rawLog
  simp only [show gridSteps = 31 from rfl]
  generalize rootSearch 31 e (k * 2 ^ (64 * e)) 65 0 = p at *
  rw [mul_comm 64 e] at *
  refine nearestRoot_round64 (t := 64) (by omega) (by norm_num) (by norm_num) (by split <;> omega) hk' ?_ hlo ?_
  · calc 31 < 1 * 2 ^ (1 * 11) := by norm_num
      _ ≤ k * 2 ^ (e * 11) := Nat.mul_le_mul hk (Nat.pow_le_pow_right two_pos (Nat.mul_le_mul_right 11 he))
  · split
    · next h => exact h.ge
    · exact hhi.le

/-- An EXP sample is nearest to (k/31)^e (R181). -/
theorem nearestRoot_rawExp {e k : Nat} (he : e ≤ 31) (hk : 1 ≤ k) (hk' : k ≤ 31) :
    NearestRoot 1 (31 ^ e) (k ^ e) (rawExp e k) := by
  have hc : 0 < 31 ^ e := by positivity
  have hlog : Nat.log2 (31 ^ e) < 5 * e + 1 := by
    refine (Nat.log2_lt hc.ne').mpr ?_
    calc 31 ^ e ≤ (2 ^ 5) ^ e := Nat.pow_le_pow_left (by norm_num) e
      _ < 2 ^ (5 * e + 1) := by
        rw [← pow_mul]
        exact Nat.pow_lt_pow_right one_lt_two (Nat.lt_succ_self _)
  unfold rawExp ratioScaled
  simp only [show gridSteps = 31 from rfl]
  have hdiv := Nat.div_add_mod (k ^ e * 2 ^ (70 + Nat.log2 (31 ^ e))) (31 ^ e)
  have hmod := Nat.mod_lt (k ^ e * 2 ^ (70 + Nat.log2 (31 ^ e))) hc
  refine nearestRoot_round64 one_ne_zero (by omega) (by omega) (by split <;> omega) (Nat.pow_le_pow_left hk' e) ?_ ?_ ?_
  · calc 31 ^ e < 2 ^ (Nat.log2 (31 ^ e) + 1) := Nat.lt_log2_self
      _ ≤ 2 ^ (1 * (70 + Nat.log2 (31 ^ e) - 53)) := Nat.pow_le_pow_right two_pos (by omega)
      _ ≤ k ^ e * 2 ^ (1 * (70 + Nat.log2 (31 ^ e) - 53)) := Nat.le_mul_of_pos_left _ (by positivity)
  · rw [pow_one, one_mul]
    exact Nat.div_mul_le_self _ _
  · rw [pow_one, one_mul]
    split
    · next h => rw [add_zero, Nat.div_mul_cancel (Nat.dvd_of_mod_eq_zero h)]
    · exact (Nat.lt_mul_of_div_lt (Nat.lt_succ_self _) hc).le

/-- Settles O38: a LOG sample is nearest to a root of k/31, an EXP sample to a power of it. -/
theorem rawSamplesAreNearest : Obligations.RawSamplesAreNearest := by
  unfold Obligations.RawSamplesAreNearest
  intro e k he he' hk hk'
  refine ⟨nearestRoot_rawLog he hk hk', ?_⟩
  simpa only [NearestRoot, pow_one, one_mul] using nearestRoot_rawExp he' hk hk'

/-! ### The order of the raw samples (R183) -/

theorem NearestRoot.finite {n c N : Nat} {v : F64} (h : NearestRoot n c N v) : finite64 v = true := by
  obtain ⟨m, q, hnum, -⟩ := h
  exact (value64_of_num64 hnum rfl).1

/-- A sample's number, and the root half a unit of its last place around it. -/
theorem NearestRoot.exists_value {n c N : Nat} {v : F64} (h : NearestRoot n c N v) (hc : 0 < c) :
    ∃ m q : Nat, (2 : ℚ) ^ 52 ≤ m ∧ value64 v = 2 * m / 2 ^ (q + 1) ∧
      ((2 * m - 1 : ℚ) / 2 ^ (q + 1)) ^ n ≤ N / c ∧ (N : ℚ) / c ≤ ((2 * m + 1 : ℚ) / 2 ^ (q + 1)) ^ n := by
  obtain ⟨m, q, hnum, hm, hlo, hhi⟩ := h
  have hcQ : (0 : ℚ) < c := Nat.cast_pos.mpr hc
  have hpow : ((2 : ℚ) ^ (q + 1)) ^ n = 2 ^ (n * (q + 1)) := by rw [← pow_mul, mul_comm]
  refine ⟨m, q, by exact_mod_cast hm, ?_, ?_, ?_⟩
  · rw [(value64_of_num64 hnum rfl).2, Num.value_fin, zpow_neg, zpow_natCast, pow_succ]
    simp only [Bool.false_eq_true, if_false]
    field_simp
  · have hcast : (2 * m - 1 : ℚ) = (2 * m - 1 : Nat) := by
      rw [Nat.cast_sub (by omega)]
      push_cast
      rfl
    rw [hcast, div_pow, hpow, div_le_div_iff₀ (by positivity) hcQ]
    exact_mod_cast hlo
  · rw [div_pow, hpow, div_le_div_iff₀ hcQ (by positivity)]
    exact_mod_cast hhi

/-- A sample's number lies within one part in 2^53 of the root. -/
theorem NearestRoot.value_bounds {n c N : Nat} {v : F64} (h : NearestRoot n c N v) (hc : 0 < c) :
    0 < value64 v ∧ (value64 v * (1 - 1 / 2 ^ 53)) ^ n ≤ (N : ℚ) / c ∧ (N : ℚ) / c ≤ (value64 v * (1 + 1 / 2 ^ 53)) ^ n := by
  obtain ⟨m, q, hm, hval, hlo, hhi⟩ := h.exists_value hc
  have hm0 : (0 : ℚ) < m := lt_of_lt_of_le (by norm_num) hm
  have hq : (0 : ℚ) < 2 ^ (q + 1) := by positivity
  have hdown : (0 : ℚ) ≤ 1 - 1 / 2 ^ 53 := by norm_num
  rw [hval]
  refine ⟨by positivity, (pow_le_pow_left₀ (by positivity) ?_ n).trans hlo,
    hhi.trans (pow_le_pow_left₀ (by positivity) ?_ n)⟩
  · rw [div_mul_eq_mul_div, div_le_div_iff_of_pos_right hq]
    linarith
  · rw [div_mul_eq_mul_div, div_le_div_iff_of_pos_right hq]
    linarith

/-- The relative error of two samples, raised to a power of at most 31 * 32, is less than one part in 31. -/
theorem unit_pow_gap {n : Nat} (hn : n ≤ 992) : (30 : ℚ) / 31 < ((1 - 1 / 2 ^ 53) / (1 + 1 / 2 ^ 53)) ^ n := by
  have hunit : -1 / 2 ^ 50 ≤ ((1 - 1 / 2 ^ 53) / (1 + 1 / 2 ^ 53) - 1 : ℚ) := by norm_num
  have hbern := one_add_mul_le_pow ((show (-2 : ℚ) ≤ -1 / 2 ^ 50 by norm_num).trans hunit) n
  have hmul := mul_le_mul_of_nonneg_left hunit (Nat.cast_nonneg (α := ℚ) n)
  have hnQ : (n : ℚ) ≤ 992 := by exact_mod_cast hn
  rw [add_sub_cancel] at hbern
  linarith

/-- Samples are ordered as roots that lie apart by one part in 31 or more, compared as powers of both exponents' product. -/
theorem NearestRoot.value_lt {n c N n' c' N' : Nat} {u v : F64} (hu : NearestRoot n c N u) (hv : NearestRoot n' c' N' v)
    (hc : 0 < c) (hc' : 0 < c') (hn : n * n' ≤ 992) (hpos : 0 < ((N' : ℚ) / c') ^ n)
    (hgap : ((N : ℚ) / c) ^ n' ≤ 30 / 31 * ((N' : ℚ) / c') ^ n) : value64 u < value64 v := by
  obtain ⟨hu0, hulo, -⟩ := hu.value_bounds hc
  obtain ⟨hv0, -, hvhi⟩ := hv.value_bounds hc'
  refine lt_of_not_ge fun hle => ?_
  have hdown : (0 : ℚ) ≤ 1 - 1 / 2 ^ 53 := by norm_num
  have hX : (value64 u * (1 - 1 / 2 ^ 53)) ^ (n * n') ≤ ((N : ℚ) / c) ^ n' := by
    rw [pow_mul]
    exact pow_le_pow_left₀ (by positivity) hulo n'
  have hY : ((N' : ℚ) / c') ^ n ≤ (value64 v * (1 + 1 / 2 ^ 53)) ^ (n * n') := by
    rw [mul_comm n, pow_mul]
    exact pow_le_pow_left₀ (by positivity) hvhi n
  have hunit : (0 : ℚ) < ((1 - 1 / 2 ^ 53) / (1 + 1 / 2 ^ 53)) ^ (n * n') := lt_trans (by norm_num) (unit_pow_gap hn)
  refine lt_irrefl (30 / 31 * ((N' : ℚ) / c') ^ n) ?_
  calc 30 / 31 * ((N' : ℚ) / c') ^ n
      < ((1 - 1 / 2 ^ 53) / (1 + 1 / 2 ^ 53)) ^ (n * n') * ((N' : ℚ) / c') ^ n :=
        mul_lt_mul_of_pos_right (unit_pow_gap hn) hpos
    _ ≤ ((1 - 1 / 2 ^ 53) / (1 + 1 / 2 ^ 53)) ^ (n * n') * (value64 v * (1 + 1 / 2 ^ 53)) ^ (n * n') :=
        mul_le_mul_of_nonneg_left hY hunit.le
    _ = (value64 v * (1 - 1 / 2 ^ 53)) ^ (n * n') := by
        rw [← mul_pow]
        congr 1
        field_simp
    _ ≤ (value64 u * (1 - 1 / 2 ^ 53)) ^ (n * n') :=
        pow_le_pow_left₀ (by positivity) (mul_le_mul_of_nonneg_right hle hdown) _
    _ ≤ 30 / 31 * ((N' : ℚ) / c') ^ n := hX.trans hgap

/-- Next points of the grid lie apart, as do their powers. -/
theorem grid_gap {e k : Nat} (he : 1 ≤ e) (hk : 1 ≤ k) (hk' : k < 31) :
    ((k : ℚ) / 31) ^ e ≤ 30 / 31 * (((k + 1 : Nat) : ℚ) / 31) ^ e := by
  obtain ⟨j, rfl⟩ := Nat.exists_eq_add_of_le' he
  have hkQ : (k : ℚ) ≤ 30 := by exact_mod_cast Nat.le_of_lt_succ hk'
  have hstep : (k : ℚ) / 31 ≤ 30 / 31 * (((k + 1 : Nat) : ℚ) / 31) := by
    push_cast
    linarith
  have hmono : ((k : ℚ) / 31) ^ j ≤ (((k + 1 : Nat) : ℚ) / 31) ^ j :=
    pow_le_pow_left₀ (by positivity) (by push_cast; linarith) j
  calc ((k : ℚ) / 31) ^ (j + 1) = (k : ℚ) / 31 * (k / 31) ^ j := pow_succ' ..
    _ ≤ 30 / 31 * (((k + 1 : Nat) : ℚ) / 31) * (((k + 1 : Nat) : ℚ) / 31) ^ j :=
      mul_le_mul hstep hmono (by positivity) (by positivity)
    _ = 30 / 31 * (((k + 1 : Nat) : ℚ) / 31) ^ (j + 1) := by rw [pow_succ']; ring

/-- Next powers of a grid point below 1 lie apart. -/
theorem power_gap (e : Nat) {k : Nat} (hk : k < 31) : ((k : ℚ) / 31) ^ (e + 1) ≤ 30 / 31 * ((k : ℚ) / 31) ^ e := by
  have hkQ : (k : ℚ) ≤ 30 := by exact_mod_cast Nat.le_of_lt_succ hk
  rw [pow_succ']
  exact mul_le_mul_of_nonneg_right (by linarith) (by positivity)

/-- LOG's samples grow along the grid, and with the exponent. -/
theorem rawLog_value_lt_succ {e k : Nat} (he : 1 ≤ e) (he' : e ≤ 31) (hk : 1 ≤ k) (hk' : k < 31) :
    value64 (rawLog e k) < value64 (rawLog e (k + 1)) := by
  refine (nearestRoot_rawLog he hk hk'.le).value_lt (nearestRoot_rawLog he (Nat.le_add_left 1 k) hk') (by norm_num)
    (by norm_num) ?_ (by positivity) (grid_gap he hk hk')
  exact (Nat.mul_le_mul he' he').trans (by norm_num)

theorem rawLog_value_lt_exponent {e k : Nat} (he : 1 ≤ e) (he' : e < 31) (hk : 1 ≤ k) (hk' : k < 31) :
    value64 (rawLog e k) < value64 (rawLog (e + 1) k) := by
  refine (nearestRoot_rawLog he hk hk'.le).value_lt (nearestRoot_rawLog (Nat.le_add_left 1 e) hk hk'.le) (by norm_num)
    (by norm_num) ?_ (by positivity) (power_gap e hk')
  exact (Nat.mul_le_mul he'.le he').trans (by norm_num)

/-- EXP's samples grow along the grid, and shrink with the exponent. -/
theorem rawExp_value_lt_succ {e k : Nat} (he : 1 ≤ e) (he' : e ≤ 31) (hk : 1 ≤ k) (hk' : k < 31) :
    value64 (rawExp e k) < value64 (rawExp e (k + 1)) := by
  refine (nearestRoot_rawExp he' hk hk'.le).value_lt (nearestRoot_rawExp he' (Nat.le_add_left 1 k) hk') (by positivity)
    (by positivity) (by norm_num) (by positivity) ?_
  simpa only [Nat.cast_pow, Nat.cast_ofNat, ← div_pow, pow_one] using grid_gap he hk hk'

theorem rawExp_value_lt_exponent {e k : Nat} (he' : e < 31) (hk : 1 ≤ k) (hk' : k < 31) :
    value64 (rawExp (e + 1) k) < value64 (rawExp e k) := by
  refine (nearestRoot_rawExp he' hk hk'.le).value_lt (nearestRoot_rawExp he'.le hk hk'.le) (by positivity)
    (by positivity) (by norm_num) (by positivity) ?_
  simpa only [Nat.cast_pow, Nat.cast_ofNat, ← div_pow, pow_one] using power_gap e hk'

/-! ### The ends of a raw table -/

/-- The sample nearest to 1 is 1.0. -/
theorem NearestRoot.eq_one64 {n c : Nat} {v : F64} (h : NearestRoot n c c v) (hn : n ≠ 0) (hc : 0 < c) : v = one64 := by
  obtain ⟨m, q, hnum, hm, hlo, hhi⟩ := h
  rw [mul_comm c, mul_comm n, pow_mul] at hlo hhi
  have hbelow : 2 * m - 1 ≤ 2 ^ (q + 1) := (Nat.pow_le_pow_iff_left hn).mp (Nat.le_of_mul_le_mul_right hlo hc)
  have habove : 2 ^ (q + 1) ≤ 2 * m + 1 := (Nat.pow_le_pow_iff_left hn).mp (Nat.le_of_mul_le_mul_right hhi hc)
  have hmq : m = 2 ^ q := by
    rw [pow_succ] at hbelow habove
    omega
  subst hmq
  obtain ⟨hfin, hval⟩ := value64_of_num64 (x := 1) hnum (by simp [Num.value_fin])
  obtain ⟨m', e', hv, -⟩ := num64_of_finite hfin
  have hmsb : v.msb = false := (Num.fin.inj (hnum.symm.trans hv)).1.symm
  refine BitVec.eq_of_toNat_eq (b64.eq_of_value_eq (toNat64_lt v) (toNat64_lt one64) ?_ (hval.trans value64_one64.2.symm))
  rw [msb64, msb64, hmsb]
  rfl

theorem rawLog_zero {e : Nat} (he : 1 ≤ e) : rawLog e 0 = 0#64 := by
  obtain ⟨hlo, -⟩ := rootSearch_rawLog he (Nat.zero_le 31)
  have he0 : e ≠ 0 := Nat.one_le_iff_ne_zero.mp he
  rw [Nat.zero_mul] at hlo
  have hroot : rootSearch 31 e 0 65 0 = 0 := by simpa [he0] using hlo
  simp [rawLog, show gridSteps = 31 from rfl, hroot, he0, round64, withSign]

theorem rawExp_zero {e : Nat} (he : 1 ≤ e) : rawExp e 0 = 0#64 := by
  simp [rawExp, ratioScaled, Nat.one_le_iff_ne_zero.mp he, round64, withSign]

/-! ### Mirroring (R182) -/

theorem mirrored_left (raw : Nat → F64) {k : Nat} (hk : k < 32) : mirrored raw (31 - k) = neg64 (raw k) := by
  rw [mirrored, show Config.lutRawEntries = 32 from rfl, if_pos (by omega), show 32 - 1 - (31 - k) = k by omega]

theorem mirrored_right (raw : Nat → F64) (k : Nat) : mirrored raw (32 + k) = raw k := by
  rw [mirrored, show Config.lutRawEntries = 32 from rfl, if_neg (by omega), Nat.add_sub_cancel_left]

/-- Every entry of a table mirrors a raw sample. -/
theorem exists_mirrored_index {j : Nat} (hj : j < 64) : ∃ k < 32, j = 31 - k ∨ j = 32 + k := by
  rcases Nat.lt_or_ge j 32 with h | h
  · exact ⟨31 - j, by omega, .inl (by omega)⟩
  · exact ⟨j - 32, by omega, .inr (by omega)⟩

/-- Flipping the sign bit negates the number. -/
theorem value64_neg64 (v : F64) : finite64 (neg64 v) = finite64 v ∧ value64 (neg64 v) = -value64 v := by
  have hmag : b64.magnitude (neg64 v).toNat = b64.magnitude v.toNat := by
    rw [neg64, BitVec.toNat_xor]
    exact (Nat.xor_mod_two_pow (n := 63)).trans (Nat.xor_zero _)
  have hneg : b64.isNeg (neg64 v).toNat = !b64.isNeg v.toNat := by
    rw [msb64, msb64, neg64, BitVec.msb_xor]
    exact Bool.xor_true _
  constructor
  · rw [finite64, finite64, Format.finite, Format.finite, hmag]
  · rw [value64, value64, Format.value, Format.value, hmag, hneg]
    generalize (b64.units (b64.magnitude v.toNat) : ℚ) / b64.perOne = x
    cases b64.isNeg v.toNat <;> simp

/-- A raw table: finite samples from 0 to 1 in order. -/
structure RawTable (raw : Nat → F64) : Prop where
  zero : raw 0 = 0#64
  last : raw 31 = one64
  finite : ∀ k < 32, finite64 (raw k) = true
  step : ∀ k < 31, value64 (raw k) ≤ value64 (raw (k + 1))

theorem value64_zero : finite64 0#64 = true ∧ value64 0#64 = 0 :=
  value64_of_num64 (s := false) (m := 0) (e := -1074) (by decide) (by simp [Num.value])

/-- A raw table from samples of growing roots. -/
theorem RawTable.of_nearestRoot {raw : Nat → F64} {n c : Nat} {N : Nat → Nat} (hn : n ≠ 0) (hc : 0 < c) (hlast : N 31 = c)
    (zero : raw 0 = 0#64) (near : ∀ k, 1 ≤ k → k ≤ 31 → NearestRoot n c (N k) (raw k))
    (step : ∀ k, 1 ≤ k → k < 31 → value64 (raw k) < value64 (raw (k + 1))) : RawTable raw where
  zero := zero
  last := by
    have h := near 31 (by norm_num) le_rfl
    rw [hlast] at h
    exact h.eq_one64 hn hc
  finite k hk := by
    rcases Nat.eq_zero_or_pos k with rfl | h
    · rw [zero]
      exact value64_zero.1
    · exact (near k h (by omega)).finite
  step k hk := by
    rcases Nat.eq_zero_or_pos k with rfl | h
    · rw [zero, value64_zero.2]
      exact ((near 1 le_rfl (by norm_num)).value_bounds hc).1.le
    · exact (step k h hk).le

theorem rawTable_rawLog {e : Nat} (he : 1 ≤ e) (he' : e ≤ 31) : RawTable (rawLog e) :=
  .of_nearestRoot (N := id) (by omega) (by norm_num) rfl (rawLog_zero he) (fun _ => nearestRoot_rawLog he)
    fun _ => rawLog_value_lt_succ he he'

theorem rawTable_rawExp {e : Nat} (he : 1 ≤ e) (he' : e ≤ 31) : RawTable (rawExp e) :=
  .of_nearestRoot (N := (· ^ e)) one_ne_zero (by positivity) rfl (rawExp_zero he) (fun _ => nearestRoot_rawExp he')
    fun _ => rawExp_value_lt_succ he he'

theorem RawTable.value_mono {raw : Nat → F64} (h : RawTable raw) {j k : Nat} (hjk : j ≤ k) (hk : k < 32) :
    value64 (raw j) ≤ value64 (raw k) := by
  induction k, hjk using Nat.le_induction with
  | base => exact le_rfl
  | succ k _ ih => exact (ih (by omega)).trans (h.step k (by omega))

theorem RawTable.value_range {raw : Nat → F64} (h : RawTable raw) {k : Nat} (hk : k < 32) :
    0 ≤ value64 (raw k) ∧ value64 (raw k) ≤ 1 := by
  have hlo := h.value_mono (Nat.zero_le k) hk
  have hhi := h.value_mono (Nat.le_of_lt_succ hk) (by norm_num)
  rw [h.zero, value64_zero.2] at hlo
  rw [h.last, value64_one64.2] at hhi
  exact ⟨hlo, hhi⟩

/-- A mirrored table is finite and its numbers lie from -1 to 1. -/
theorem RawTable.mirrored_range {raw : Nat → F64} (h : RawTable raw) {j : Nat} (hj : j < 64) :
    finite64 (mirrored raw j) = true ∧ -1 ≤ value64 (mirrored raw j) ∧ value64 (mirrored raw j) ≤ 1 := by
  obtain ⟨k, hk, rfl | rfl⟩ := exists_mirrored_index hj
  · obtain ⟨hfin, hval⟩ := value64_neg64 (raw k)
    obtain ⟨hlo, hhi⟩ := h.value_range hk
    rw [mirrored_left raw hk, hfin, hval]
    exact ⟨h.finite k hk, by linarith, by linarith⟩
  · obtain ⟨hlo, hhi⟩ := h.value_range hk
    rw [mirrored_right]
    exact ⟨h.finite k hk, by linarith, hhi⟩

/-- A mirrored table is in order. -/
theorem RawTable.mirrored_step {raw : Nat → F64} (h : RawTable raw) {j : Nat} (hj : j < 63) :
    value64 (mirrored raw j) ≤ value64 (mirrored raw (j + 1)) := by
  rcases Nat.lt_trichotomy j 31 with hlt | rfl | hgt
  · obtain ⟨k, hk, rfl⟩ : ∃ k < 31, j = 31 - (k + 1) := ⟨30 - j, by omega, by omega⟩
    rw [show 31 - (k + 1) + 1 = 31 - k by omega, mirrored_left raw (Nat.succ_lt_succ hk), mirrored_left raw (by omega),
      (value64_neg64 _).2, (value64_neg64 _).2]
    exact neg_le_neg (h.step k hk)
  · rw [mirrored_left raw (k := 0) (by norm_num), mirrored_right raw 0, (value64_neg64 _).2, h.zero, value64_zero.2,
      neg_zero]
  · obtain ⟨k, rfl⟩ := Nat.exists_eq_add_of_lt hgt
    rw [show 31 + k + 1 = 32 + k by omega, mirrored_right, add_assoc, mirrored_right]
    exact h.step k (by omega)

/-- A mirrored table has odd symmetry. -/
theorem mirrored_symm (raw : Nat → F64) {j : Nat} (hj : j < 64) :
    mirrored raw (63 - j) = mirrored raw j ^^^ 0x8000000000000000#64 := by
  obtain ⟨k, hk, rfl | rfl⟩ := exists_mirrored_index hj
  · rw [show 63 - (31 - k) = 32 + k by omega, mirrored_right, mirrored_left raw hk, neg64, BitVec.xor_assoc,
      BitVec.xor_self, BitVec.xor_zero]
  · rw [show 63 - (32 + k) = 31 - k by omega, mirrored_right, mirrored_left raw hk, neg64]

/-- What R183 says of a table, from its raw half. -/
theorem RawTable.mirrored_properties {raw T : Nat → F64} (h : RawTable raw) (hT : T = mirrored raw) :
    T 0 = 0xBFF0000000000000#64 ∧ T 63 = 0x3FF0000000000000#64 ∧
    T 31 = 0x8000000000000000#64 ∧ T 32 = 0x0000000000000000#64 ∧
    (∀ j : Nat, j < 64 → T (63 - j) = T j ^^^ 0x8000000000000000#64) ∧
    (∀ j : Nat, j < 63 → le64 (T j) (T (j + 1)) = true) ∧
    (∀ j : Nat, j < 64 → le64 negOne64 (T j) = true ∧ le64 (T j) one64 = true) := by
  subst hT
  have h31 : mirrored raw 31 = neg64 (raw 0) := mirrored_left raw (k := 0) (by norm_num)
  have h0 : mirrored raw 0 = neg64 (raw 31) := mirrored_left raw (k := 31) (by norm_num)
  have h32 : mirrored raw 32 = raw 0 := mirrored_right raw 0
  have h63 : mirrored raw 63 = raw 31 := mirrored_right raw 31
  rw [h0, h63, h31, h32, h.zero, h.last]
  refine ⟨by decide, rfl, by decide, rfl, fun j => mirrored_symm raw, fun j hj => ?_, fun j hj => ?_⟩
  · exact (compare64_finite (h.mirrored_range (by omega)).1 (h.mirrored_range (by omega)).1).2.mpr (h.mirrored_step hj)
  · obtain ⟨hfin, hlo, hhi⟩ := h.mirrored_range hj
    obtain ⟨hone, vone⟩ := value64_one64
    obtain ⟨hnegOne, vnegOne⟩ := value64_negOne64
    exact ⟨(compare64_finite hnegOne hfin).2.mpr (vnegOne.trans_le hlo),
      (compare64_finite hfin hone).2.mpr (hhi.trans_eq vone.symm)⟩

/-! ### The common table of exponent 1 -/

theorem rawLog_one_eq_rawExp_one : ∀ k < 32, rawLog 1 k = rawExp 1 k := by decide +kernel

theorem logTable_one_eq_expTable_one {j : Nat} (hj : j < 64) : logTable 1 j = expTable 1 j := by
  unfold logTable expTable
  obtain ⟨k, hk, rfl | rfl⟩ := exists_mirrored_index hj
  · rw [mirrored_left _ hk, mirrored_left _ hk, rawLog_one_eq_rawExp_one k hk]
  · rw [mirrored_right, mirrored_right, rawLog_one_eq_rawExp_one k hk]

/-- A sample of a number below 1 is half a unit of binary64's last place below 1 away at most. -/
theorem NearestRoot.abs_sub_le {c N : Nat} {v : F64} (h : NearestRoot 1 c N v) (hc : 0 < c) (hN : (N : ℚ) / c ≤ 30 / 31) :
    |value64 v - (N : ℚ) / c| ≤ 1 / 2 ^ 54 := by
  obtain ⟨m, q, hm, hval, hlo, hhi⟩ := h.exists_value hc
  rw [pow_one] at hlo hhi
  have hq : (0 : ℚ) < 2 ^ (q + 1) := by positivity
  have h54 : 54 ≤ q + 1 := by
    refine le_of_not_gt fun hlt => ?_
    have hle : (2 : ℚ) ^ (q + 1) ≤ 2 ^ 53 := pow_le_pow_right₀ one_le_two (by omega)
    have := (div_le_iff₀ hq).mp (hlo.trans hN)
    linarith
  calc |value64 v - (N : ℚ) / c| ≤ 1 / 2 ^ (q + 1) := by
        rw [sub_div] at hlo
        rw [add_div] at hhi
        rw [hval, abs_le]
        exact ⟨by linarith, by linarith⟩
    _ ≤ 1 / 2 ^ 54 := one_div_le_one_div_of_le (by positivity) (pow_le_pow_right₀ one_le_two h54)

/-- The common table holds k/31, exactly at its ends. -/
theorem logTable_one_near {k : Nat} (hk : k < 32) : |value64 (logTable 1 (32 + k)) - (k : ℚ) / 31| ≤ 1 / 2 ^ 54 := by
  have hraw := rawTable_rawLog le_rfl (show 1 ≤ 31 by norm_num)
  rw [logTable, mirrored_right]
  rcases Nat.eq_zero_or_pos k with rfl | hpos
  · simp [hraw.zero, value64_zero.2]
  · rcases (Nat.le_of_lt_succ hk).lt_or_eq with hlt | rfl
    · have hkQ : (k : ℚ) ≤ 30 := by exact_mod_cast Nat.le_of_lt_succ hlt
      exact (nearestRoot_rawLog le_rfl hpos hlt.le).abs_sub_le (by norm_num) (by push_cast; linarith)
    · simp [hraw.last, value64_one64.2]

/-- Settles O37: the raw tables are in order, mirroring carries that to the whole tables, and next exponents lie apart. -/
theorem tableProperties : Obligations.TableProperties := by
  unfold Obligations.TableProperties
  refine ⟨fun e he he' => ⟨fun k _ => ⟨mirrored_right _ k, mirrored_right _ k⟩, ?_, ?_⟩,
    fun j => logTable_one_eq_expTable_one, fun k => logTable_one_near⟩
  · rintro T (rfl | rfl)
    · exact (rawTable_rawLog he he').mirrored_properties rfl
    · exact (rawTable_rawExp he he').mirrored_properties rfl
  · intro k hk hk' he31
    have hlog := rawLog_value_lt_exponent he he31 hk hk'
    have hexp := rawExp_value_lt_exponent he31 hk hk'
    exact ⟨(compare64_finite (nearestRoot_rawLog he hk hk'.le).finite
        (nearestRoot_rawLog (Nat.le_add_left 1 e) hk hk'.le).finite).1.mpr hlog,
      (compare64_finite (nearestRoot_rawExp he31 hk hk'.le).finite (nearestRoot_rawExp he' hk hk'.le).finite).1.mpr hexp⟩

end Sys2Proof.Machine
end

section
/-! The wrapping family and the accumulating move (`43_wrapping_mac_and_macmv.md`): MACW, MACINTW, MACWN and MACMV, each as its
word and one whole next state. -/

namespace Sys2Proof.Machine

/-- Settles O9: the operation of MACW stores the folded sum a + x*y. -/
theorem macwResult : Obligations.MacwResult := by
  unfold Obligations.MacwResult
  refine fun f o => ⟨decode_or_fieldBits (i := .macw f o) (by simp [Instr.opcode]), fun s hr => ?_⟩
  exact exec_of_storing (i := .macw f o) nofun rfl hr

/-- Settles O10: the operation of MACINTW is that of MACW. -/
theorem macintwResult : Obligations.MacintwResult := by
  unfold Obligations.MacintwResult
  refine fun f o => ⟨decode_or_fieldBits (i := .macintw f o) (by simp [Instr.opcode]), fun s hr => ?_⟩
  exact exec_of_storing (i := .macintw f o) nofun rfl hr

/-- Settles O11: the operation of MACWN stores the folded difference a - x*y. -/
theorem macwnResult : Obligations.MacwnResult := by
  unfold Obligations.MacwnResult
  refine fun f o => ⟨decode_or_fieldBits (i := .macwn f o) (by simp [Instr.opcode]), fun s hr => ?_⟩
  exact exec_of_storing (i := .macwn f o) nofun rfl hr

/-- The next state of MACMV: the product goes to the accumulator that the instruction found, the operand `a` to R (R203). -/
theorem exec_macmv {s : State} {f : IoFlags} {o : Opnds} (hr : s.Ready f o) :
    exec (.macmv f o) s =
      .next { wroteDest s f o (sourcesOf s f o).a with
        acc := add64 s.acc (mul64 (widen (sourcesOf s f o).x) (widen (sourcesOf s f o).y)) } := by
  refine ((exec_executed (.macmv f o) nofun s).trans (executed_ready hr _)).trans (congrArg Host.Outcome.next ?_)
  exact State.publish_of_wroteDest (v := (sourcesOf s f o).a) hr.1 rfl rfl

/-- Settles O12: the product is added to the old accumulator, and R receives `a` as it was read. -/
theorem macmvResult : Obligations.MacmvResult := by
  unfold Obligations.MacmvResult
  exact fun f o => ⟨decode_or_fieldBits (i := .macmv f o) (by simp [Instr.opcode]), fun _ hr => exec_macmv hr⟩

end Sys2Proof.Machine
end

section
/-! Logic, selection and crossfade (`44_logic_and_select.md`): ANDXOR, TSTNEG, LIMIT, LIMITN and INTERP, each as its word and
one whole next state. -/

namespace Sys2Proof.Machine

/-- The next state of ANDXOR: R alone receives the value, so that `acc` and `cc` stay (R210). -/
theorem exec_andxor {s : State} {f : IoFlags} {o : Opnds} (hr : s.Ready f o) :
    exec (.andxor f o) s = .next (wroteDest s f o (andXor (sourcesOf s f o))) := by
  refine ((exec_executed (.andxor f o) nofun s).trans (executed_ready hr _)).trans (congrArg Host.Outcome.next ?_)
  exact State.publish_of_wroteDest (v := andXor (sourcesOf s f o)) hr.1 rfl rfl

/-- Settles O13: the value ANDXOR writes is `andXor` of the operands. -/
theorem andxorResult : Obligations.AndxorResult := by
  unfold Obligations.AndxorResult
  exact fun f o => ⟨decode_or_fieldBits (i := .andxor f o) (by simp [Instr.opcode]), fun _ hr => exec_andxor hr⟩

/-- Settles O14: the operation of TSTNEG stores x, its sign bit flipped where a >= y fails. -/
theorem tstnegResult : Obligations.TstnegResult := by
  unfold Obligations.TstnegResult
  refine fun f o => ⟨decode_or_fieldBits (i := .tstneg f o) (by simp [Instr.opcode]), fun s hr => ?_⟩
  exact exec_of_storing (i := .tstneg f o) nofun rfl hr

/-- Settles O15: the operation of LIMIT stores the operand that the test a >= y selects. -/
theorem limitResult : Obligations.LimitResult := by
  unfold Obligations.LimitResult
  refine fun f o => ⟨decode_or_fieldBits (i := .limit f o) (by simp [Instr.opcode]), fun s hr => ?_⟩
  exact exec_of_storing (i := .limit f o) nofun rfl hr

/-- Settles O16: the operation of LIMITN stores the operand that the test a < y selects. -/
theorem limitnResult : Obligations.LimitnResult := by
  unfold Obligations.LimitnResult
  refine fun f o => ⟨decode_or_fieldBits (i := .limitn f o) (by simp [Instr.opcode]), fun s hr => ?_⟩
  exact exec_of_storing (i := .limitn f o) nofun rfl hr

/-- Settles O17: the operation of INTERP stores the narrowed crossfade (1 - x)*a + x*y. -/
theorem interpResult : Obligations.InterpResult := by
  unfold Obligations.InterpResult
  refine fun f o => ⟨decode_or_fieldBits (i := .interp f o) (by simp [Instr.opcode]), fun s hr => ?_⟩
  exact exec_of_storing (i := .interp f o) nofun rfl hr

end Sys2Proof.Machine
end

section
/-! SKIP and END (`45_skip_and_end.md`): SKIP as its word and one whole next state, the slots a counter passes over, and END. -/

namespace Sys2Proof.Machine

/-! ### END -/

/-- Settles O21: its one word, and the count and the mark of the ended pass. -/
theorem endResult : Obligations.EndResult := by
  unfold Obligations.EndResult
  exact ⟨by decide, fun _ => rfl⟩

/-! ### SKIP -/

/-- A state whose register file is the injected one publishes what the injections left in R, on R's channel (R150). -/
theorem State.publish_of_keptDest {s u : State} {f : IoFlags} {o : Opnds} (hgpr : u.gpr = injectedRegs s f o)
    (hout : u.outBuf = s.outBuf) : u.publish f o = { u with outBuf := publishedOut s f o (keptDest s f o) } := by
  have hio : (u.reg o.r).io = (s.reg o.r).io := by
    rw [State.reg_eq u, hgpr]
    exact s.io_of_same o.r _ (getElem?_injectedRegs_kind_io s f o o.r.toNat)
  have hvalue : u.value o.r = keptDest s f o := by
    rw [State.value, State.reg, hgpr, keptDest]
  rw [State.publish_eq, hio, hvalue, hout, publishedOut]

/-- The next state of SKIP: the common steps, and the counter replaced when the mask is the condition code (R220). -/
theorem exec_skip {s : State} {f : IoFlags} {o : Opnds} (hr : s.Ready f o) :
    exec (.skip f o) s =
      .next { commonSteps s f o with
        skipcnt := if int32 (sourcesOf s f o).x = s.cc.code then int32 (sourcesOf s f o).y else s.skipcnt } := by
  rw [exec_executed (.skip f o) nofun s]
  refine (executed_ready hr _).trans (congrArg Host.Outcome.next ?_)
  rw [operationOf_skip]
  exact State.publish_of_keptDest rfl rfl

/-- The numbers of the condition codes written out (R6). -/
theorem CondCode.code_eq (c : CondCode) :
    c.code = match c with | .zero => 0 | .nonzero => 1 | .pos => 2 | .neg => 4 | .sat => 16 := by
  cases c <;> rfl

/-- Settles O20: `exec_skip`, with the numbers of the codes written out. -/
theorem skipResult : Obligations.SkipResult := by
  unfold Obligations.SkipResult
  refine fun f o => ⟨decode_or_fieldBits (i := .skip f o) (by simp [Instr.opcode]), fun s hr => ?_⟩
  have hnext := exec_skip hr
  rw [CondCode.code_eq] at hnext
  exact hnext

/-! ### Skipped slots -/

/-- The advance of the pass position is counting modulo the length of the list (R143). -/
theorem nextPc_eq_mod {n pc : Nat} (h : pc < n) : nextPc n pc = (pc + 1) % n := by
  unfold nextPc
  split
  · next hend => rw [hend, Nat.mod_self]
  · next hmid => exact (Nat.mod_eq_of_lt (by omega)).symm

/-- A skipped slot: the counter down, the position on, around the end of the list too (R144, R143). -/
theorem State.skipSlot_eq {s : State} (h : s.pc < s.imem.length) :
    s.skipSlot = { s with skipcnt := s.skipcnt - 1, pc := (s.pc + 1) % s.imem.length } := by
  rw [← nextPc_eq_mod h]
  rfl

/-- Settles O44: induction on the slots; one slot lowers the counter and `k` together, and leaves a negative counter
negative. -/
theorem skippingPassesOverSlots : Obligations.SkippingPassesOverSlots := by
  unfold Obligations.SkippingPassesOverSlots
  intro k
  induction k with
  | zero =>
    intro s _ hpc _
    rw [Nat.cast_zero, Int.sub_zero, Nat.add_zero, Nat.mod_eq_of_lt hpc]
    rfl
  | succ k ih =>
    intro s ht hpc hk
    have hstep : step s = .next { s with skipcnt := s.skipcnt - 1, pc := (s.pc + 1) % s.imem.length } :=
      (step_of_skipcnt_ne_zero ht (by omega) (List.getElem?_eq_getElem hpc)).trans
        (congrArg Host.Outcome.next (State.skipSlot_eq hpc))
    have hcount : s.skipcnt - 1 - k = s.skipcnt - (k + 1 : Nat) := by omega
    have hpos : ((s.pc + 1) % s.imem.length + k) % s.imem.length = (s.pc + (k + 1)) % s.imem.length := by
      rw [Nat.mod_add_mod, Nat.add_assoc, Nat.add_comm 1 k]
    have hleft : (k : Int) ≤ s.skipcnt - 1 ∨ s.skipcnt - 1 < 0 := by omega
    rw [run_succ Sys2Proof.core hstep k, ← hcount, ← hpos]
    exact ih _ ht (Nat.mod_lt _ (Nat.zero_lt_of_lt hpc)) hleft

end Sys2Proof.Machine
end

section
/-! Delay lines (`46_delay.md` R231 to R235): one write, one read, and what a line returns that is written and
read in every tick. -/

namespace Sys2Proof.Machine

/-! ### One access -/

/-- A delay write leaves every element but the addressed one as it was, in any buffer (R231). -/
theorem read_delayWrite_other (cap : Nat) (l : DelayLine) (v : F32) (off : Nat) {k : Nat}
    (hk : k ≠ writeAddress cap l off) : (delayWrite cap l v off).buf.read k = l.buf.read k :=
  Memory.read_write_other _ _ _ _ hk

/-- The element a delay write addresses reads as the value written, in a canonical buffer (R231). -/
theorem read_delayWrite_same (cap : Nat) {l : DelayLine} (h : l.buf.wf) (v : F32) (off : Nat) :
    (delayWrite cap l v off).buf.read (writeAddress cap l off) = v :=
  (Memory.read_write h _ _ v).trans (if_pos rfl)

/-- Settles O56: the rules of `Memory.write` at the address of the write. -/
theorem delayWriteStoresOneElement : Obligations.DelayWriteStoresOneElement := by
  unfold Obligations.DelayWriteStoresOneElement
  intro cap off l v h
  exact ⟨Memory.write_wf _ _ h, read_delayWrite_same cap h v off, fun k hk => read_delayWrite_other cap l v off hk,
    rfl, rfl, rfl⟩

/-- The non-negative remainder of R232 without integers: an offset past the read cursor wraps at the capacity. -/
theorem readAddress_eq {cap off : Nat} {l : DelayLine} (hr : l.rcur < cap) (ho : off < cap) :
    readAddress cap l off = if off ≤ l.rcur then l.rcur - off else cap + l.rcur - off := by
  unfold readAddress
  split
  · rw [Int.emod_eq_of_lt (by omega) (by omega)]
    omega
  · rw [← Int.add_emod_left, Int.emod_eq_of_lt (by omega) (by omega)]
    omega

/-- Settles O57: the address is `readAddress_eq`'s, and the advance writes the read cursor only. -/
theorem delayReadReturnsElement : Obligations.DelayReadReturnsElement := by
  unfold Obligations.DelayReadReturnsElement
  intro cap off l hr ho
  exact ⟨congrArg l.buf.read (readAddress_eq hr ho), rfl, rfl, rfl, rfl⟩

/-! ### A write at offset 0 and a read in every tick (R235) -/

/-- The line after one tick for each sample of a list: a write at offset 0, then the advance of a read. -/
def lineAfter (cap : Nat) (l : DelayLine) (vs : List F32) : DelayLine :=
  vs.foldl (fun l v => delayReadAdvance (delayWrite cap l v 0)) l

theorem lineAfter_concat (cap : Nat) (l : DelayLine) (vs : List F32) (v : F32) :
    lineAfter cap l (vs ++ [v]) = delayReadAdvance (delayWrite cap (lineAfter cap l vs) v 0) :=
  List.foldl_concat ..

/-- The sample of tick `k` is read at the read cursor of `k` ticks, from the buffer of `k + 1`. -/
theorem getElem?_writeThenRead (cap d : Nat) (vs : List F32) (l : DelayLine) {k : Nat} (hk : k < vs.length) :
    (writeThenRead cap d vs l)[k]? =
      some ((lineAfter cap l (vs.take (k + 1))).buf.read (readAddress cap (lineAfter cap l (vs.take k)) d)) := by
  induction vs generalizing l k with
  | nil => exact absurd hk (Nat.not_lt_zero k)
  | cons v vs ih =>
    cases k with
    | zero => rfl
    | succ k => exact ih _ (Nat.lt_of_succ_lt_succ hk)

section
variable {cap n c : Nat} {l : DelayLine}

/-- Equal cursors stay equal and inside the declared size (R233). -/
theorem lineAfter_cursors (hl : l = ⟨l.buf, c, c, n⟩) (hc : c < n) (vs : List F32) :
    (lineAfter cap l vs).wcur = (c + vs.length) % n ∧ (lineAfter cap l vs).rcur = (c + vs.length) % n ∧
      (lineAfter cap l vs).size = n := by
  induction vs using List.reverseRecOn with
  | nil =>
    rw [List.length_nil, Nat.add_zero, Nat.mod_eq_of_lt hc, hl]
    exact ⟨rfl, rfl, rfl⟩
  | append_singleton vs v ih =>
    obtain ⟨hw, hr, hs⟩ := ih
    rw [lineAfter_concat, List.length_append, List.length_singleton, ← Nat.add_assoc, ← Nat.mod_add_mod]
    exact ⟨by simp [delayReadAdvance, delayWrite, hw, hs], by simp [delayReadAdvance, delayWrite, hr, hs], hs⟩

/-- Tick `i` writes element `(c + i) mod n` when the capacity holds the declared size (R234). -/
theorem writeAddress_lineAfter (hl : l = ⟨l.buf, c, c, n⟩) (hc : c < n) (hn : n ≤ cap) (vs : List F32) :
    writeAddress cap (lineAfter cap l vs) 0 = (c + vs.length) % n := by
  rw [writeAddress, Nat.add_zero, (lineAfter_cursors hl hc vs).1]
  exact Nat.mod_eq_of_lt (Nat.lt_of_lt_of_le (Nat.mod_lt _ (Nat.zero_lt_of_lt hc)) hn)

theorem lineAfter_buf_wf (h : l.buf.wf) (vs : List F32) : (lineAfter cap l vs).buf.wf := by
  induction vs using List.reverseRecOn with
  | nil => exact h
  | append_singleton vs v ih =>
    rw [lineAfter_concat]
    exact Memory.write_wf _ _ ih

/-- The elements past the declared size are never written (R234 (b)). -/
theorem read_lineAfter_of_le (hl : l = ⟨l.buf, c, c, n⟩) (hc : c < n) (hn : n ≤ cap) (vs : List F32) {j : Nat}
    (hj : n ≤ j) : (lineAfter cap l vs).buf.read j = l.buf.read j := by
  induction vs using List.reverseRecOn with
  | nil => rfl
  | append_singleton vs v ih =>
    rw [lineAfter_concat, ← ih]
    refine read_delayWrite_other _ _ _ _ (Nat.ne_of_gt ?_)
    rw [writeAddress_lineAfter hl hc hn]
    exact Nat.lt_of_lt_of_le (Nat.mod_lt _ (Nat.zero_lt_of_lt hc)) hj

/-- Two of any `n` ticks in a row write different elements. -/
theorem tick_elements_ne {i k : Nat} (hi : i < k) (hk : k < i + n) : (c + i) % n ≠ (c + k) % n := by
  intro h
  have hdvd : n ∣ (c + k) - (c + i) := (Nat.modEq_iff_dvd' (by omega)).mp h
  have := Nat.le_of_dvd (by omega) hdvd
  omega

/-- The sample of tick `i` stands at element `(c + i) mod n` for a whole lap of the cursor (R234 (c)). -/
theorem read_lineAfter (hl : l = ⟨l.buf, c, c, n⟩) (hc : c < n) (hn : n ≤ cap) (h : l.buf.wf) (vs : List F32)
    {i : Nat} (hi : i < vs.length) (hlap : vs.length ≤ i + n) :
    some ((lineAfter cap l vs).buf.read ((c + i) % n)) = vs[i]? := by
  induction vs using List.reverseRecOn with
  | nil => exact absurd hi (Nat.not_lt_zero i)
  | append_singleton vs v ih =>
    rw [List.length_append, List.length_singleton] at hi hlap
    have haddr := writeAddress_lineAfter hl hc hn vs
    rw [lineAfter_concat]
    obtain rfl | hlt : i = vs.length ∨ i < vs.length := by omega
    · rw [List.getElem?_concat_length, ← haddr]
      exact congrArg some (read_delayWrite_same cap (lineAfter_buf_wf h vs) v 0)
    · rw [List.getElem?_append_left hlt, ← ih hlt (by omega)]
      refine congrArg some (read_delayWrite_other cap _ v 0 ?_)
      rw [haddr]
      exact tick_elements_ne hlt (by omega)

/-- Counting back less than a lap: the remainder wraps when it is below the offset. -/
theorem sub_mod_eq_ite {m d : Nat} (hd : d < n) (hm : d ≤ m) :
    (m - d) % n = if d ≤ m % n then m % n - d else n + m % n - d := by
  have hlt := Nat.mod_lt m (Nat.zero_lt_of_lt hd)
  have hdiv := Nat.mod_add_div m n
  split
  · have hsub : m - d = m % n - d + n * (m / n) := by omega
    rw [hsub, Nat.add_mul_mod_self_left, Nat.mod_eq_of_lt (by omega)]
  · obtain ⟨q, hq⟩ : ∃ q, m / n = q + 1 :=
      Nat.exists_eq_succ_of_ne_zero fun h0 => by
        rw [h0, Nat.mul_zero] at hdiv
        omega
    rw [hq, Nat.mul_succ] at hdiv
    have hsub : m - d = n + m % n - d + n * q := by omega
    rw [hsub, Nat.add_mul_mod_self_left, Nat.mod_eq_of_lt (by omega)]

/-- The element that the read of tick `k` returns, before any reduction modulo the declared size (R232, R234). -/
theorem readAddress_lineAfter (hl : l = ⟨l.buf, c, c, n⟩) (hc : c < n) (hn : n ≤ cap) {vs : List F32} {d k : Nat}
    (hd : d < n) (hk : k < vs.length) :
    readAddress cap (lineAfter cap l (vs.take k)) d =
      if d ≤ (c + k) % n then (c + k) % n - d else cap + (c + k) % n - d := by
  obtain ⟨-, hr, -⟩ := lineAfter_cursors (cap := cap) hl hc (vs.take k)
  rw [List.length_take_of_le hk.le] at hr
  have hlt := Nat.mod_lt (c + k) (Nat.zero_lt_of_lt hc)
  rw [readAddress_eq (by omega) (by omega), hr]

/-- Where the read of tick `k` addresses the element of tick `k - d`, it returns the sample written `d` ticks earlier. -/
theorem writeThenRead_of_readAddress (hl : l = ⟨l.buf, c, c, n⟩) (hc : c < n) (hn : n ≤ cap) (h : l.buf.wf)
    {vs : List F32} {d k : Nat} (hd : d < n) (hk : k < vs.length)
    (haddr : readAddress cap (lineAfter cap l (vs.take k)) d = (c + (k - d)) % n) :
    (writeThenRead cap d vs l)[k]? = vs[k - d]? := by
  have hlen : (vs.take (k + 1)).length = k + 1 := List.length_take_of_le hk
  rw [getElem?_writeThenRead cap d vs l hk, haddr, read_lineAfter hl hc hn h _ (by omega) (by omega),
    List.getElem?_take_of_lt (by omega)]

end

/-- Settles O58: with the declared size equal to the capacity, the two wrap-arounds agree. -/
theorem fullLineDelays : Obligations.FullLineDelays := by
  unfold Obligations.FullLineDelays
  intro cap d l vs hwf hsize hcur hd k hdk hk
  obtain ⟨hbuf, -, -, hc⟩ := hwf
  obtain ⟨buf, w, c, size⟩ := l
  obtain rfl : size = cap := hsize
  obtain rfl : w = c := hcur
  refine writeThenRead_of_readAddress rfl hc le_rfl hbuf hd hk ?_
  rw [readAddress_lineAfter rfl hc le_rfl hd hk, ← Nat.add_sub_assoc hdk, sub_mod_eq_ite hd (by omega)]

/-- Settles O59: an offset up to the cursor stays inside the declared size; a greater one reads an element past it, which
no tick writes. -/
theorem shortLineDelays : Obligations.ShortLineDelays := by
  unfold Obligations.ShortLineDelays
  intro cap n d vs hd hcap k hk
  have hc : 0 < n := Nat.zero_lt_of_lt hd
  have hn : n ≤ cap := by omega
  have haddr := readAddress_lineAfter (l := ⟨[], 0, 0, n⟩) rfl hc hn hd hk
  rw [Nat.zero_add] at haddr
  split
  · next hle =>
    refine writeThenRead_of_readAddress rfl hc hn Memory.wf_nil hd hk ?_
    rw [haddr, if_pos hle, Nat.zero_add, sub_mod_eq_ite hd (hle.trans (Nat.mod_le k n)), if_pos hle]
  · next hgt =>
    rw [getElem?_writeThenRead cap d vs _ hk, haddr, if_neg hgt,
      read_lineAfter_of_le rfl hc hn _ (show n ≤ cap + k % n - d by omega)]
    rfl

end Sys2Proof.Machine
end

section
/-! The delay instructions (`46_delay.md` R236 to R238): IDELAY and XDELAY, each as its word and the whole next state
of a read, a write and neither. -/

namespace Sys2Proof.Machine

/-! ### A delay access by the kind of R (R236) -/

section
variable {cap : Nat} {line : State → DelayLine} {put : State → DelayLine → State} {o : Opnds} {s : State}

theorem delayAccess_of_read (l : Sources) (hk : (s.reg o.r).kind = .read) :
    delayAccess cap line put o l s =
      ((put s (delayReadAdvance (line s))).setValue o.a
        (delaySample cap (line s) (delayOffset (line s).size l.y))).setAcc
        (widen (delaySample cap (line s) (delayOffset (line s).size l.y))) := by
  rw [delayAccess, hk]

theorem delayAccess_of_write (l : Sources) (hk : (s.reg o.r).kind = .write) :
    delayAccess cap line put o l s = put s (delayWrite cap (line s) l.a (delayOffset (line s).size l.y)) := by
  rw [delayAccess, hk]

theorem delayAccess_of_other (l : Sources) (hr : (s.reg o.r).kind ≠ .read) (hw : (s.reg o.r).kind ≠ .write) :
    delayAccess cap line put o l s = s := by
  unfold delayAccess
  cases hk : (s.reg o.r).kind with
  | read => exact absurd hk hr
  | write => exact absurd hk hw
  | _ => rfl

end

/-! ### An executed delay instruction -/

/-- A state whose register file is the injected one with a write of `v` to A publishes what R holds in it (R150). -/
theorem State.publish_of_wroteSource {s u : State} {f : IoFlags} {o : Opnds} {v : F32}
    (hgpr : u.gpr = writeValue (injectedRegs s f o) o.a.toNat v) (hout : u.outBuf = s.outBuf) :
    u.publish f o =
      { u with
        outBuf := publishedOut s f o
          ((writeValue (injectedRegs s f o) o.a.toNat v).getD o.r.toNat absentRecord).value } := by
  have hio : (u.reg o.r).io = (s.reg o.r).io := by
    rw [State.reg_eq u, hgpr]
    exact s.io_of_same o.r _ ((getElem?_writeValue_kind_io _ _ _ v).trans (getElem?_injectedRegs_kind_io s f o o.r.toNat))
  have hvalue : u.value o.r = ((writeValue (injectedRegs s f o) o.a.toNat v).getD o.r.toNat absentRecord).value := by
    rw [State.value, State.reg, hgpr]
  rw [State.publish_eq, hio, hvalue, hout, publishedOut]

section
variable {i : Instr} {s : State} {itram xtram : DelayLine}

/-- The next state of an instruction whose operation writes at most the delay lines (R142). -/
theorem exec_of_lines (hi : i ≠ .endPass) (hr : s.Ready i.flags i.opnds)
    (hop : operationOf i (sourcesOf s i.flags i.opnds)
        { s with gpr := injectedRegs s i.flags i.opnds, noisePos := noiseAfter s i.flags } =
      { s with gpr := injectedRegs s i.flags i.opnds, noisePos := noiseAfter s i.flags, itram, xtram }) :
    exec i s = .next { commonSteps s i.flags i.opnds with itram, xtram } := by
  rw [exec_executed i hi, executed_ready hr, hop]
  exact congrArg Host.Outcome.next (State.publish_of_keptDest rfl rfl)

/-- The next state of an instruction whose operation writes `v` to A and to the accumulator, besides the delay lines. -/
theorem exec_of_sample {v : F32} (hi : i ≠ .endPass) (hr : s.Ready i.flags i.opnds)
    (hop : operationOf i (sourcesOf s i.flags i.opnds)
        { s with gpr := injectedRegs s i.flags i.opnds, noisePos := noiseAfter s i.flags } =
      { s with
        gpr := writeValue (injectedRegs s i.flags i.opnds) i.opnds.a.toNat v
        noisePos := noiseAfter s i.flags
        acc := widen v
        itram, xtram }) :
    exec i s =
      .next { commonSteps s i.flags i.opnds with
        gpr := writeValue (injectedRegs s i.flags i.opnds) i.opnds.a.toNat v
        acc := widen v
        itram, xtram
        outBuf := publishedOut s i.flags i.opnds
          ((writeValue (injectedRegs s i.flags i.opnds) i.opnds.a.toNat v).getD i.opnds.r.toNat absentRecord).value } := by
  rw [exec_executed i hi, executed_ready hr, hop]
  exact congrArg Host.Outcome.next (State.publish_of_wroteSource rfl rfl)

end

/-- Settles O22: `delayAccess` on the short line, for each of the three uses of R. -/
theorem idelayResult : Obligations.IdelayResult := by
  unfold Obligations.IdelayResult
  refine fun f o => ⟨decode_or_fieldBits (i := .idelay f o) (by simp [Instr.opcode]), fun s hr => ?_⟩
  have hkind := s.kind_injected f o o.r
  refine ⟨fun hk => ?_, fun hk => ?_, fun hkr hkw => ?_⟩
  · exact exec_of_sample (i := .idelay f o) nofun hr (delayAccess_of_read _ (hkind.trans hk))
  · exact ⟨_, exec_of_lines (i := .idelay f o) nofun hr (delayAccess_of_write _ (hkind.trans hk)), rfl, rfl,
      fun k hne => read_delayWrite_other _ _ _ _ hne,
      fun hwf => ⟨Memory.write_wf _ _ hwf, read_delayWrite_same _ hwf _ _⟩⟩
  · exact exec_of_lines (i := .idelay f o) nofun hr (delayAccess_of_other _ (hkind.trans_ne hkr) (hkind.trans_ne hkw))

/-- Settles O23: `delayAccess` on the long line, for each of the three uses of R. -/
theorem xdelayResult : Obligations.XdelayResult := by
  unfold Obligations.XdelayResult
  refine fun f o => ⟨decode_or_fieldBits (i := .xdelay f o) (by simp [Instr.opcode]), fun s hr => ?_⟩
  have hkind := s.kind_injected f o o.r
  refine ⟨fun hk => ?_, fun hk => ?_, fun hkr hkw => ?_⟩
  · exact exec_of_sample (i := .xdelay f o) nofun hr (delayAccess_of_read _ (hkind.trans hk))
  · exact ⟨_, exec_of_lines (i := .xdelay f o) nofun hr (delayAccess_of_write _ (hkind.trans hk)), rfl, rfl,
      fun k hne => read_delayWrite_other _ _ _ _ hne,
      fun hwf => ⟨Memory.write_wf _ _ hwf, read_delayWrite_same _ hwf _ _⟩⟩
  · exact exec_of_lines (i := .xdelay f o) nofun hr (delayAccess_of_other _ (hkind.trans_ne hkr) (hkind.trans_ne hkw))

end Sys2Proof.Machine
end

section
/-! The order of the diagnostics of a failed load: the rows only grow, because a line raises its diagnostics at its own row and
the last diagnostic is raised at the last line that is not blank (R253, R255, R116). -/

namespace Sys2Proof.Machine

/-- An error list with its sentinel, whose diagnostics are ordered by row, from row 1 to a row (R253, R255). -/
def DiagnosedUpTo (row : Nat) (errors : List ErrorRecord) : Prop :=
  1 ≤ row ∧ ∃ ds : List ErrorRecord, errors = ⟨.noError, none⟩ :: ds ∧
    (∀ d ∈ ds, d.kind ≠ .noError ∧ ∃ r, d.row = some r ∧ 1 ≤ r ∧ r ≤ row) ∧
    ds.Pairwise (fun a b => a.row.getD 0 ≤ b.row.getD 0)

variable {n row : Nat} {l : Loading}

theorem diagnosedUpTo_start : DiagnosedUpTo Loading.start.lastRow Loading.start.errors :=
  ⟨le_rfl, [], rfl, nofun, .nil⟩

theorem DiagnosedUpTo.mono {errors : List ErrorRecord} (h : DiagnosedUpTo row errors) {row' : Nat} (hrow : row ≤ row') :
    DiagnosedUpTo row' errors := by
  obtain ⟨hpos, ds, heq, hds, hord⟩ := h
  refine ⟨hpos.trans hrow, ds, heq, fun d hd => ?_, hord⟩
  obtain ⟨hkind, r, hr, h1, hle⟩ := hds d hd
  exact ⟨hkind, r, hr, h1, hle.trans hrow⟩

/-- A diagnostic raised at the greatest row so far keeps the order. -/
theorem DiagnosedUpTo.raise (h : DiagnosedUpTo row l.errors) {kind : Diagnostic} (hkind : kind ≠ .noError) :
    DiagnosedUpTo row (l.raise kind row).errors := by
  obtain ⟨hpos, ds, heq, hds, hord⟩ := h
  refine ⟨hpos, ds ++ [⟨kind, some row⟩], by simp [Loading.raise, heq], fun d hd => ?_,
    List.pairwise_append.mpr ⟨hord, List.pairwise_singleton _ _, fun a ha b hb => ?_⟩⟩
  · rcases List.mem_append.mp hd with hd | hd
    · exact hds d hd
    · obtain rfl := List.mem_singleton.mp hd
      exact ⟨hkind, row, rfl, hpos, le_rfl⟩
  · obtain rfl := List.mem_singleton.mp hb
    obtain ⟨-, r, hr, -, hle⟩ := hds a ha
    simpa [hr] using hle

/-! ### The effects of one line -/

theorem DiagnosedUpTo.declare (h : DiagnosedUpTo row l.errors) (k : Kind) (name : Text) (number : Option Decimal) :
    DiagnosedUpTo row (l.declare n row k name number).errors := by
  unfold Loading.declare
  split
  · exact h.raise nofun
  · unfold Loading.newRegister
    split
    · split
      · exact h
      · exact h.raise (kind := .ioIndexOutOfRange) nofun
    · dsimp only
      split <;> exact h

theorem DiagnosedUpTo.tramSize (h : DiagnosedUpTo row l.errors) (long : Bool) (size : Nat) :
    DiagnosedUpTo row (l.tramSize row long size).errors := by
  unfold Loading.tramSize
  split
  · exact h.raise nofun
  · split <;> split
    · exact h.raise nofun
    · exact h
    · exact h.raise nofun
    · exact h

theorem DiagnosedUpTo.resolve (h : DiagnosedUpTo row l.errors) (token : Text) :
    DiagnosedUpTo row (l.resolve row token).2.errors := by
  unfold Loading.resolve
  split
  · exact h
  · split
    · exact h
    · exact h.raise nofun

theorem DiagnosedUpTo.instruction (h : DiagnosedUpTo row l.errors) (op : BitVec 5) (r a x y : Text) :
    DiagnosedUpTo row (l.instruction row op r a x y).errors := by
  have hresolved := (((h.resolve r).resolve a).resolve x).resolve y
  unfold Loading.instruction
  dsimp only
  split
  · split
    · exact hresolved.raise nofun
    · exact hresolved
  · exact hresolved

/-! ### A whole text -/

/-- A line raises its diagnostics at its own row, which becomes the last row unless the line is blank (R105, R116). -/
theorem DiagnosedUpTo.line (h : DiagnosedUpTo l.lastRow l.errors) (hrow : l.lastRow ≤ row) (c : Line) :
    DiagnosedUpTo (l.line n row c).lastRow (l.line n row c).errors ∧ (l.line n row c).lastRow ≤ row := by
  have hhere := h.mono hrow
  cases c with
  | blank => exact ⟨h, hrow⟩
  | decl k name number => exact ⟨hhere.declare k name number, le_rfl⟩
  | tramSize long size => exact ⟨hhere.tramSize long size, le_rfl⟩
  | instruction op r a x y => exact ⟨hhere.instruction op r a x y, le_rfl⟩
  | terminator => exact ⟨hhere, le_rfl⟩
  | invalid => exact ⟨hhere.raise nofun, le_rfl⟩

theorem DiagnosedUpTo.lines (ts : List Text) (h : DiagnosedUpTo l.lastRow l.errors) (hrow : l.lastRow ≤ row) :
    DiagnosedUpTo (Loading.lines n row ts l).lastRow (Loading.lines n row ts l).errors := by
  induction ts generalizing row l with
  | nil => exact h
  | cons t ts ih =>
    obtain ⟨hline, hle⟩ := h.line (n := n) hrow (classify (normalLine t))
    exact ih hline (Nat.le_succ_of_le hle)

/-- NoEndFound is raised at the last row (R254). -/
theorem DiagnosedUpTo.finish (h : DiagnosedUpTo l.lastRow l.errors) : DiagnosedUpTo l.lastRow l.finish.errors := by
  unfold Loading.finish
  split
  · exact h
  · exact h.raise nofun

/-- A failed load answers the loader's list, which is not the sentinel alone (R256). -/
theorem errors_of_assemble {text : Text} {errors : List ErrorRecord} (h : assemble n text = .failed errors) :
    errors = (Loading.lines n 1 (splitOnChar '\n' text) Loading.start).finish.errors ∧ errors ≠ sentinelOnly := by
  unfold assemble at h
  dsimp only at h
  split at h
  · cases h
  · split at h
    · cases h
    · next hne =>
      obtain rfl := LoadResult.failed.inj h
      exact ⟨rfl, hne⟩

/-- Settles O51: the whole text keeps the order, and the list is not the sentinel alone. -/
theorem diagnosticsInRowOrder : Obligations.DiagnosticsInRowOrder := by
  unfold Obligations.DiagnosticsInRowOrder
  intro n text errors h
  obtain ⟨herrors, hne⟩ := errors_of_assemble h
  obtain ⟨-, ds, heq, hds, hord⟩ := herrors ▸ (diagnosedUpTo_start.lines (splitOnChar '\n' text) le_rfl).finish
  refine ⟨ds, heq, fun hnil => hne (by rw [heq, hnil, sentinelOnly]), fun d hd => ?_, hord⟩
  obtain ⟨hkind, r, hr, h1, -⟩ := hds d hd
  exact ⟨hkind, r, hr, h1⟩

end Sys2Proof.Machine
end

section
/-! No step of a tick stops, which transactions of the host are refused, and what the loads and the reset leave. -/

namespace Sys2Proof.Machine

/-! ### Steps of a tick -/

/-- Settles O55: the word of the slot is passed over, or its instruction, well-formed by the invariant, completes. -/
theorem tickStepNeverStops : Obligations.TickStepNeverStops := by
  unfold Obligations.TickStepNeverStops
  intro s h ht
  obtain ⟨hl, -, -⟩ := h.tick ht
  obtain ⟨w, i, hf, -, hd, hwf⟩ := h.fetch_wf ht
  by_cases hk : s.skipcnt = 0
  · obtain ⟨u, hx⟩ := h.exec_completes hl hwf
    exact ⟨u.afterExec, by rw [step_of_decode ht hk hf hd, hx, settle]⟩
  · exact ⟨s.skipSlot, step_of_skipcnt_ne_zero ht hk hf⟩

/-! ### Refused transactions -/

section
variable {s : State}

theorem startTick_of_not_loaded (hl : s.loadedOk = false) (samples : List F32) :
    startTick samples s = .refused .tickNotLoaded := by
  simp [startTick, hl]

theorem step_tick_of_not_loaded {samples : List F32} {rest : List HostCmd} (ht : s.inTick = false)
    (hq : s.hostQueue = .tick samples :: rest) (hl : s.loadedOk = false) : step s = .refused .tickNotLoaded :=
  (step_pending ht hq).trans (startTick_of_not_loaded (s := { s with hostQueue := rest }) hl samples)

theorem startTick_of_ill_formed (hl : s.loadedOk = true) (hwf : s.imageWf = false) (samples : List F32) :
    startTick samples s = .refused .illFormedImage := by
  simp [startTick, hl, hwf]

theorem startTick_of_wrong_count (hl : s.loadedOk = true) (hwf : s.imageWf = true) {samples : List F32}
    (hn : samples.length ≠ s.numChannels) : startTick samples s = .refused .wrongSampleCount := by
  simp [startTick, hl, hwf, hn]

theorem portWrite_of_le {i : Nat} (h : s.gpr.length ≤ i) (v : F32) :
    portWrite i v s = .refused .hostIndexOutOfRange := if_neg (not_lt.mpr h)

theorem portRead_of_le {i : Nat} (h : s.gpr.length ≤ i) : portRead i s = .refused .hostIndexOutOfRange := by
  simp [portRead, h]

/-- A delivered image whose records unpack and which passes the checks is loaded (R112). -/
theorem loadImage_of_wf {raw : RawImage} {img : ProgramImage} (hraw : raw.unpack = some img)
    (hwf : img.wf s.numChannels = true) : loadImage raw s = .next ((s.loadSucceeded img).answer .loaded) := by
  simp [loadImage, hraw, hwf]

theorem loadImage_of_not_wf {raw : RawImage}
    (h : ∀ img, raw.unpack = some img → img.wf s.numChannels = false) :
    loadImage raw s = .refused .illFormedImage := by
  unfold loadImage
  split
  · next img hraw => rw [h img hraw, if_neg Bool.false_ne_true]
  · rfl

/-- What exceeds the machine's words: more than 4096 registers or words, or a channel of more than 16 bits (log 14). -/
theorem exceeds_iff (img : ProgramImage) :
    ProgramImage.exceeds img = true ↔ 4096 < img.gpr.length ∨ 4096 < img.imem.length ∨ ∃ r ∈ img.gpr, 65536 ≤ r.io := by
  simp only [ProgramImage.exceeds, Bool.or_eq_true, List.any_eq_true, decide_eq_true_eq, or_assoc]
  exact Iff.rfl

theorem assemble_eq_overCapacity_iff (n : Nat) (text : Text) :
    assemble n text = .overCapacity ↔
      ProgramImage.exceeds (Loading.lines n 1 (splitOnChar '\n' text) Loading.start).finish.img = true := by
  unfold assemble
  dsimp only
  split
  · next h => simp [h]
  · next h => split <;> simp [h]

/-- A load of a text is refused for the capacities alone (log 14). -/
theorem loadText_refused_iff (text : Text) :
    loadText text s = .refused .imageOverCapacity ↔ assemble s.numChannels text = .overCapacity := by
  cases h : assemble s.numChannels text <;> simp [loadText, h]

end

/-- Settles O42: each refused transaction is the first pending one, and its refusal is the lemma above. -/
theorem refusedTransactions : Obligations.RefusedTransactions := by
  unfold Obligations.RefusedTransactions
  intro s rest ht
  refine ⟨fun samples hq => ?_, fun i v hq hi => ?_, fun i hq hi => ?_, fun raw hq h => ?_, fun hq => ?_,
    fun text hq => ?_, fun name i hname hi => ?_⟩
  · refine ⟨step_tick_of_not_loaded ht hq, fun hl hwf => ?_, fun hl hwf hn => ?_⟩
    · exact (step_pending ht hq).trans (startTick_of_ill_formed (s := { s with hostQueue := rest }) hl hwf samples)
    · exact (step_pending ht hq).trans (startTick_of_wrong_count (s := { s with hostQueue := rest }) hl hwf hn)
  · exact (step_pending ht hq).trans (portWrite_of_le (s := { s with hostQueue := rest }) hi v)
  · exact (step_pending ht hq).trans (portRead_of_le (s := { s with hostQueue := rest }) hi)
  · exact (step_pending ht hq).trans (loadImage_of_not_wf (s := { s with hostQueue := rest }) h)
  · exact step_pending ht hq
  · rw [step_pending ht hq]
    exact (loadText_refused_iff text).trans ((assemble_eq_overCapacity_iff _ _).trans (exceeds_iff _))
  · have hindex : State.indexOf { s with hostQueue := rest } name = some i := hname
    have hlen : (State.gpr { s with hostQueue := rest }).length ≤ i := hi
    exact ⟨fun v hq => (step_pending ht hq).trans ((perform_setByName_of_some hindex v).trans (portWrite_of_le hlen v)),
      fun hq => (step_pending ht hq).trans ((perform_getByName_of_some hindex).trans (portRead_of_le hlen))⟩

/-! ### Loads and reset -/

theorem loadText_of_accepted {s : State} {text : Text} {img : ProgramImage}
    (h : assemble s.numChannels text = .accepted img) :
    loadText text s = .next ((s.loadSucceeded img).answer .loaded) := by
  simp [loadText, h]

theorem loadText_of_failed {s : State} {text : Text} {errors : List ErrorRecord}
    (h : assemble s.numChannels text = .failed errors) :
    loadText text s = .next ((s.loadFailed errors).answer (.loadFailed errors)) := by
  simp [loadText, h]

/-- Settles O49: the next state is the failed load's, whose status refuses the tick. -/
theorem failedLoadRefusesTick : Obligations.FailedLoadRefusesTick := by
  unfold Obligations.FailedLoadRefusesTick
  intro s text errors rest ht hq h
  refine ⟨_, (step_pending ht hq).trans (loadText_of_failed (s := { s with hostQueue := rest }) h), rfl, rfl, rfl, rfl,
    rfl, rfl, rfl, rfl, rfl, rfl, rfl, rfl, rfl, rfl, fun samples more => ?_⟩
  exact step_tick_of_not_loaded ht rfl rfl

/-- Settles O48: both ways of loading come to the same successful load. -/
theorem loadKeepsRunState : Obligations.LoadKeepsRunState := by
  unfold Obligations.LoadKeepsRunState
  rintro s img rest ht (⟨text, hq, h⟩ | ⟨raw, hq, hraw, hwf⟩)
  · exact (step_pending ht hq).trans (loadText_of_accepted (s := { s with hostQueue := rest }) h)
  · exact (step_pending ht hq).trans (loadImage_of_wf (s := { s with hostQueue := rest }) hraw hwf)

/-- Construction with a channel is not refused (R6, R280). -/
theorem construct_of_pos {s : State} {n : Nat} (hn : 1 ≤ n) :
    construct n s = .next ({ State.construct n with
      hostQueue := s.hostQueue, replies := s.replies, freeCount := s.freeCount }.answer .constructed) :=
  if_neg (Nat.one_le_iff_ne_zero.mp hn)

/-- Settles O52: the values are the constructed state's fields, and the transaction is `construct_of_pos`. -/
theorem resetValues : Obligations.ResetValues := by
  unfold Obligations.ResetValues
  refine ⟨fun n => ?_, ⟨Config.numChannels, le_rfl, rfl⟩,
    fun s n rest ht hq hn => (step_pending ht hq).trans (construct_of_pos hn)⟩
  exact ⟨rfl, rfl, rfl, rfl, rfl, rfl, rfl, rfl, fun k => ⟨rfl, rfl⟩, rfl, rfl, rfl, rfl, rfl, rfl, rfl, rfl, rfl, rfl,
    rfl⟩

end Sys2Proof.Machine
end
